-- ==== Sys2Proof/Word.lean ====
section
/-! DEFINITION. The words and named values that travel on the SFH core's channels: bytes, pages, addresses,
the command word, results, STATUS names, leaf requests, trace events, data beats and responses.
Encodings of the names are in Decode.lean. -/

namespace Sys2Proof

/-- 8 bits (00_scope.md section 5). -/
abbrev Byte := BitVec 8

/-- An address on a channel: `ADDR_WIDTH` = 32 bits (R3, R25). Addresses computed inside are `Nat` (R66). -/
abbrev Addr := BitVec 32

/-- One page of 256 bytes as it travels: the 2048-bit payload of a beat (R58).
`pageByte` of Decode.lean says which bits are byte `k`. -/
abbrev Page := BitVec 2048

/-- The command word `CMD[35:0]` (R45). -/
abbrev CmdWord := BitVec 36

/-- The opcode field `CMD[35:32]` (R45). -/
abbrev Opcode := BitVec 4

/-- The two-valued result of every procedure and command (R50, R78, R106). -/
inductive Result where
  | ok
  | fail
  deriving DecidableEq, Repr

/-- The 11 legal values of STATUS (R11). -/
inductive Status where
  | free
  | erasingPage
  | erasingSector
  | erasingBlock
  | erasingFull
  | writingPage
  | writingSector
  | writingBlock
  | readingPage
  | readingSector
  | readingBlock
  deriving DecidableEq, Repr

/-- A request on the LREQ channel (R32 to R34, R52). -/
inductive LeafReq where
  | erase (a : Nat)
  | write (a : Nat) (d : Page)
  | read (a : Nat)
  deriving DecidableEq, Repr

/-- The observable events of a command's trace (R7). -/
inductive Event where
  | statusWrite (v : Status)
  | leafErase (a : Nat)
  | leafWrite (a : Nat) (d : Page)
  | leafRead (a : Nat) (d : Page)
  | checkModeWrite (b : Bool)
  deriving DecidableEq, Repr

/-- One transfer on the RD channel: a page and its tag `rd_index[7:0]` (R58). -/
structure RdBeat where
  index : BitVec 8
  page : Page
  deriving DecidableEq, Repr

/-- What a command answers: `RSP[16:0]` (R50) and the transaction-level result `rdata` (R49), page by page. -/
structure Response where
  result : Result
  crc : BitVec 16
  rdata : List Page
  deriving DecidableEq, Repr

end Sys2Proof
end

