-- ==== Sys2Proof/Config.lean ====
section
/-! DEFINITION. The fixed sizes, the configuration record of one SFH core, the kinds of backend, and the free
values of the model. -/

namespace Sys2Proof

/-- "atomic erase/write/read unit" (R2). -/
abbrev pageSize : Nat := 256

/-- "16 pages" (R2). -/
abbrev sectorSize : Nat := 4096

/-- "16 sectors = 256 pages" (R2). -/
abbrev blockSize : Nat := 65536

/-- R2. -/
abbrev pagesPerSector : Nat := 16

/-- R2. -/
abbrev sectorsPerBlock : Nat := 16

/-- R2. -/
abbrev pagesPerBlock : Nat := 256

/-- The configuration of one core (R3), plain data that no command changes; `Params.wf` (WellFormed.lean) is R4. -/
structure Params where
  startAddress : Addr
  endAddress : Addr
  propagateSubfail : Bool
  crcSwap : Bool
  deriving DecidableEq, Repr

/-- The example configuration of R3: the source's scenario window, with the values R3 gives this hardware for
PROPAGATE_SUBFAIL and CRC_SWAP. -/
def Params.example : Params :=
  { startAddress := 0x08000000#32, endAddress := 0x08200000#32, propagateSubfail := true, crcSwap := false }

/-- Which flash answers behind the leaf channel. `reference` is the byte array of R41; with `oracle` a leaf read
answers any page at all (R33) and nothing is said of the array. -/
inductive BackendKind where
  | reference
  | oracle
  deriving DecidableEq, Repr

/-- `unspecified(256)` of 00_scope.md section 5: the page drawn at draw `n` (U1, U8). Free value, log 6. -/
opaque Config.freePage : Nat → Page

/-- The unspecified 16 bits of a response's `crc` field, drawn at draw `n` (R50, U2). Free value, log 6. -/
opaque Config.freeCrc : Nat → BitVec 16

/-- The answer of an oracle backend to the leaf read made at draw `n` (R33, U5). Free value, log 13. -/
opaque Config.oraclePage : Nat → Page

end Sys2Proof
end

