-- ==== Sys2Proof/Syntax.lean ====
section
/-! DEFINITION. The commands of the SFH core: one constructor per row of spec/opcode_table.json. -/

namespace Sys2Proof

/-- A command with its operands (R45 to R48). `addr` is `CMD[31:0]`; the commands that ignore it carry it as
`ignored` (R47, R104), so that every command word is some `Instr`. Write data is the list of page beats of R58:
beat `p` is `wdata[256*p .. 256*p + 255]`, and `Instr.wf` fixes their number. -/
inductive Instr where
  | erasePage (addr : Addr)
  | eraseSector (addr : Addr)
  | eraseBlock (addr : Addr)
  | eraseFull (ignored : Addr)
  | writePage (addr : Addr) (d : Page)
  | writeSector (addr : Addr) (d : List Page)
  | writeBlock (addr : Addr) (d : List Page)
  | getPage (addr : Addr)
  | getSector (addr : Addr)
  | getBlock (addr : Addr)
  | getPageCrc16 (addr : Addr)
  | enableCheckMode (ignored : Addr)
  | disableCheckMode (ignored : Addr)
  | reserved0 (ignored : Addr)
  | reservedE (ignored : Addr)
  | reservedF (ignored : Addr)
  deriving DecidableEq, Repr

end Sys2Proof
end

