-- ==== Sys2Proof/WellFormed.lean ====
section
/-! DEFINITION. The checks on a command's operands and on a configuration. -/

namespace Sys2Proof

/-- "`WRITE_PAGE` takes exactly 256 bytes, `WRITE_SECTOR` exactly 4096, `WRITE_BLOCK` exactly 65536" (R48): 1, 16
and 256 beats of 256 bytes. The length of WRITE_PAGE's one beat is in its type. -/
def Instr.wf : Instr → Bool
  | .writeSector _ d => d.length == pagesPerSector
  | .writeBlock _ d => d.length == pagesPerBlock
  | .erasePage _ => true
  | .eraseSector _ => true
  | .eraseBlock _ => true
  | .eraseFull _ => true
  | .writePage _ _ => true
  | .getPage _ => true
  | .getSector _ => true
  | .getBlock _ => true
  | .getPageCrc16 _ => true
  | .enableCheckMode _ => true
  | .disableCheckMode _ => true
  | .reserved0 _ => true
  | .reservedE _ => true
  | .reservedF _ => true

/-- "A configuration is well formed only if `START_ADDRESS <= END_ADDRESS`" (R4); both lie below 2^32 by their type. -/
def Params.wf (p : Params) : Bool := decide (p.startAddress.toNat ≤ p.endAddress.toNat)

end Sys2Proof
end

