-- ==== Sys2Proof/Decode.lean ====
section
/-! DEFINITION. The encodings of 30_encoding.md: the layout of a beat, the command word and its fields, the opcode
map, the decoder and the encoder, and the STATUS, result, leaf-request and response words. -/

namespace Sys2Proof

/-! ### The layout of a beat (R27, R58) -/

/-- Byte `k` of a beat is bits `[8k+7 : 8k]` (R58). -/
def pageByte (p : Page) (k : Nat) : Byte := p.extractLsb' (8 * k) 8

/-- A sequence of bytes as one number, byte 0 least significant: the layout of R58. -/
def packNat : List Byte → Nat
  | [] => 0
  | b :: bs => b.toNat + 256 * packNat bs

/-- The beat that carries 256 bytes, byte 0 first (R58). -/
def packPage (bs : List Byte) : Page := BitVec.ofNat 2048 (packNat bs)

/-- The 256 bytes of a beat in ascending order (R27). -/
def pageBytes (p : Page) : List Byte := (List.range pageSize).map (pageByte p)

/-- `rep(b, 256)` of 00_scope.md section 5 as a beat. -/
def repPage (b : Byte) : Page := packPage (List.replicate pageSize b)

/-- Byte `n` of a buffer that travels as the beats `ps` (R48, R49): beat `n / 256`, byte `n mod 256`. -/
def bufferByte (ps : List Page) (n : Nat) : Byte := pageByte (ps.getD (n / pageSize) 0) (n % pageSize)

/-! ### The command word (R45) -/

/-- `CMD[35:32]`. -/
def cmdOp (w : CmdWord) : Opcode := w.extractLsb' 32 4

/-- `CMD[31:0]`. -/
def cmdAddr (w : CmdWord) : Addr := w.extractLsb' 0 32

/-- `CMD = op * 2^32 + addr`. -/
def cmdWord (op : Opcode) (addr : Addr) : CmdWord := op ++ addr

/-! ### The opcode map (R46) -/

/-- The opcode of a command, the column `op` of R46. -/
def Instr.opcode : Instr → Opcode
  | .erasePage _ => 0x1
  | .eraseSector _ => 0x2
  | .eraseBlock _ => 0x3
  | .eraseFull _ => 0x4
  | .writePage _ _ => 0x5
  | .writeSector _ _ => 0x6
  | .writeBlock _ _ => 0x7
  | .getPage _ => 0x8
  | .getSector _ => 0x9
  | .getBlock _ => 0xA
  | .getPageCrc16 _ => 0xB
  | .enableCheckMode _ => 0xC
  | .disableCheckMode _ => 0xD
  | .reserved0 _ => 0x0
  | .reservedE _ => 0xE
  | .reservedF _ => 0xF

/-- The address field of a command, used or ignored (R45, R47). -/
def Instr.addrField : Instr → Addr
  | .erasePage a => a
  | .eraseSector a => a
  | .eraseBlock a => a
  | .eraseFull a => a
  | .writePage a _ => a
  | .writeSector a _ => a
  | .writeBlock a _ => a
  | .getPage a => a
  | .getSector a => a
  | .getBlock a => a
  | .getPageCrc16 a => a
  | .enableCheckMode a => a
  | .disableCheckMode a => a
  | .reserved0 a => a
  | .reservedE a => a
  | .reservedF a => a

/-- The write-data beats of a command, in the order they travel on WD (R58). -/
def Instr.beats : Instr → List Page
  | .writePage _ d => [d]
  | .writeSector _ d => d
  | .writeBlock _ d => d
  | .erasePage _ => []
  | .eraseSector _ => []
  | .eraseBlock _ => []
  | .eraseFull _ => []
  | .getPage _ => []
  | .getSector _ => []
  | .getBlock _ => []
  | .getPageCrc16 _ => []
  | .enableCheckMode _ => []
  | .disableCheckMode _ => []
  | .reserved0 _ => []
  | .reservedE _ => []
  | .reservedF _ => []

/-- The mnemonic of a command, as spec/opcode_table.json and R46 spell it. -/
def Instr.mnemonic : Instr → String
  | .erasePage _ => "ERASE_PAGE"
  | .eraseSector _ => "ERASE_SECTOR"
  | .eraseBlock _ => "ERASE_BLOCK"
  | .eraseFull _ => "ERASE_FULL"
  | .writePage _ _ => "WRITE_PAGE"
  | .writeSector _ _ => "WRITE_SECTOR"
  | .writeBlock _ _ => "WRITE_BLOCK"
  | .getPage _ => "GET_PAGE"
  | .getSector _ => "GET_SECTOR"
  | .getBlock _ => "GET_BLOCK"
  | .getPageCrc16 _ => "GET_PAGE_CRC16"
  | .enableCheckMode _ => "ENABLE_CHECK_MODE"
  | .disableCheckMode _ => "DISABLE_CHECK_MODE"
  | .reserved0 _ => "RESERVED_0"
  | .reservedE _ => "RESERVED_E"
  | .reservedF _ => "RESERVED_F"

/-- A row of spec/opcode_table.json: a word is the row's exactly when `word &&& mask = pattern` (R46). -/
structure OpcodeRow where
  mnemonic : String
  mask : CmdWord
  pattern : CmdWord
  deriving DecidableEq, Repr

/-- spec/opcode_table.json, row by row (R46: `match = op << 32`, `mask = 0xF00000000`). -/
def opcodeTable : List OpcodeRow :=
  [ ⟨"ERASE_PAGE", 0xF00000000, 0x100000000⟩, ⟨"ERASE_SECTOR", 0xF00000000, 0x200000000⟩,
    ⟨"ERASE_BLOCK", 0xF00000000, 0x300000000⟩, ⟨"ERASE_FULL", 0xF00000000, 0x400000000⟩ ] ++
  [ ⟨"WRITE_PAGE", 0xF00000000, 0x500000000⟩, ⟨"WRITE_SECTOR", 0xF00000000, 0x600000000⟩,
    ⟨"WRITE_BLOCK", 0xF00000000, 0x700000000⟩, ⟨"GET_PAGE", 0xF00000000, 0x800000000⟩ ] ++
  [ ⟨"GET_SECTOR", 0xF00000000, 0x900000000⟩, ⟨"GET_BLOCK", 0xF00000000, 0xA00000000⟩,
    ⟨"GET_PAGE_CRC16", 0xF00000000, 0xB00000000⟩, ⟨"ENABLE_CHECK_MODE", 0xF00000000, 0xC00000000⟩ ] ++
  [ ⟨"DISABLE_CHECK_MODE", 0xF00000000, 0xD00000000⟩, ⟨"RESERVED_0", 0xF00000000, 0x000000000⟩,
    ⟨"RESERVED_E", 0xF00000000, 0xE00000000⟩, ⟨"RESERVED_F", 0xF00000000, 0xF00000000⟩ ]

/-- How many WD beats follow a command word (R58): 1, 16 and 256 for the writes, none for the others, and none
for a reserved opcode (R104). -/
def beatCount (op : Opcode) : Nat :=
  if op = 0x5 then 1 else if op = 0x6 then pagesPerSector else if op = 0x7 then pagesPerBlock else 0

/-- Why no command can be taken from the channels. Raised by `decode`; safe: the block waits for its host. -/
inductive DecodeError where
  /-- the WD channel does not yet offer every beat of the write command -/
  | writeDataMissing
  deriving DecidableEq, Repr

/-- The command of a word whose write data is the beats `d` (R46, R75). Decoding looks at `op` alone (R55, R62). -/
def selectCommand (op : Opcode) (addr : Addr) (d : List Page) : Instr :=
  match op.toNat with
  | 0x1 => .erasePage addr
  | 0x2 => .eraseSector addr
  | 0x3 => .eraseBlock addr
  | 0x4 => .eraseFull addr
  | 0x5 => .writePage addr (d.getD 0 0)
  | 0x6 => .writeSector addr d
  | 0x7 => .writeBlock addr d
  | 0x8 => .getPage addr
  | 0x9 => .getSector addr
  | 0xA => .getBlock addr
  | 0xB => .getPageCrc16 addr
  | 0xC => .enableCheckMode addr
  | 0xD => .disableCheckMode addr
  | 0x0 => .reserved0 addr
  | 0xE => .reservedE addr
  | _ => .reservedF addr

/-- The decoder: from a command word and the beats waiting on WD to the command and the beats left over. Total: every
word is a command (R62); only write data that has not arrived yet is rejected. -/
def decode (w : CmdWord) (wd : List Page) : Except DecodeError (Instr × List Page) :=
  let n := beatCount (cmdOp w)
  if n ≤ wd.length then .ok (selectCommand (cmdOp w) (cmdAddr w) (wd.take n), wd.drop n)
  else .error .writeDataMissing

/-- The encoder: the command word and the beats that follow it on WD (R45, R46, R58). -/
def encode (i : Instr) : CmdWord × List Page := (cmdWord i.opcode i.addrField, i.beats)

/-- The command of a word numbered as spec/opcode_table.json numbers it: `CMD[35:0]`, with write data of zeros
(log 20). A number with a bit above `CMD[35]` is no command word. -/
def decodeTableWord (_nbits w : Nat) : Option Instr :=
  if w < 2 ^ 36 then
    let word : CmdWord := BitVec.ofNat 36 w
    match decode word (List.replicate (beatCount (cmdOp word)) 0) with
    | .ok (i, _) => some i
    | .error _ => none
  else none

/-! ### STATUS, result, leaf-request and response words -/

/-- The STATUS encoding (R51). -/
def Status.code : Status → BitVec 4
  | .free => 0
  | .erasingPage => 1
  | .erasingSector => 2
  | .erasingBlock => 3
  | .erasingFull => 4
  | .writingPage => 5
  | .writingSector => 6
  | .writingBlock => 7
  | .readingPage => 8
  | .readingSector => 9
  | .readingBlock => 10

/-- `RSP[16]`: 0 = `Ok`, 1 = `Fail` (R50). -/
def Result.code : Result → BitVec 1
  | .ok => 0
  | .fail => 1

/-- The response word `RSP[16:0]` (R50). -/
def Response.word (r : Response) : BitVec 17 := r.result.code ++ r.crc

/-- The address a leaf request names. -/
def LeafReq.addr : LeafReq → Nat
  | .erase a => a
  | .write a _ => a
  | .read a => a

/-- `leaf_op` (R52); 0 is never issued. -/
def LeafReq.op : LeafReq → BitVec 2
  | .erase _ => 1
  | .write _ _ => 2
  | .read _ => 3

/-- The leaf request word `LREQ[33:0] = {leaf_op, leaf_addr}` (R52). -/
def LeafReq.word (q : LeafReq) : BitVec 34 := q.op ++ BitVec.ofNat 32 q.addr

/-! ### The textual form (R60) -/

/-- One hexadecimal digit. -/
def hexDigit (n : Nat) : Char := if n < 10 then Char.ofNat (48 + n) else Char.ofNat (55 + n)

/-- `n` as exactly `k` hexadecimal digits, most significant first. -/
def hexDigits : Nat → Nat → List Char
  | 0, _ => []
  | k + 1, n => hexDigits k (n / 16) ++ [hexDigit (n % 16)]

/-- A command word "written as 9 hexadecimal digits" (R60). -/
def cmdWordText (w : CmdWord) : String := String.ofList ('0' :: 'x' :: hexDigits 9 w.toNat)

/-- Whether a command has an address operand; the others ignore the field (R46, R47, R104). -/
def Instr.usesAddr (i : Instr) : Bool := decide (i.opcode ∉ [0x0, 0x4, 0xC, 0xD, 0xE, 0xF])

/-- A command without its write data in the syntax of R60: the mnemonic, and the address where there is one. -/
def Instr.text (i : Instr) : String :=
  if i.usesAddr then i.mnemonic ++ String.ofList (' ' :: '0' :: 'x' :: hexDigits 8 i.addrField.toNat) else i.mnemonic

end Sys2Proof
end

