-- ==== Sys2Proof/Machine/State.lean ====
section
/-! DEFINITION. The state of the SFH core and of the world at its channels, the reasons a step can stop, and the
state after reset. -/

namespace Sys2Proof.Machine

open Sys2Proof

/-- The flash array of the reference backend: a total map from naturals to bytes (R41), held as the bytes that differ
from `fill`, what every other address reads as. `Memory.wf` (Machine/Memory.lean) is its one canonical form. -/
structure Memory where
  fill : Byte
  cells : List Host.Cell
  deriving DecidableEq, Repr

/-- Everything the spec gives the machine. Each group names its rules; INVENTORY.md lists every field. -/
structure State where
  /-- START_ADDRESS, END_ADDRESS, PROPAGATE_SUBFAIL, CRC_SWAP: constants (R3, R14) -/
  params : Params
  /-- STATUS (R11), any 4-bit value (R51, U12) -/
  status : BitVec 4
  /-- CHECK_MODE (R13) -/
  checkMode : Bool
  /-- PBUF (R15) -/
  pbuf : Page
  /-- CRC_HI (R16) -/
  crcHi : Byte
  /-- CRC_LO (R16) -/
  crcLo : Byte
  /-- AGG, the sector-level bit (R17) -/
  agg : Result
  /-- AGG2, the block-level bit of AGG (R17, R87) -/
  agg2 : Result
  /-- CUR_OP (R19); BUSY is 1 exactly while it is not none -/
  curOp : Option Opcode
  /-- BASE (R19) -/
  base : Addr
  /-- IDX_J (R19) -/
  idxJ : BitVec 4
  /-- IDX_I (R19) -/
  idxI : BitVec 4
  /-- IDX_K (R19) -/
  idxK : BitVec 24
  /-- the leaf request on LREQ that LRSP has not answered (R35, R57, R136) -/
  pending : Option LeafReq
  /-- CMD transfers the host offers, oldest first (R57) -/
  cmd : List CmdWord
  /-- WD beats the host offers, oldest first (R58) -/
  wd : List Page
  /-- RD beats of the last command, newest first (R58) -/
  rd : List RdBeat
  /-- the RSP transfer of the last command (R50), none while a command is in progress -/
  rsp : Option Response
  /-- the trace of the last command, newest event first (R7) -/
  log : List Event
  /-- the input `rst` (R59, R122) -/
  rst : Bool
  /-- which backend answers (R33, R41) -/
  backend : BackendKind
  /-- how many more leaf requests it answers; none: every one (R9, R126) -/
  answersLeft : Option Nat
  /-- the array of the reference backend (R41) -/
  flash : Memory
  /-- the model's own counter: free values drawn so far (log 7) -/
  draws : Nat
  deriving DecidableEq, Repr

/-- Why a step stops with a fault. -/
inductive Fault where
  /-- Raised by `step` in the state of R136: a leaf request is outstanding and the backend never answers it, so "the
  sequencer has no step" (U10) until `rst`. Safe: the hardware waits for ever in the same state. -/
  | backendSilent
  deriving DecidableEq, Repr

/-- Why a command is refused. -/
inductive Refusal where
  /-- Raised by an arm of `exec` whose instruction has no meaning; no arm is left so. Safe. -/
  | notModelled (mnemonic : String)
  /-- Raised by every command where `START_ADDRESS > END_ADDRESS`: "A model refuses any other configuration" (R4, U13).
  Safe. -/
  | illFormedParams
  /-- Raised by WRITE_SECTOR and WRITE_BLOCK on a buffer of another length, which "cannot be expressed" (R48, U17); no
  decoded command has one. Safe. -/
  | wrongDataLength
  deriving DecidableEq, Repr

/-- The machine right after reset (R23, R122): STATUS Free, CHECK_MODE 0, no command in progress. The spec leaves the
working registers unspecified, and the configuration, the flash contents and the backend to the integrator: the values
here are those of log 2, 3, 4, 5, 7, 9, 10, 15, 16. -/
def State.reset : State where
  params := Params.example
  status := 0
  checkMode := false
  pbuf := 0
  crcHi := 0
  crcLo := 0
  agg := .ok
  agg2 := .ok
  curOp := none
  base := 0
  idxJ := 0
  idxI := 0
  idxK := 0
  pending := none
  cmd := []
  wd := []
  rd := []
  rsp := none
  log := []
  rst := false
  backend := .reference
  answersLeft := none
  flash := { fill := 0xFF, cells := [] }
  draws := 0

end Sys2Proof.Machine
end

