-- ==== Sys2Proof/Machine/Memory.lean ====
section
/-! DEFINITION. The named operations of the flash array: reading a byte, reading a run of bytes, and rewriting a run
of bytes. Each walks the sorted list of cells once. -/

namespace Sys2Proof.Machine

open Sys2Proof

/-- The canonical form: addresses strictly rising, and no cell equal to what an unlisted address reads as. -/
abbrev Memory.wf (m : Memory) : Prop :=
  m.cells.Pairwise (fun c d => c.1 < d.1) ∧ ∀ c ∈ m.cells, c.2 ≠ m.fill

/-- `FLASH[x]` (R41); an unlisted address reads as `fill` (log 4). -/
def Memory.read (m : Memory) (x : Nat) : Byte := (m.cells.lookup x).getD m.fill

/-- What address `x` reads as in cells that all lie at or above `x`. -/
def headByte (fill : Byte) (x : Nat) : List Host.Cell → Byte
  | [] => fill
  | c :: _ => if c.1 = x then c.2 else fill

/-- The cells above `x`, of cells that all lie at or above `x`. -/
def dropCell (x : Nat) : List Host.Cell → List Host.Cell
  | [] => []
  | c :: cs => if c.1 = x then cs else c :: cs

/-- Puts a byte in front of the cells above it, keeping the canonical form. -/
def putCell (fill : Byte) (x : Nat) (v : Byte) (cs : List Host.Cell) : List Host.Cell :=
  if v = fill then cs else (x, v) :: cs

/-- Rewrites the bytes at `a + k, …, a + k + n - 1` of cells that all lie at or above `a + k`: the byte at `a + j`
becomes `g j` of what it was. -/
def rewriteFrom (fill : Byte) (g : Nat → Byte → Byte) (a : Nat) : Nat → Nat → List Host.Cell → List Host.Cell
  | 0, _, cs => cs
  | n + 1, k, cs =>
    putCell fill (a + k) (g k (headByte fill (a + k) cs)) (rewriteFrom fill g a n (k + 1) (dropCell (a + k) cs))

/-- `rewriteFrom` at the place of `a` among the cells. -/
def rewriteCells (fill : Byte) (g : Nat → Byte → Byte) (a n : Nat) : List Host.Cell → List Host.Cell
  | [] => rewriteFrom fill g a n 0 []
  | c :: cs => if c.1 < a then c :: rewriteCells fill g a n cs else rewriteFrom fill g a n 0 (c :: cs)

/-- `for k in 0 .. n-1: FLASH[a + k] <- g k FLASH[a + k]`, the shape of the operations of R41. -/
def Memory.rewrite (m : Memory) (a n : Nat) (g : Nat → Byte → Byte) : Memory :=
  { m with cells := rewriteCells m.fill g a n m.cells }

/-- The `n` bytes from `x` on, of cells that all lie at or above `x`. -/
def bytesFrom (fill : Byte) : Nat → Nat → List Host.Cell → List Byte
  | 0, _, _ => []
  | n + 1, x, cs => headByte fill x cs :: bytesFrom fill n (x + 1) (dropCell x cs)

/-- `d[k] = FLASH[a + k] for k in 0 .. 255` (R41), as one beat. -/
def Memory.page (m : Memory) (a : Nat) : Page :=
  packPage (bytesFrom m.fill pageSize a (m.cells.dropWhile (fun c => decide (c.1 < a))))

/-- `LeafErase(a)` of the reference backend (R41). -/
def Memory.erasePage (m : Memory) (a : Nat) : Memory := m.rewrite a pageSize (fun _ _ => 0xFF)

/-- `LeafWrite(a, d)` of the reference backend (R41): "writing can only clear bits". -/
def Memory.writePage (m : Memory) (a : Nat) (d : Page) : Memory := m.rewrite a pageSize (fun k v => v &&& pageByte d k)

/-- The page at `a` after a leaf request was cut off by reset: any bytes at all (R124, U8). -/
def Memory.scramblePage (m : Memory) (a : Nat) (d : Page) : Memory := m.rewrite a pageSize (fun k _ => pageByte d k)

end Sys2Proof.Machine
end

