-- ==== Sys2Proof/Machine/Operands.lean ====
section
/-! DEFINITION. Operand forms: address validation, the address hierarchy decoder (the stride generator), the chunks of
a data buffer, and the tags of the read beats. -/

namespace Sys2Proof.Machine

open Sys2Proof

/-- `valid(a)` (R63): both ends included; a natural of 2^32 or more is never valid. -/
def valid (p : Params) (a : Nat) : Bool := decide (p.startAddress.toNat ≤ a) && decide (a ≤ p.endAddress.toNat)

/-- The start of sub-operation `i` at the page stride: `addr + 256*i` (R67), on naturals (R66). -/
def pageStride (a i : Nat) : Nat := a + pageSize * i

/-- The start of sub-operation `j` at the sector stride: `addr + 4096*j` (R67), on naturals (R66). -/
def sectorStride (a j : Nat) : Nat := a + sectorSize * j

/-- `N_FULL := (END_ADDRESS - START_ADDRESS) / 256 + 1` (R83). -/
def nFull (p : Params) : Nat := (p.endAddress.toNat - p.startAddress.toNat) / pageSize + 1

/-- Page chunk `i` of a buffer (R48): beat `i`. -/
def pageChunk (d : List Page) (i : Nat) : Page := d.getD i 0

/-- Sector chunk `j` of a block buffer, `wdata[4096*j .. 4096*j + 4095]` (R48): 16 beats. -/
def sectorChunk (d : List Page) (j : Nat) : List Page := (d.drop (pagesPerSector * j)).take pagesPerSector

/-- `rd_index = 16*j + i` (R58). -/
def rdIndex (j i : Nat) : BitVec 8 := BitVec.ofNat 8 (pagesPerSector * j + i)

/-- The bit-field view of R68: `addr[31:16]`, the block number. -/
def blockField (a : Addr) : Nat := (a.extractLsb' 16 16).toNat

/-- R68: `addr[15:12]`, the sector within the block. -/
def sectorField (a : Addr) : Nat := (a.extractLsb' 12 4).toNat

/-- R68: `addr[11:8]`, the page within the sector. -/
def pageField (a : Addr) : Nat := (a.extractLsb' 8 4).toNat

/-- R68: `addr[7:0]`, the byte within the page. -/
def byteField (a : Addr) : Nat := (a.extractLsb' 0 8).toNat

end Sys2Proof.Machine
end

