-- ==== Sys2Proof/Machine/Flags.lean ====
section
/-! DEFINITION. The status discipline and failure aggregation: writes of STATUS and CHECK_MODE, the AGG bits, and the
level outputs. The core has no arithmetic flags (R76). -/

namespace Sys2Proof.Machine

open Sys2Proof

/-- `first_fail(x, y)` of 00_scope.md section 5. -/
def firstFail (x y : Result) : Result :=
  match x, y with
  | .ok, .ok => .ok
  | .ok, .fail => .fail
  | .fail, .ok => .fail
  | .fail, .fail => .fail

/-- Which AGG bit and which index register a loop uses: `sector` is AGG with IDX_I, `block` is AGG2 with IDX_J, `full`
is ERASE_FULL's loop, which has IDX_K and keeps no AGG (R17, R19, R83). -/
inductive Level where
  | sector
  | block
  | full
  deriving DecidableEq, Repr

/-- `STATUS <- v`: writes the register and appends `StatusWrite(v)` to the trace (00_scope.md section 5). -/
def setStatus (v : Status) (s : State) : State := { s with status := v.code, log := .statusWrite v :: s.log }

/-- `CHECK_MODE <- b`: writes the register and appends `CheckModeWrite(b)` to the trace. -/
def setCheckMode (b : Bool) (s : State) : State := { s with checkMode := b, log := .checkModeWrite b :: s.log }

/-- `AGG <- Ok` (R70). -/
def clearAgg (l : Level) (s : State) : State :=
  match l with
  | .sector => { s with agg := .ok }
  | .block => { s with agg2 := .ok }
  | .full => s

/-- `AGG <- first_fail(AGG, r)` (R70). -/
def foldAgg (l : Level) (r : Result) (s : State) : State :=
  match l with
  | .sector => { s with agg := firstFail s.agg r }
  | .block => { s with agg2 := firstFail s.agg2 r }
  | .full => s

/-- `AGG`, read back. ERASE_FULL has none and "return Ok" (R83). -/
def aggOf (l : Level) (s : State) : Result :=
  match l with
  | .sector => s.agg
  | .block => s.agg2
  | .full => .ok

/-- What a compound procedure returns: `if PROPAGATE_SUBFAIL then AGG else Ok` (R70). -/
def report (l : Level) (s : State) : Result := if s.params.propagateSubfail then aggOf l s else .ok

/-- The loop position of R19. -/
def setIdx (l : Level) (n : Nat) (s : State) : State :=
  match l with
  | .sector => { s with idxI := BitVec.ofNat 4 n }
  | .block => { s with idxJ := BitVec.ofNat 4 n }
  | .full => { s with idxK := BitVec.ofNat 24 n }

/-- `BUSY` (R19): 1 exactly while `CUR_OP` is not none. -/
def State.busy (s : State) : Bool := s.curOp.isSome

/-- `status_o[3:0]` (R20). -/
def State.statusO (s : State) : BitVec 4 := s.status

/-- `check_mode_o` (R20). -/
def State.checkModeO (s : State) : Bool := s.checkMode

/-- `busy_o` (R20). -/
def State.busyO (s : State) : Bool := s.busy

/-- The trace of the last command, oldest event first (R7). -/
def State.trace (s : State) : List Event := s.log.reverse

end Sys2Proof.Machine
end

