-- ==== Sys2Proof/Machine/Ops.lean ====
section
/-! DEFINITION. The shared operations of every command: leaf requests to the backend, unspecified data, the loop over
sub-operations, the compound procedure, accepting and answering a command, reset, and taking the next command from the
channels. The core has no trap entry and no return (R113, R114): its one error is the result `Fail`. -/

namespace Sys2Proof.Machine

open Sys2Proof

/-- How far a procedure got: to its end, with a value, or to a leaf request that the backend does not answer (R9,
R136). -/
inductive Flow (α : Type) where
  | done (v : α) (s : State)
  | waiting (s : State)

/-- Goes on with `k` after a procedure that came to its end. After `waiting` nothing more happens in the command. -/
def andThen {α β : Type} (f : Flow α) (k : α → State → Flow β) : Flow β :=
  match f with
  | .done v s => k v s
  | .waiting s => .waiting s

/-- What a procedure returns: its result (R78), the pages of a read procedure, and a checksum where there is one. -/
structure Ret where
  result : Result
  pages : List Page := []
  crc : Option (BitVec 16) := none
  deriving DecidableEq, Repr

/-! ### Leaf requests -/

/-- One exchange on LREQ and LRSP (R35, R57): the request `q` is issued. If the backend answers, the state is the same
but for the count of its answers; otherwise the sequencer waits with `q` outstanding. -/
def leafExchange (q : LeafReq) (s : State) : Flow Unit :=
  match s.answersLeft with
  | none => .done () s
  | some 0 => .waiting { s with pending := some q }
  | some (n + 1) => .done () { s with answersLeft := some n }

/-- `PBUF <- d` (R15, R85); no trace event (00_scope.md section 5). -/
def loadPbuf (d : Page) (s : State) : State := { s with pbuf := d }

/-- What an answered leaf erase leaves: `Memory.erasePage` on the reference backend (R41); of an oracle's array nothing
is said (log 13). -/
def erased (a : Nat) (s : State) : State :=
  { s with
    log := .leafErase a :: s.log
    flash := match s.backend with
      | .reference => s.flash.erasePage a
      | .oracle => s.flash }

/-- What an answered leaf write leaves: `Memory.writePage` on the reference backend (R41). -/
def written (a : Nat) (d : Page) (s : State) : State :=
  { s with
    log := .leafWrite a d :: s.log
    flash := match s.backend with
      | .reference => s.flash.writePage a d
      | .oracle => s.flash }

/-- The backend's answer to a leaf read (R33): the array's page on the reference backend (R41), any page at all from an
oracle. -/
def readAnswer (a : Nat) (s : State) : Page :=
  match s.backend with
  | .reference => s.flash.page a
  | .oracle => Config.oraclePage s.draws

/-- What an answered leaf read leaves: `PBUF` holds the answer (R15, R89), and the flash is as it was. -/
def readInto (a : Nat) (s : State) : State :=
  { s with
    log := .leafRead a (readAnswer a s) :: s.log
    pbuf := readAnswer a s
    draws := match s.backend with
      | .reference => s.draws
      | .oracle => s.draws + 1 }

/-- `MemErase(a, 256)` (R34). -/
def leafErase (a : Nat) (s : State) : Flow Unit :=
  andThen (leafExchange (.erase a) s) (fun _ t => .done () (erased a t))

/-- `MemWrite(a, 256, d)` (R32). -/
def leafWrite (a : Nat) (d : Page) (s : State) : Flow Unit :=
  andThen (leafExchange (.write a d) s) (fun _ t => .done () (written a d t))

/-- `PBUF <- MemRead(a, 256)` (R33, R89). -/
def leafRead (a : Nat) (s : State) : Flow Unit :=
  andThen (leafExchange (.read a) s) (fun _ t => .done () (readInto a t))

/-! ### Unspecified data -/

/-- `unspecified(256*n)`: `n` free pages, drawn at draw `c` and after. -/
def freePages (n c : Nat) : List Page := (List.range n).map (fun i => Config.freePage (c + i))

/-- The failing return of a procedure: Fail, with `n` unspecified pages (R89 to R91); `n = 0` for erases and writes.
Nothing else changes (R64, R113). -/
def failWith (n : Nat) (s : State) : Flow Ret :=
  .done { result := .fail, pages := freePages n s.draws } { s with draws := s.draws + n }

/-- The RD transfers of a page procedure's result: one beat for a page that was read, none for one that failed (R58). -/
def emitBeats (index : BitVec 8) (r : Ret) (s : State) : State :=
  match r.result with
  | .ok => { s with rd := r.pages.map (RdBeat.mk index) ++ s.rd }
  | .fail => s

/-! ### Compound procedures -/

/-- Runs sub-operations `i, i + 1, …` of a loop with `n` still to go, ascending and without early exit (R71, R74, R77),
folds each result into AGG, and appends the pages of a read to `out`. -/
def subOps (l : Level) (body : Nat → State → Flow Ret) : Nat → Nat → List Page → State → Flow (List Page)
  | 0, _, out, s => .done out s
  | n + 1, i, out, s =>
    andThen (body i (setIdx l i s)) (fun r t => subOps l body n (i + 1) (out ++ r.pages) (foldAgg l r.result t))

/-- The common shape of the sector and block procedures (R69, R70, R81, R82, R86, R87, R90, R91): validate the start
address, write STATUS, clear AGG, run the 16 sub-operations, write Free, report. `lost` is how many pages a read that
fails its own validation leaves unspecified. -/
def compound (l : Level) (entry : Status) (lost a : Nat) (body : Nat → State → Flow Ret) (s : State) : Flow Ret :=
  if valid s.params a then
    andThen (subOps l body 16 0 [] (clearAgg l (setStatus entry s)))
      (fun ps t => .done { result := report l t, pages := ps } (setStatus .free t))
  else failWith lost s

/-! ### Accepting and answering a command -/

/-- The CMD transfer: `CUR_OP` is loaded, so `BUSY` rises (R19, R57); the records of the last command are cleared. -/
def accept (op : Opcode) (s : State) : State := { s with curOp := some op, rsp := none, rd := [], log := [] }

/-- The RSP transfer (R50): `BUSY` falls; a `crc` that no checksum gave is unspecified (U2). -/
def respond (r : Ret) (s : State) : State :=
  { s with
    curOp := none
    rsp := some { result := r.result, crc := r.crc.getD (Config.freeCrc s.draws), rdata := r.pages }
    draws := s.draws + 1 }

/-- The state in which a command ends: answered, or, where the backend falls silent, still in progress (R136). -/
def finish (f : Flow Ret) : State :=
  match f with
  | .done r t => respond r t
  | .waiting t => t

/-- Dispatch (R75): accepts a command, runs its procedure to its end and answers. An ill-formed configuration has no
meaning (R4). -/
def runCommand (op : Opcode) (proc : State → Flow Ret) (s : State) : Host.Outcome State Fault Refusal :=
  if s.params.wf then .next (finish (proc (accept op s))) else .refused .illFormedParams

/-- `BASE` holds the address operand of a command in progress (R19). It is loaded once the address has passed
validation, so that a command that fails there changes no register (R113; log 11). -/
def loadBase (addr : Addr) (s : State) : State := if valid s.params addr.toNat then { s with base := addr } else s

/-- A command with an address operand. -/
def runAddressed (op : Opcode) (addr : Addr) (proc : Nat → State → Flow Ret) (s : State) :
    Host.Outcome State Fault Refusal :=
  runCommand op (fun s => proc addr.toNat (loadBase addr s)) s

/-! ### Reset -/

/-- What becomes of the page of a leaf request outstanding when reset strikes: any bytes (R124, U8). A read changes
nothing, and of an oracle's array nothing is said. -/
def abandonedFlash (s : State) : Memory :=
  match s.backend, s.pending with
  | .reference, some (.erase a) => s.flash.scramblePage a (Config.freePage s.draws)
  | .reference, some (.write a _) => s.flash.scramblePage a (Config.freePage s.draws)
  | .reference, some (.read _) => s.flash
  | .reference, none => s.flash
  | .oracle, _ => s.flash

/-- `rst` asserted and released (R122 to R125): every register takes its reset value and a command in progress is
abandoned without a response; the configuration, the flash, the backend and what the host still offers stay. -/
def applyReset (s : State) : State :=
  { State.reset with
    params := s.params
    cmd := s.cmd
    wd := s.wd
    backend := s.backend
    answersLeft := s.answersLeft
    flash := abandonedFlash s
    draws := s.draws + 1 }

/-! ### Taking the next command -/

/-- The next command on the channels and the state once its transfers are taken, or none where the host does not offer
a whole command (R57, R58; log 8, log 18). -/
def fetch (s : State) : Option (Instr × State) :=
  match s.cmd with
  | [] => none
  | w :: rest =>
    match decode w s.wd with
    | .error .writeDataMissing => none
    | .ok (i, wd) => some (i, { s with cmd := rest, wd := wd })

/-- The write data of zeros that follows a word on WD (log 20). -/
def zeroBeats (w : CmdWord) : List Page := List.replicate (beatCount (cmdOp w)) 0

end Sys2Proof.Machine
end

