-- ==== Sys2Proof/Machine/Read.lean ====
section
/-! DEFINITION. The read commands (43_read.md). -/

namespace Sys2Proof.Machine

open Sys2Proof

/-- `proc get_page(a)` (R89): the page read, or Fail with an unspecified page. -/
def getPage (a : Nat) (s : State) : Flow Ret :=
  if valid s.params a then
    andThen (leafRead a (setStatus .readingPage s))
      (fun _ t => .done { result := .ok, pages := [t.pbuf] } (setStatus .free t))
  else failWith 1 s

/-- `get_page` run for a read command, which sends the page on RD under `rd_index = 16*j + i`; no beat is emitted for a
page that failed (R58). -/
def getPageBeat (j i a : Nat) (s : State) : Flow Ret :=
  andThen (getPage a s) (fun r t => .done r (emitBeats (rdIndex j i) r t))

/-- `proc get_sector(a)` (R90), as sector `j` of its command. -/
def getSector (j a : Nat) (s : State) : Flow Ret :=
  compound .sector .readingSector pagesPerSector a (fun i => getPageBeat j i (pageStride a i)) s

/-- `proc get_block(a)` (R91). -/
def getBlock (a : Nat) (s : State) : Flow Ret :=
  compound .block .readingBlock pagesPerBlock a (fun j => getSector j (sectorStride a j)) s

/-- GET_PAGE (R89). -/
def execGetPage (addr : Addr) (s : State) : Host.Outcome State Fault Refusal :=
  runAddressed 0x8 addr (getPageBeat 0 0) s

/-- GET_SECTOR (R90). -/
def execGetSector (addr : Addr) (s : State) : Host.Outcome State Fault Refusal := runAddressed 0x9 addr (getSector 0) s

/-- GET_BLOCK (R91). -/
def execGetBlock (addr : Addr) (s : State) : Host.Outcome State Fault Refusal := runAddressed 0xA addr getBlock s

end Sys2Proof.Machine
end

