-- ==== Sys2Proof/Machine/Checksum.lean ====
section
/-! DEFINITION. The CRC-16 engine and the checksum command (44_checksum_crc16.md). The tables, the fold order and the
polynomial stand in the spec as general knowledge (log 14). -/

namespace Sys2Proof.Machine

open Sys2Proof

/-- `TABLE_HI` (R96): row `i / 16`, column `i mod 16`. -/
def tableHi : List (List Byte) :=
  [[0x00, 0xC1, 0x81, 0x40, 0x01, 0xC0, 0x80, 0x41, 0x01, 0xC0, 0x80, 0x41, 0x00, 0xC1, 0x81, 0x40]] ++
  [[0x01, 0xC0, 0x80, 0x41, 0x00, 0xC1, 0x81, 0x40, 0x00, 0xC1, 0x81, 0x40, 0x01, 0xC0, 0x80, 0x41]] ++
  [[0x01, 0xC0, 0x80, 0x41, 0x00, 0xC1, 0x81, 0x40, 0x00, 0xC1, 0x81, 0x40, 0x01, 0xC0, 0x80, 0x41]] ++
  [[0x00, 0xC1, 0x81, 0x40, 0x01, 0xC0, 0x80, 0x41, 0x01, 0xC0, 0x80, 0x41, 0x00, 0xC1, 0x81, 0x40]] ++
  [[0x01, 0xC0, 0x80, 0x41, 0x00, 0xC1, 0x81, 0x40, 0x00, 0xC1, 0x81, 0x40, 0x01, 0xC0, 0x80, 0x41]] ++
  [[0x00, 0xC1, 0x81, 0x40, 0x01, 0xC0, 0x80, 0x41, 0x01, 0xC0, 0x80, 0x41, 0x00, 0xC1, 0x81, 0x40]] ++
  [[0x00, 0xC1, 0x81, 0x40, 0x01, 0xC0, 0x80, 0x41, 0x01, 0xC0, 0x80, 0x41, 0x00, 0xC1, 0x81, 0x40]] ++
  [[0x01, 0xC0, 0x80, 0x41, 0x00, 0xC1, 0x81, 0x40, 0x00, 0xC1, 0x81, 0x40, 0x01, 0xC0, 0x80, 0x41]] ++
  [[0x01, 0xC0, 0x80, 0x41, 0x00, 0xC1, 0x81, 0x40, 0x00, 0xC1, 0x81, 0x40, 0x01, 0xC0, 0x80, 0x41]] ++
  [[0x00, 0xC1, 0x81, 0x40, 0x01, 0xC0, 0x80, 0x41, 0x01, 0xC0, 0x80, 0x41, 0x00, 0xC1, 0x81, 0x40]] ++
  [[0x00, 0xC1, 0x81, 0x40, 0x01, 0xC0, 0x80, 0x41, 0x01, 0xC0, 0x80, 0x41, 0x00, 0xC1, 0x81, 0x40]] ++
  [[0x01, 0xC0, 0x80, 0x41, 0x00, 0xC1, 0x81, 0x40, 0x00, 0xC1, 0x81, 0x40, 0x01, 0xC0, 0x80, 0x41]] ++
  [[0x00, 0xC1, 0x81, 0x40, 0x01, 0xC0, 0x80, 0x41, 0x01, 0xC0, 0x80, 0x41, 0x00, 0xC1, 0x81, 0x40]] ++
  [[0x01, 0xC0, 0x80, 0x41, 0x00, 0xC1, 0x81, 0x40, 0x00, 0xC1, 0x81, 0x40, 0x01, 0xC0, 0x80, 0x41]] ++
  [[0x01, 0xC0, 0x80, 0x41, 0x00, 0xC1, 0x81, 0x40, 0x00, 0xC1, 0x81, 0x40, 0x01, 0xC0, 0x80, 0x41]] ++
  [[0x00, 0xC1, 0x81, 0x40, 0x01, 0xC0, 0x80, 0x41, 0x01, 0xC0, 0x80, 0x41, 0x00, 0xC1, 0x81, 0x40]]

/-- `TABLE_LO` (R97): row `i / 16`, column `i mod 16`. -/
def tableLo : List (List Byte) :=
  [[0x00, 0xC0, 0xC1, 0x01, 0xC3, 0x03, 0x02, 0xC2, 0xC6, 0x06, 0x07, 0xC7, 0x05, 0xC5, 0xC4, 0x04]] ++
  [[0xCC, 0x0C, 0x0D, 0xCD, 0x0F, 0xCF, 0xCE, 0x0E, 0x0A, 0xCA, 0xCB, 0x0B, 0xC9, 0x09, 0x08, 0xC8]] ++
  [[0xD8, 0x18, 0x19, 0xD9, 0x1B, 0xDB, 0xDA, 0x1A, 0x1E, 0xDE, 0xDF, 0x1F, 0xDD, 0x1D, 0x1C, 0xDC]] ++
  [[0x14, 0xD4, 0xD5, 0x15, 0xD7, 0x17, 0x16, 0xD6, 0xD2, 0x12, 0x13, 0xD3, 0x11, 0xD1, 0xD0, 0x10]] ++
  [[0xF0, 0x30, 0x31, 0xF1, 0x33, 0xF3, 0xF2, 0x32, 0x36, 0xF6, 0xF7, 0x37, 0xF5, 0x35, 0x34, 0xF4]] ++
  [[0x3C, 0xFC, 0xFD, 0x3D, 0xFF, 0x3F, 0x3E, 0xFE, 0xFA, 0x3A, 0x3B, 0xFB, 0x39, 0xF9, 0xF8, 0x38]] ++
  [[0x28, 0xE8, 0xE9, 0x29, 0xEB, 0x2B, 0x2A, 0xEA, 0xEE, 0x2E, 0x2F, 0xEF, 0x2D, 0xED, 0xEC, 0x2C]] ++
  [[0xE4, 0x24, 0x25, 0xE5, 0x27, 0xE7, 0xE6, 0x26, 0x22, 0xE2, 0xE3, 0x23, 0xE1, 0x21, 0x20, 0xE0]] ++
  [[0xA0, 0x60, 0x61, 0xA1, 0x63, 0xA3, 0xA2, 0x62, 0x66, 0xA6, 0xA7, 0x67, 0xA5, 0x65, 0x64, 0xA4]] ++
  [[0x6C, 0xAC, 0xAD, 0x6D, 0xAF, 0x6F, 0x6E, 0xAE, 0xAA, 0x6A, 0x6B, 0xAB, 0x69, 0xA9, 0xA8, 0x68]] ++
  [[0x78, 0xB8, 0xB9, 0x79, 0xBB, 0x7B, 0x7A, 0xBA, 0xBE, 0x7E, 0x7F, 0xBF, 0x7D, 0xBD, 0xBC, 0x7C]] ++
  [[0xB4, 0x74, 0x75, 0xB5, 0x77, 0xB7, 0xB6, 0x76, 0x72, 0xB2, 0xB3, 0x73, 0xB1, 0x71, 0x70, 0xB0]] ++
  [[0x50, 0x90, 0x91, 0x51, 0x93, 0x53, 0x52, 0x92, 0x96, 0x56, 0x57, 0x97, 0x55, 0x95, 0x94, 0x54]] ++
  [[0x9C, 0x5C, 0x5D, 0x9D, 0x5F, 0x9F, 0x9E, 0x5E, 0x5A, 0x9A, 0x9B, 0x5B, 0x99, 0x59, 0x58, 0x98]] ++
  [[0x88, 0x48, 0x49, 0x89, 0x4B, 0x8B, 0x8A, 0x4A, 0x4E, 0x8E, 0x8F, 0x4F, 0x8D, 0x4D, 0x4C, 0x8C]] ++
  [[0x44, 0x84, 0x85, 0x45, 0x87, 0x47, 0x46, 0x86, 0x82, 0x42, 0x43, 0x83, 0x41, 0x81, 0x80, 0x40]]

/-- Entry `i` of a table of 16 rows of 16. -/
def tableEntry (t : List (List Byte)) (i : Byte) : Byte := (t.getD (i.toNat / 16) []).getD (i.toNat % 16) 0

/-- One input byte of the fold (R94): the accumulators are the pair (CRC_HI, CRC_LO). -/
def crcStep (c : Byte × Byte) (d : Byte) : Byte × Byte :=
  (tableEntry tableLo (c.2 ^^^ d), c.1 ^^^ tableEntry tableHi (c.2 ^^^ d))

/-- The accumulators after a byte sequence, "seeded at `0xFF/0xFF`" (R94). -/
def crcFold (ds : List Byte) : Byte × Byte := ds.foldl crcStep (0xFF, 0xFF)

/-- The 16-bit result: `high << 8 | low`, or the two bytes exchanged where CRC_SWAP is set (R94, R99). -/
def crcAssemble (swap : Bool) (c : Byte × Byte) : BitVec 16 := if swap then c.2 ++ c.1 else c.1 ++ c.2

/-- `crc16` of a byte sequence of any length (R94). -/
def crc16 (swap : Bool) (ds : List Byte) : BitVec 16 := crcAssemble swap (crcFold ds)

/-- `c <- (c >> 1) ^ (0xA001 if c[0] == 1 else 0)` (R95, R98). -/
def crcShift (c : BitVec 16) : BitVec 16 := (c >>> 1) ^^^ (if c.getLsbD 0 then 0xA001 else 0)

/-- Eight repetitions of `crcShift`. -/
def crcShift8 (c : BitVec 16) : BitVec 16 :=
  crcShift (crcShift (crcShift (crcShift (crcShift (crcShift (crcShift (crcShift c)))))))

/-- `T16(i)` (R95). -/
def t16 (i : Byte) : BitVec 16 := crcShift8 (i.setWidth 16)

/-- The bit-serial definition of the checksum (R98), the other form the engine may be built in (R100). -/
def crcBitSerial (ds : List Byte) : BitVec 16 := ds.foldl (fun c b => crcShift8 (c ^^^ b.setWidth 16)) 0xFFFF

/-- `CRC_HI` and `CRC_LO` after the fold over `PBUF` (R15, R16). -/
def foldPbuf (s : State) : State :=
  { s with crcHi := (crcFold (pageBytes s.pbuf)).1, crcLo := (crcFold (pageBytes s.pbuf)).2 }

/-- `proc get_page_crc16(a)` (R93): `get_page` without an RD beat, then the fold. No page is returned to the host. -/
def getPageCrc16 (a : Nat) (s : State) : Flow Ret :=
  andThen (getPage a s) (fun r t =>
    match r.result with
    | .fail => .done { result := .fail } t
    | .ok =>
      .done { result := .ok, crc := some (crcAssemble t.params.crcSwap ((foldPbuf t).crcHi, (foldPbuf t).crcLo)) }
        (foldPbuf t))

/-- GET_PAGE_CRC16 (R93). -/
def execGetPageCrc16 (addr : Addr) (s : State) : Host.Outcome State Fault Refusal := runAddressed 0xB addr getPageCrc16 s

end Sys2Proof.Machine
end

