-- ==== Sys2Proof/Machine/Control.lean ====
section
/-! DEFINITION. The check-mode commands and the reserved opcodes (45_check_mode_control.md). -/

namespace Sys2Proof.Machine

open Sys2Proof

/-- `proc enable_check_mode()` and `proc disable_check_mode()` (R102, R103): the flag is written and nothing else. -/
def writeCheckMode (b : Bool) (s : State) : Flow Ret := .done { result := .ok } (setCheckMode b s)

/-- `proc reserved_op()` (R104): Fail (cause RESERVED_OP), "nothing read, nothing written". -/
def reservedOp (s : State) : Flow Ret := failWith 0 s

/-- ENABLE_CHECK_MODE (R102). -/
def execEnableCheckMode (_ignored : Addr) (s : State) : Host.Outcome State Fault Refusal :=
  runCommand 0xC (writeCheckMode true) s

/-- DISABLE_CHECK_MODE (R103). -/
def execDisableCheckMode (_ignored : Addr) (s : State) : Host.Outcome State Fault Refusal :=
  runCommand 0xD (writeCheckMode false) s

/-- Opcode 0x0 (R104). -/
def execReserved0 (_ignored : Addr) (s : State) : Host.Outcome State Fault Refusal := runCommand 0x0 reservedOp s

/-- Opcode 0xE (R104). -/
def execReservedE (_ignored : Addr) (s : State) : Host.Outcome State Fault Refusal := runCommand 0xE reservedOp s

/-- Opcode 0xF (R104). -/
def execReservedF (_ignored : Addr) (s : State) : Host.Outcome State Fault Refusal := runCommand 0xF reservedOp s

end Sys2Proof.Machine
end

