-- ==== Sys2Proof/Machine/Erase.lean ====
section
/-! DEFINITION. The erase commands (41_erase.md). -/

namespace Sys2Proof.Machine

open Sys2Proof

/-- `proc erase_page(a)` (R80). -/
def erasePage (a : Nat) (s : State) : Flow Ret :=
  if valid s.params a then
    andThen (leafErase a (setStatus .erasingPage s)) (fun _ t => .done { result := .ok } (setStatus .free t))
  else failWith 0 s

/-- `proc erase_sector(a)` (R81): 16 page erases, 256 apart. -/
def eraseSector (a : Nat) (s : State) : Flow Ret :=
  compound .sector .erasingSector 0 a (fun i => erasePage (pageStride a i)) s

/-- `proc erase_block(a)` (R82): 16 *page* erases, 4096 apart, never a sector erase. -/
def eraseBlock (a : Nat) (s : State) : Flow Ret :=
  compound .sector .erasingBlock 0 a (fun j => erasePage (sectorStride a j)) s

/-- `proc erase_full()` (R83): fails unless STATUS is Free (cause BUSY), else erases `N_FULL` pages from START_ADDRESS. -/
def eraseFull (s : State) : Flow Ret :=
  if s.status = Status.free.code then
    andThen
      (subOps .full (fun k => erasePage (pageStride s.params.startAddress.toNat k)) (nFull s.params) 0 []
        (setStatus .erasingFull s))
      (fun _ t => .done { result := .ok } (setStatus .free t))
  else failWith 0 s

/-- ERASE_PAGE (R80). -/
def execErasePage (addr : Addr) (s : State) : Host.Outcome State Fault Refusal := runAddressed 0x1 addr erasePage s

/-- ERASE_SECTOR (R81). -/
def execEraseSector (addr : Addr) (s : State) : Host.Outcome State Fault Refusal := runAddressed 0x2 addr eraseSector s

/-- ERASE_BLOCK (R82). -/
def execEraseBlock (addr : Addr) (s : State) : Host.Outcome State Fault Refusal := runAddressed 0x3 addr eraseBlock s

/-- ERASE_FULL (R83); the address field is ignored (R47). -/
def execEraseFull (_ignored : Addr) (s : State) : Host.Outcome State Fault Refusal := runCommand 0x4 eraseFull s

end Sys2Proof.Machine
end

