-- ==== Sys2Proof/Machine/Write.lean ====
section
/-! DEFINITION. The write commands (42_write.md). -/

namespace Sys2Proof.Machine

open Sys2Proof

/-- `proc write_page(a, d)` (R85). -/
def writePage (a : Nat) (d : Page) (s : State) : Flow Ret :=
  if valid s.params a then
    andThen (leafWrite a d (loadPbuf d (setStatus .writingPage s)))
      (fun _ t => .done { result := .ok } (setStatus .free t))
  else failWith 0 s

/-- `proc write_sector(a, d)` (R86): page chunk `i` at `a + 256*i`. -/
def writeSector (a : Nat) (d : List Page) (s : State) : Flow Ret :=
  compound .sector .writingSector 0 a (fun i => writePage (pageStride a i) (pageChunk d i)) s

/-- `proc write_block(a, d)` (R87): sector chunk `j` at `a + 4096*j`. -/
def writeBlock (a : Nat) (d : List Page) (s : State) : Flow Ret :=
  compound .block .writingBlock 0 a (fun j => writeSector (sectorStride a j) (sectorChunk d j)) s

/-- WRITE_PAGE (R85). -/
def execWritePage (addr : Addr) (d : Page) (s : State) : Host.Outcome State Fault Refusal :=
  runAddressed 0x5 addr (fun a => writePage a d) s

/-- WRITE_SECTOR (R86); only a buffer of 4096 bytes can be expressed (R48). -/
def execWriteSector (addr : Addr) (d : List Page) (s : State) : Host.Outcome State Fault Refusal :=
  if d.length = pagesPerSector then runAddressed 0x6 addr (fun a => writeSector a d) s
  else .refused .wrongDataLength

/-- WRITE_BLOCK (R87); only a buffer of 65536 bytes can be expressed (R48). -/
def execWriteBlock (addr : Addr) (d : List Page) (s : State) : Host.Outcome State Fault Refusal :=
  if d.length = pagesPerBlock then runAddressed 0x7 addr (fun a => writeBlock a d) s
  else .refused .wrongDataLength

end Sys2Proof.Machine
end

