-- ==== Sys2Proof/Machine/Dispatch.lean ====
section
/-! DEFINITION. Dispatch (R75): one arm per command. -/

namespace Sys2Proof.Machine

open Sys2Proof

def exec (i : Instr) (s : State) : Host.Outcome State Fault Refusal :=
  match i with
  | .erasePage addr => Sys2Proof.Machine.execErasePage addr s
  | .eraseSector addr => Sys2Proof.Machine.execEraseSector addr s
  | .eraseBlock addr => Sys2Proof.Machine.execEraseBlock addr s
  | .eraseFull ignored => Sys2Proof.Machine.execEraseFull ignored s
  | .writePage addr d => Sys2Proof.Machine.execWritePage addr d s
  | .writeSector addr d => Sys2Proof.Machine.execWriteSector addr d s
  | .writeBlock addr d => Sys2Proof.Machine.execWriteBlock addr d s
  | .getPage addr => Sys2Proof.Machine.execGetPage addr s
  | .getSector addr => Sys2Proof.Machine.execGetSector addr s
  | .getBlock addr => Sys2Proof.Machine.execGetBlock addr s
  | .getPageCrc16 addr => Sys2Proof.Machine.execGetPageCrc16 addr s
  | .enableCheckMode ignored => Sys2Proof.Machine.execEnableCheckMode ignored s
  | .disableCheckMode ignored => Sys2Proof.Machine.execDisableCheckMode ignored s
  | .reserved0 ignored => Sys2Proof.Machine.execReserved0 ignored s
  | .reservedE ignored => Sys2Proof.Machine.execReservedE ignored s
  | .reservedF ignored => Sys2Proof.Machine.execReservedF ignored s

end Sys2Proof.Machine
end

