-- ==== Sys2Proof/Machine/Step.lean ====
section
/-! DEFINITION. One step of the machine: reset, or the next command from its acceptance to its response (R7; log 1). -/

namespace Sys2Proof.Machine

open Sys2Proof

/-- `rst` first (R122, R124); a command that waits for a silent backend has no step (R136, U10); a core to which no
whole command is offered stays as it is (R121); otherwise the next command is accepted and run (R57, R75).
DESIGN CHOICE (log 12): R4 leaves open which steps its refusal covers. Under an ill-formed configuration `exec` refuses
every command, and the steps that run none (reset, idle, waiting) are as under any other. -/
def step (s : State) : Host.Outcome State Fault Refusal :=
  if s.rst then .next (applyReset s)
  else if s.busy then .fault .backendSilent
  else
    match fetch s with
    | none => .next s
    | some (i, t) => exec i t

/-- `s` with the word `w` first on CMD and write data of zeros first on WD, `rst` released and no command in progress,
so that the next step runs exactly it (log 15, log 20). -/
def State.withFetchWord (s : State) (_nbits w : Nat) : State :=
  { s with
    cmd := BitVec.ofNat 36 w :: s.cmd
    wd := zeroBeats (BitVec.ofNat 36 w) ++ s.wd
    rst := false
    curOp := none
    pending := none }

end Sys2Proof.Machine
end

