-- ==== Sys2Proof/Safety.lean ====
section
/-! DEFINITION. The terms in which claims about the machine are stated: the conditions under which commands run, the
invariant, what a command may leave changed, expected traces, and replaying a trace. -/

namespace Sys2Proof.Machine

open Sys2Proof

/-- The bring-up requirements of R126 that bear on a command: a well-formed configuration (R4) and a backend that
answers every leaf request (R9). -/
abbrev Ready (s : State) : Prop := s.params.wf = true ∧ s.answersLeft = none

/-- The reference backend of R41 behind a flash in canonical form. A claim about flash contents needs it (U9, D18). -/
abbrev OnReference (s : State) : Prop := s.backend = .reference ∧ s.flash.wf

/-- The STATUS value of the page procedure that issues a leaf request (R69, R136). -/
def LeafReq.status : LeafReq → Status
  | .erase _ => .erasingPage
  | .write _ _ => .writingPage
  | .read _ => .readingPage

/-- What every state reached from reset satisfies: the configuration is well formed (R4), the flash is in canonical
form, STATUS holds one of its 11 values (R11), an idle core has STATUS Free (R12) and no request outstanding, and a core
in mid-command waits, unanswered, for a leaf request at a valid address (R25) with STATUS at that page procedure's value
(R136). -/
structure State.Inv (s : State) : Prop where
  params_wf : s.params.wf = true
  flash_wf : s.flash.wf
  status_legal : ∃ v : Status, s.status = v.code
  idle_free : s.curOp = none → s.status = Status.free.code ∧ s.pending = none
  busy_waits : s.curOp ≠ none → s.rsp = none ∧
    ∃ q, s.pending = some q ∧ valid s.params q.addr = true ∧ s.status = (LeafReq.status q).code

/-- The states a core can reach from reset, whatever configuration, flash and backend it is given, whatever its host
offers, and whenever `rst` is asserted. -/
inductive Reachable : State → Prop where
  | reset (p : Params) (m : Memory) (b : BackendKind) (n : Option Nat) (c : Nat) (hp : p.wf = true) (hm : m.wf) :
      Reachable { State.reset with params := p, flash := m, backend := b, answersLeft := n, draws := c }
  | offer (s : State) (cmd : List CmdWord) (wd : List Page) (r : Bool) (n : Option Nat) (hs : Reachable s) :
      Reachable { s with cmd := cmd, wd := wd, rst := r, answersLeft := n }
  | step (s t : State) (hs : Reachable s) (h : step s = .next t) : Reachable t

/-- The registers, and the flash, that a frame names. -/
inductive Reg where
  | status
  | checkMode
  | pbuf
  | crcHi
  | crcLo
  | agg
  | agg2
  | base
  | idxJ
  | idxI
  | idxK
  | flash
  deriving DecidableEq, Repr

/-- Nothing but the registers of `ws`, the channel records (`rd`, `rsp`, `log`), `CUR_OP` and the model's counter
`draws` differs between `s` and `t`. -/
structure UnchangedBut (ws : List Reg) (s t : State) : Prop where
  status : Reg.status ∉ ws → t.status = s.status
  checkMode : Reg.checkMode ∉ ws → t.checkMode = s.checkMode
  pbuf : Reg.pbuf ∉ ws → t.pbuf = s.pbuf
  crcHi : Reg.crcHi ∉ ws → t.crcHi = s.crcHi
  crcLo : Reg.crcLo ∉ ws → t.crcLo = s.crcLo
  agg : Reg.agg ∉ ws → t.agg = s.agg
  agg2 : Reg.agg2 ∉ ws → t.agg2 = s.agg2
  base : Reg.base ∉ ws → t.base = s.base
  idxJ : Reg.idxJ ∉ ws → t.idxJ = s.idxJ
  idxI : Reg.idxI ∉ ws → t.idxI = s.idxI
  idxK : Reg.idxK ∉ ws → t.idxK = s.idxK
  flash : Reg.flash ∉ ws → t.flash = s.flash
  params : t.params = s.params
  pending : t.pending = s.pending
  cmd : t.cmd = s.cmd
  wd : t.wd = s.wd
  rst : t.rst = s.rst
  backend : t.backend = s.backend
  answersLeft : t.answersLeft = s.answersLeft

/-- The command has been answered with this result and these pages (R49, R50), BUSY is 0, and its trace is `tr`. -/
def Answered (t : State) (r : Result) (pages : List Page) (tr : List Event) : Prop :=
  t.busy = false ∧ t.trace = tr ∧ ∃ c, t.rsp = some { result := r, crc := c, rdata := pages }

/-- The trace of a page procedure at `a` whose leaf event is `e` (R64, R69). -/
def pageEvents (p : Params) (v : Status) (a : Nat) (e : Event) : List Event :=
  if valid p a then [.statusWrite v, e, .statusWrite .free] else []

/-- The trace of a compound procedure that passed its validation (R69, R72). -/
def procEvents (v : Status) (inner : List Event) : List Event := .statusWrite v :: (inner ++ [.statusWrite .free])

/-- The trace of ERASE_SECTOR and ERASE_BLOCK past validation: 16 page erases at stride `m` (R67, R81, R82). -/
def eraseEvents (p : Params) (v : Status) (a m : Nat) : List Event :=
  procEvents v ((List.range 16).flatMap fun i => pageEvents p .erasingPage (a + m * i) (.leafErase (a + m * i)))

/-- The trace of `write_sector` past validation (R86). -/
def writeSectorEvents (p : Params) (a : Nat) (d : List Page) : List Event :=
  procEvents .writingSector ((List.range 16).flatMap fun i =>
    pageEvents p .writingPage (a + 256 * i) (.leafWrite (a + 256 * i) (d.getD i 0)))

/-- The trace of `get_sector` past validation, where the pages read are those of `pages` (R90). -/
def readSectorEvents (p : Params) (a : Nat) (pages : List Page) : List Event :=
  procEvents .readingSector ((List.range 16).flatMap fun i =>
    pageEvents p .readingPage (a + 256 * i) (.leafRead (a + 256 * i) (pages.getD i 0)))

/-- The result of a compound command whose sub-operations all succeed exactly when `all` holds (R70). -/
def compoundResult (p : Params) (all : Bool) : Result := if p.propagateSubfail && !all then .fail else .ok

/-- All 16 sub-operation addresses at stride `m` are valid. -/
def allValid (p : Params) (a m : Nat) : Bool := (List.range 16).all fun i => valid p (a + m * i)

/-- All 256 page addresses of a block are valid. -/
def blockValid (p : Params) (a : Nat) : Bool := (List.range 16).all fun j => allValid p (a + 4096 * j) 256

/-- Whether the page procedure for page `n / 256` of a block command at `a` is run and passes its validation: its sector's
start and its own start are valid (R65, R87, R88). -/
def pageRuns (p : Params) (a n : Nat) : Bool := valid p (a + 4096 * (n / 4096)) && valid p (a + 256 * (n / 256))

/-- The address of an event that is a leaf request with its answer. -/
def leafAddr : Event → Option Nat
  | .leafErase a => some a
  | .leafWrite a _ => some a
  | .leafRead a _ => some a
  | .statusWrite _ => none
  | .checkModeWrite _ => none

/-- The leaf requests of a trace, by address, in order (R39). -/
def leafAddrs (tr : List Event) : List Nat := tr.filterMap leafAddr

/-- What one event does to the array of the reference backend (R41). -/
def applyEvent (m : Memory) : Event → Memory
  | .leafErase a => m.erasePage a
  | .leafWrite a d => m.writePage a d
  | .leafRead _ _ => m
  | .statusWrite _ => m
  | .checkModeWrite _ => m

/-- The array after the leaf requests of a trace, one after another (R39, R41). -/
def replay (m : Memory) (tr : List Event) : Memory := tr.foldl applyEvent m

/-- STATUS after the writes of a trace. -/
def lastStatus (v : BitVec 4) (tr : List Event) : BitVec 4 :=
  tr.foldl (fun v e => match e with
    | .statusWrite w => w.code
    | .checkModeWrite _ => v
    | .leafErase _ => v
    | .leafWrite _ _ => v
    | .leafRead _ _ => v) v

/-- The most leaf requests a command can issue (R9, R79). -/
def leafBound (p : Params) : Instr → Nat
  | .erasePage _ => 1
  | .eraseSector _ => 16
  | .eraseBlock _ => 16
  | .eraseFull _ => nFull p
  | .writePage _ _ => 1
  | .writeSector _ _ => 16
  | .writeBlock _ _ => 256
  | .getPage _ => 1
  | .getSector _ => 16
  | .getBlock _ => 256
  | .getPageCrc16 _ => 1
  | .enableCheckMode _ => 0
  | .disableCheckMode _ => 0
  | .reserved0 _ => 0
  | .reservedE _ => 0
  | .reservedF _ => 0

/-- The hidden state of R24 replaced: what no later command may depend on. -/
def withHidden (h s : State) : State :=
  { s with
    pbuf := h.pbuf
    crcHi := h.crcHi
    crcLo := h.crcLo
    agg := h.agg
    agg2 := h.agg2
    base := h.base
    idxJ := h.idxJ
    idxI := h.idxI
    idxK := h.idxK }

/-- The ten commands with a validated address (R108), and how many pages each returns. -/
def validatedPages : Instr → Option Nat
  | .erasePage _ => some 0
  | .eraseSector _ => some 0
  | .eraseBlock _ => some 0
  | .writePage _ _ => some 0
  | .writeSector _ _ => some 0
  | .writeBlock _ _ => some 0
  | .getPage _ => some 1
  | .getSector _ => some 16
  | .getBlock _ => some 256
  | .getPageCrc16 _ => some 0
  | .eraseFull _ => none
  | .enableCheckMode _ => none
  | .disableCheckMode _ => none
  | .reserved0 _ => none
  | .reservedE _ => none
  | .reservedF _ => none

/-- The commands that write CHECK_MODE (R13). -/
def writesCheckMode : Instr → Bool
  | .enableCheckMode _ => true
  | .disableCheckMode _ => true
  | .erasePage _ => false
  | .eraseSector _ => false
  | .eraseBlock _ => false
  | .eraseFull _ => false
  | .writePage _ _ => false
  | .writeSector _ _ => false
  | .writeBlock _ _ => false
  | .getPage _ => false
  | .getSector _ => false
  | .getBlock _ => false
  | .getPageCrc16 _ => false
  | .reserved0 _ => false
  | .reservedE _ => false
  | .reservedF _ => false

/-- A change of the next state, where there is one. -/
def onNext (f : State → State) : Host.Outcome State Fault Refusal → Host.Outcome State Fault Refusal
  | .next s => .next (f s)
  | .fault r => .fault r
  | .refused r => .refused r

/-- The two bytes of a 16-bit value exchanged (R99). -/
def swapBytes (c : BitVec 16) : BitVec 16 := c.extractLsb' 0 8 ++ c.extractLsb' 8 8

end Sys2Proof.Machine
end

