-- ==== Sys2Proof/Certificates/Slice0/Obligations.lean ====
section
/-! DEFINITION. The statements for the provers. OBLIGATIONS.json lists them, with the rules they formalise. -/

open Sys2Proof Sys2Proof.Machine

/-! ### Reset and the invariant -/

/-- R23, R122: what `rst` leaves, from any state: STATUS Free, CHECK_MODE 0, no command in progress, the bounds as
configured, `rst` released. With no leaf request outstanding the flash holds what it held (R125, general knowledge there;
log 10). -/
def Obligations.ResetPutsRegistersAtResetValues : Prop :=
  ∀ s : State, s.rst = true → ∃ t, step s = .next t ∧
    t.status = Status.free.code ∧ t.checkMode = false ∧ t.curOp = none ∧ t.busy = false ∧ t.pending = none ∧
    t.params = s.params ∧ t.rst = false ∧ (s.pending = none → t.flash = s.flash)

/-- R124: reset in mid-command sends no response and touches no byte outside the page of the outstanding request. The
bytes of that page are free values. That reset falls at the outstanding request is the model's choice (log 10). -/
def Obligations.ResetInMidCommandAbandonsIt : Prop :=
  ∀ (s : State) (q : LeafReq), s.rst = true → s.busy = true → s.pending = some q → OnReference s →
    ∃ t, step s = .next t ∧ t.rsp = none ∧ t.busy = false ∧ t.status = Status.free.code ∧ t.checkMode = false ∧
      t.params = s.params ∧ t.flash.wf ∧
      (∀ x, x < q.addr ∨ q.addr + 256 ≤ x → t.flash.read x = s.flash.read x) ∧
      (∀ a, q = .read a → t.flash = s.flash)

/-- The invariant holds right after reset. -/
def Obligations.InvariantHoldsAtReset : Prop := State.reset.Inv

/-- Every step keeps the invariant: canonical flash, a legal STATUS, STATUS Free whenever the core is idle, and a core in
mid-command waiting for a leaf request at a valid address. Canonical form is the model's own (log 19). -/
def Obligations.StepKeepsInvariant : Prop := ∀ s t : State, s.Inv → step s = .next t → t.Inv

/-- R12: however the core is configured and driven from reset, STATUS is Free whenever it can accept a command. What
counts as reachable (`Reachable`) is the model's own notion (log 1, 8, 9, 10). -/
def Obligations.StatusIsFreeAtEveryAcceptance : Prop :=
  ∀ s : State, Reachable s → s.Inv ∧ (s.busy = false → s.status = Status.free.code)

/-- R3, R14: no step changes the configuration, nor which backend answers. -/
def Obligations.StepKeepsConfiguration : Prop :=
  ∀ s t : State, step s = .next t → t.params = s.params ∧ t.backend = s.backend

/-- R13: only the two check-mode commands, and reset, change CHECK_MODE. -/
def Obligations.OnlyCheckModeCommandsChangeCheckMode : Prop :=
  ∀ s t : State, step s = .next t → t.checkMode ≠ s.checkMode →
    s.rst = true ∨ ∃ i u, fetch s = some (i, u) ∧ writesCheckMode i = true

/-! ### Encodings -/

/-- R45 to R48, R58: decoding the encoding of a well-formed command, with more beats behind it, gives it back. -/
def Obligations.DecodeOfEncodeIsTheCommand : Prop :=
  ∀ (i : Instr) (rest : List Page), i.wf = true → decode (encode i).1 ((encode i).2 ++ rest) = .ok (i, rest)

/-- The other direction: a word and its beats are the encoding of the command they decode to, which is well formed. -/
def Obligations.EncodeOfDecodeIsTheWord : Prop :=
  ∀ (w : CmdWord) (wd rest : List Page) (i : Instr), decode w wd = .ok (i, rest) →
    i.wf = true ∧ (encode i).1 = w ∧ (encode i).2 ++ rest = wd

/-- R62, R46: every 36-bit word matches exactly one row of the opcode table, the row of the command it decodes to. -/
def Obligations.EveryWordIsExactlyOneRow : Prop :=
  ∀ w : CmdWord, ∃ r ∈ opcodeTable, (∀ r' ∈ opcodeTable, w &&& r'.mask = r'.pattern ↔ r' = r) ∧
    ∀ wd i rest, decode w wd = .ok (i, rest) → i.mnemonic = r.mnemonic

/-- Words written out in the spec, each decoded to the command it stands for (R60, and the examples of 41 to 45). That a
WRITE_PAGE word whose beat is not offered yet is no command is the model's choice (log 8). -/
def Obligations.SpecWordsDecodeToTheirCommands : Prop :=
  decode 0x108000000 [] = .ok (.erasePage 0x08000000, []) ∧
  decode 0x208001000 [] = .ok (.eraseSector 0x08001000, []) ∧
  decode 0x308010000 [] = .ok (.eraseBlock 0x08010000, []) ∧
  decode 0x4DEADBEEF [] = .ok (.eraseFull 0xDEADBEEF, []) ∧
  decode 0x508000100 [7] = .ok (.writePage 0x08000100 7, []) ∧
  decode 0x508000100 [] = .error .writeDataMissing ∧
  decode 0x808000000 [] = .ok (.getPage 0x08000000, []) ∧
  decode 0xB08001100 [] = .ok (.getPageCrc16 0x08001100, []) ∧
  decode 0xC00000000 [] = .ok (.enableCheckMode 0, []) ∧
  decode 0xE08000000 [] = .ok (.reservedE 0x08000000, [])

/-- R50: `RSP[16]` is the result and `RSP[15:0]` the crc. -/
def Obligations.ResponseWordHoldsResultAndCrc : Prop :=
  ∀ r : Response, r.word.toNat = (if r.result = .ok then 0 else 1) * 2 ^ 16 + r.crc.toNat

/-- R52: the leaf request word is `{leaf_op, leaf_addr}`, and a request at a valid address loses no address bit. -/
def Obligations.LeafRequestWordHoldsOpAndAddress : Prop :=
  ∀ (p : Params) (q : LeafReq), valid p q.addr = true → q.word.toNat = q.op.toNat * 2 ^ 32 + q.addr

/-- R58: byte `k` of a beat is bits `8k+7` to `8k`, and a beat is determined by its 256 bytes. -/
def Obligations.BeatCarriesItsBytesInOrder : Prop :=
  (∀ (bs : List Byte) (k : Nat) (h : k < bs.length), bs.length = 256 → pageByte (packPage bs) k = bs[k]) ∧
  (∀ p : Page, packPage (pageBytes p) = p) ∧
  (∀ (p : Page) (k b : Nat), b < 8 → (pageByte p k).getLsbD b = p.getLsbD (8 * k + b))

/-- R47: the address field of ERASE_FULL and the check-mode commands, and of a reserved opcode (R104), is ignored. -/
def Obligations.IgnoredAddressFieldIsIgnored : Prop :=
  ∀ (a b : Addr) (s : State), exec (.eraseFull a) s = exec (.eraseFull b) s ∧
    exec (.enableCheckMode a) s = exec (.enableCheckMode b) s ∧
    exec (.disableCheckMode a) s = exec (.disableCheckMode b) s ∧
    exec (.reserved0 a) s = exec (.reserved0 b) s ∧ exec (.reservedE a) s = exec (.reservedE b) s ∧
    exec (.reservedF a) s = exec (.reservedF b) s

/-! ### The step -/

/-- R57, R75: an idle core to which a whole command is offered takes its word and beats and runs it. That this is one step is the model's choice (log 1, log 8). -/
def Obligations.StepRunsTheDecodedCommand : Prop :=
  ∀ (s : State) (w : CmdWord) (rest : List CmdWord) (i : Instr) (wd : List Page),
    s.rst = false → s.busy = false → s.cmd = w :: rest → decode w s.wd = .ok (i, wd) →
    step s = exec i { s with cmd := rest, wd := wd }

/-- A word placed by `State.withFetchWord`, with write data of zeros, is what the next step runs: the command that
`decodeTableWord` reads from it, in the state as it was, `rst` released and no command in progress. The model's choice of
how a word is placed (log 15, log 20). -/
def Obligations.PlacedWordIsTheNextCommandRun : Prop :=
  ∀ (s : State) (nbits w : Nat) (i : Instr), decodeTableWord nbits w = some i →
    step (s.withFetchWord nbits w) = exec i { s with rst := false, curOp := none, pending := none }

/-- R121: between commands the core is idle and all state is held. A write command whose beats have not all been offered
is not taken yet (the model's choice, log 8). -/
def Obligations.IdleCoreHoldsItsState : Prop :=
  ∀ s : State, s.rst = false → s.busy = false →
    (s.cmd = [] ∨ ∃ w rest, s.cmd = w :: rest ∧ s.wd.length < beatCount (cmdOp w)) → step s = .next s

/-- R8: `exec` is total: under a well-formed configuration every well-formed command, in every state, has a next state. -/
def Obligations.ExecIsTotal : Prop :=
  ∀ (i : Instr) (s : State), i.wf = true → s.params.wf = true → ∃ t, exec i s = .next t

/-- R4, R48, R113: what is refused: an ill-formed configuration and a write buffer of the wrong length; nothing else,
and no command faults. That a buffer which cannot be expressed is refused as `wrongDataLength`, and that this name wins
where both hold, is the model's reading (log 12, DEDUCED). -/
def Obligations.OnlyIllFormedCasesAreRefused : Prop :=
  ∀ (i : Instr) (s : State),
    (i.wf = true → s.params.wf = false → exec i s = .refused .illFormedParams) ∧
    (i.wf = false → exec i s = .refused .wrongDataLength) ∧
    (∀ r, exec i s = .refused r → i.wf = false ∨ s.params.wf = false) ∧ ∀ f, exec i s ≠ .fault f

/-- R9, R50: a command over a backend that answers every leaf request is completed by exactly one response, and the core
is idle again. -/
def Obligations.EveryCommandCompletes : Prop :=
  ∀ (i : Instr) (s : State), i.wf = true → Ready s →
    ∃ t r, exec i s = .next t ∧ t.busy = false ∧ t.rsp = some r ∧ t.pending = s.pending ∧ t.answersLeft = none

/-! ### Validation and failure -/

/-- R64, R108, R113: each of the ten commands with a validated address fails on an address outside the window, with an
empty trace, no RD beat, and no change of any register or of the flash. That BASE is among them is the model's choice
(log 11). -/
def Obligations.AddressOutsideWindowFailsWithoutEffect : Prop :=
  ∀ (i : Instr) (s : State) (n : Nat), i.wf = true → s.params.wf = true → validatedPages i = some n →
    (i.addrField.toNat < s.params.startAddress.toNat ∨ s.params.endAddress.toNat < i.addrField.toNat) →
    ∃ t pages, exec i s = .next t ∧ Answered t .fail pages [] ∧ pages.length = n ∧ t.rd = [] ∧ UnchangedBut [] s t

/-- R83, R109: ERASE_FULL with STATUS anything but Free fails without side effects. -/
def Obligations.EraseFullFailsUnlessFree : Prop :=
  ∀ (x : Addr) (s : State), s.params.wf = true → s.status ≠ Status.free.code →
    ∃ t, exec (.eraseFull x) s = .next t ∧ Answered t .fail [] [] ∧ t.rd = [] ∧ UnchangedBut [] s t

/-- R104: the three reserved opcodes complete with Fail and change nothing. -/
def Obligations.ReservedOpcodesFailWithoutEffect : Prop :=
  ∀ (x : Addr) (s : State) (i : Instr), s.params.wf = true → i = .reserved0 x ∨ i = .reservedE x ∨ i = .reservedF x →
    ∃ t, exec i s = .next t ∧ Answered t .fail [] [] ∧ t.rd = [] ∧ UnchangedBut [] s t

/-! ### Erase -/

/-- R80. -/
def Obligations.ErasePageErasesItsPage : Prop :=
  ∀ (addr : Addr) (s : State), Ready s → valid s.params addr.toNat = true →
    ∃ t, exec (.erasePage addr) s = .next t ∧
      Answered t .ok [] [.statusWrite .erasingPage, .leafErase addr.toNat, .statusWrite .free] ∧
      t.status = Status.free.code ∧ UnchangedBut [.status, .base, .flash] s t ∧
      (OnReference s → t.flash.wf ∧ ∀ x, t.flash.read x =
        if addr.toNat ≤ x ∧ x < addr.toNat + 256 then 0xFF else s.flash.read x)

/-- R81: 16 page erases at stride 256, those past the window skipped and reported. -/
def Obligations.EraseSectorErasesItsValidPages : Prop :=
  ∀ (addr : Addr) (s : State), Ready s → valid s.params addr.toNat = true →
    ∃ t, exec (.eraseSector addr) s = .next t ∧
      Answered t (compoundResult s.params (allValid s.params addr.toNat 256)) []
        (eraseEvents s.params .erasingSector addr.toNat 256) ∧
      t.status = Status.free.code ∧ UnchangedBut [.status, .agg, .base, .idxI, .flash] s t ∧
      (OnReference s → t.flash.wf ∧ ∀ x, t.flash.read x =
        if addr.toNat ≤ x ∧ x < addr.toNat + 4096 ∧
            valid s.params (addr.toNat + 256 * ((x - addr.toNat) / 256)) = true
        then 0xFF else s.flash.read x)

/-- R82: 16 page erases at stride 4096; 240 of every 256 pages of the block keep their contents. -/
def Obligations.EraseBlockErasesOnePageInSixteen : Prop :=
  ∀ (addr : Addr) (s : State), Ready s → valid s.params addr.toNat = true →
    ∃ t, exec (.eraseBlock addr) s = .next t ∧
      Answered t (compoundResult s.params (allValid s.params addr.toNat 4096)) []
        (eraseEvents s.params .erasingBlock addr.toNat 4096) ∧
      t.status = Status.free.code ∧ UnchangedBut [.status, .agg, .base, .idxI, .flash] s t ∧
      (OnReference s → t.flash.wf ∧ ∀ x, t.flash.read x =
        if addr.toNat ≤ x ∧ x < addr.toNat + 65536 ∧ (x - addr.toNat) % 4096 < 256 ∧
            valid s.params (addr.toNat + 4096 * ((x - addr.toNat) / 4096)) = true
        then 0xFF else s.flash.read x)

/-- R83, R84: `N_FULL` page erases from START_ADDRESS, all of them Ok, whatever the address field; every byte of the
window is then 0xFF. -/
def Obligations.EraseFullErasesTheWindow : Prop :=
  ∀ (x : Addr) (s : State), Ready s → s.status = Status.free.code →
    ∃ t, exec (.eraseFull x) s = .next t ∧
      Answered t .ok [] (procEvents .erasingFull ((List.range (nFull s.params)).flatMap fun k =>
        [.statusWrite .erasingPage, .leafErase (s.params.startAddress.toNat + 256 * k), .statusWrite .free])) ∧
      t.status = Status.free.code ∧ UnchangedBut [.idxK, .flash] s t ∧
      (OnReference s → t.flash.wf ∧
        (∀ y, t.flash.read y =
          if s.params.startAddress.toNat ≤ y ∧ y < s.params.startAddress.toNat + 256 * nFull s.params then 0xFF
          else s.flash.read y) ∧
        ∀ y, s.params.startAddress.toNat ≤ y → y ≤ s.params.endAddress.toNat → t.flash.read y = 0xFF)

/-! ### Write -/

/-- R85: the page becomes the AND of what it held and the data; the data stays in PBUF (R15). -/
def Obligations.WritePageAndsIntoItsPage : Prop :=
  ∀ (addr : Addr) (d : Page) (s : State), Ready s → valid s.params addr.toNat = true →
    ∃ t, exec (.writePage addr d) s = .next t ∧
      Answered t .ok [] [.statusWrite .writingPage, .leafWrite addr.toNat d, .statusWrite .free] ∧
      t.status = Status.free.code ∧ t.pbuf = d ∧ UnchangedBut [.status, .pbuf, .base, .flash] s t ∧
      (OnReference s → t.flash.wf ∧ ∀ x, t.flash.read x =
        if addr.toNat ≤ x ∧ x < addr.toNat + 256 then s.flash.read x &&& pageByte d (x - addr.toNat)
        else s.flash.read x)

/-- R86, R88: chunk `i` of the buffer goes to the page at `addr + 256*i` if that start is valid, else it is dropped. -/
def Obligations.WriteSectorAndsItsValidChunks : Prop :=
  ∀ (addr : Addr) (d : List Page) (s : State), Ready s → d.length = 16 → valid s.params addr.toNat = true →
    ∃ t, exec (.writeSector addr d) s = .next t ∧
      Answered t (compoundResult s.params (allValid s.params addr.toNat 256)) []
        (writeSectorEvents s.params addr.toNat d) ∧
      t.status = Status.free.code ∧ UnchangedBut [.status, .pbuf, .agg, .base, .idxI, .flash] s t ∧
      (OnReference s → t.flash.wf ∧ ∀ x, t.flash.read x =
        if addr.toNat ≤ x ∧ x < addr.toNat + 4096 ∧
            valid s.params (addr.toNat + 256 * ((x - addr.toNat) / 256)) = true
        then s.flash.read x &&& bufferByte d (x - addr.toNat) else s.flash.read x)

/-- R87, R88: the sectors whose start is valid are written as by `write_sector`; every byte of the span has its place. -/
def Obligations.WriteBlockAndsItsValidChunks : Prop :=
  ∀ (addr : Addr) (d : List Page) (s : State), Ready s → d.length = 256 → valid s.params addr.toNat = true →
    ∃ t, exec (.writeBlock addr d) s = .next t ∧
      Answered t (compoundResult s.params (blockValid s.params addr.toNat)) []
        (procEvents .writingBlock ((List.range 16).flatMap fun j =>
          if valid s.params (addr.toNat + 4096 * j) then
            writeSectorEvents s.params (addr.toNat + 4096 * j) ((d.drop (16 * j)).take 16)
          else [])) ∧
      t.status = Status.free.code ∧
      UnchangedBut [.status, .pbuf, .agg, .agg2, .base, .idxI, .idxJ, .flash] s t ∧
      (OnReference s → t.flash.wf ∧ ∀ x, t.flash.read x =
        if addr.toNat ≤ x ∧ x < addr.toNat + 65536 ∧ pageRuns s.params addr.toNat (x - addr.toNat) = true
        then s.flash.read x &&& bufferByte d (x - addr.toNat) else s.flash.read x)

/-! ### Read -/

/-- R89: whatever backend answers, its answer is the data, the RD beat and PBUF; on the reference backend it is the 256
bytes at `addr`. -/
def Obligations.GetPageReturnsTheBackendsAnswer : Prop :=
  ∀ (addr : Addr) (s : State), Ready s → valid s.params addr.toNat = true →
    ∃ t d, exec (.getPage addr) s = .next t ∧
      Answered t .ok [d] [.statusWrite .readingPage, .leafRead addr.toNat d, .statusWrite .free] ∧
      t.status = Status.free.code ∧ t.pbuf = d ∧ t.rd = [⟨0, d⟩] ∧ UnchangedBut [.status, .pbuf, .base] s t ∧
      (OnReference s → ∀ k < 256, pageByte d k = s.flash.read (addr.toNat + k))

/-- R90, R58: the pages with a valid start are read, answered and sent on RD; the others are unspecified. -/
def Obligations.GetSectorReturnsItsValidPages : Prop :=
  ∀ (addr : Addr) (s : State), Ready s → valid s.params addr.toNat = true →
    ∃ t pages, exec (.getSector addr) s = .next t ∧ pages.length = 16 ∧
      Answered t (compoundResult s.params (allValid s.params addr.toNat 256)) pages
        (readSectorEvents s.params addr.toNat pages) ∧
      t.status = Status.free.code ∧
      t.rd.reverse = (List.range 16).filterMap (fun i =>
        if valid s.params (addr.toNat + 256 * i) then some ⟨BitVec.ofNat 8 i, pages.getD i 0⟩ else none) ∧
      UnchangedBut [.status, .pbuf, .agg, .base, .idxI] s t ∧
      (OnReference s → ∀ n < 4096, valid s.params (addr.toNat + 256 * (n / 256)) = true →
        bufferByte pages n = s.flash.read (addr.toNat + n))

/-- R91, R58: as GET_SECTOR, one level up; page `(j, i)` is beat `16*j + i`. -/
def Obligations.GetBlockReturnsItsValidPages : Prop :=
  ∀ (addr : Addr) (s : State), Ready s → valid s.params addr.toNat = true →
    ∃ t pages, exec (.getBlock addr) s = .next t ∧ pages.length = 256 ∧
      Answered t (compoundResult s.params (blockValid s.params addr.toNat)) pages
        (procEvents .readingBlock ((List.range 16).flatMap fun j =>
          if valid s.params (addr.toNat + 4096 * j) then
            readSectorEvents s.params (addr.toNat + 4096 * j) ((pages.drop (16 * j)).take 16)
          else [])) ∧
      t.status = Status.free.code ∧
      t.rd.reverse = (List.range 256).filterMap (fun q =>
        if pageRuns s.params addr.toNat (256 * q) then some ⟨BitVec.ofNat 8 q, pages.getD q 0⟩ else none) ∧
      UnchangedBut [.status, .pbuf, .agg, .agg2, .base, .idxI, .idxJ] s t ∧
      (OnReference s → ∀ n < 65536, pageRuns s.params addr.toNat n = true →
        bufferByte pages n = s.flash.read (addr.toNat + n))

/-- R92: reading a block, writing back what was read, and reading it again changes nothing and returns the same data. -/
def Obligations.BlockRoundTripIsIdempotent : Prop :=
  ∀ (addr : Addr) (s : State), Ready s → OnReference s → blockValid s.params addr.toNat = true →
    ∃ t u v d, exec (.getBlock addr) s = .next t ∧ (∃ tr, Answered t .ok d tr) ∧
      exec (.writeBlock addr d) t = .next u ∧ (∃ tr, Answered u .ok [] tr) ∧ u.flash = s.flash ∧
      exec (.getBlock addr) u = .next v ∧ ∃ tr, Answered v .ok d tr

/-! ### The checksum -/

/-- R93: the page is read as by `get_page`, no RD beat and no data are sent, and the response carries its CRC. -/
def Obligations.GetPageCrc16AnswersTheChecksum : Prop :=
  ∀ (addr : Addr) (s : State), Ready s → valid s.params addr.toNat = true →
    ∃ t d, exec (.getPageCrc16 addr) s = .next t ∧
      Answered t .ok [] [.statusWrite .readingPage, .leafRead addr.toNat d, .statusWrite .free] ∧
      t.rsp = some { result := .ok, crc := crc16 s.params.crcSwap (pageBytes d), rdata := [] } ∧
      t.status = Status.free.code ∧ t.rd = [] ∧ UnchangedBut [.status, .pbuf, .crcHi, .crcLo, .base] s t ∧
      (OnReference s → ∀ k < 256, pageByte d k = s.flash.read (addr.toNat + k))

/-- R95 to R97: both tables are what the formula gives, at every index. Both are general knowledge in the spec (log 14). -/
def Obligations.CrcTablesFollowTheFormula : Prop :=
  ∀ i : Byte, tableEntry tableHi i = (t16 i).extractLsb' 0 8 ∧ tableEntry tableLo i = (t16 i).extractLsb' 8 8

/-- R98: the table-driven checksum is the bit-serial one, on byte sequences of every length. Both forms are
general knowledge in the spec (log 14). -/
def Obligations.TableCrcEqualsBitSerialCrc : Prop := ∀ ds : List Byte, crc16 false ds = crcBitSerial ds

/-- R101: the two reference pages, and the catalogue check value of R98 (log 14). -/
def Obligations.CrcReferenceValues : Prop :=
  crc16 false (List.replicate 256 0x00) = 0x64BF ∧ crc16 false (List.replicate 256 0xFF) = 0x30FF ∧
  crc16 false [0x31, 0x32, 0x33, 0x34, 0x35, 0x36, 0x37, 0x38, 0x39] = 0x4B37

/-- R101: pages that differ in a single bit, and more generally sequences that differ in a single byte, have different
checksums. The polynomial is general knowledge in the spec (log 14). -/
def Obligations.SingleBitFlipChangesTheCrc : Prop :=
  (∀ (swap : Bool) (xs ys : List Byte) (b c : Byte), b ≠ c → crc16 swap (xs ++ b :: ys) ≠ crc16 swap (xs ++ c :: ys)) ∧
  ∀ (swap : Bool) (p : Page) (n : Nat), n < 2048 →
    crc16 swap (pageBytes (p ^^^ BitVec.twoPow 2048 n)) ≠ crc16 swap (pageBytes p)

/-- R101: the checksum is affine over GF(2) on byte sequences of equal length (log 14). -/
def Obligations.CrcIsAffine : Prop :=
  ∀ (swap : Bool) (xs ys : List Byte), xs.length = ys.length →
    crc16 swap (List.zipWith (· ^^^ ·) xs ys) ^^^ crc16 swap xs ^^^ crc16 swap ys =
      crc16 swap (List.replicate xs.length 0)

/-! ### Check mode -/

/-- R102. -/
def Obligations.EnableCheckModeSetsTheFlag : Prop :=
  ∀ (x : Addr) (s : State), s.params.wf = true →
    ∃ t, exec (.enableCheckMode x) s = .next t ∧ Answered t .ok [] [.checkModeWrite true] ∧ t.checkMode = true ∧
      t.rd = [] ∧ UnchangedBut [.checkMode] s t

/-- R103. -/
def Obligations.DisableCheckModeClearsTheFlag : Prop :=
  ∀ (x : Addr) (s : State), s.params.wf = true →
    ∃ t, exec (.disableCheckMode x) s = .next t ∧ Answered t .ok [] [.checkModeWrite false] ∧ t.checkMode = false ∧
      t.rd = [] ∧ UnchangedBut [.checkMode] s t

/-- R13, R137: every command does the same whatever CHECK_MODE holds. -/
def Obligations.CheckModeAltersNoCommand : Prop :=
  ∀ (i : Instr) (s : State) (b : Bool), exec i { s with checkMode := b } =
    onNext (fun t => { t with checkMode := if writesCheckMode i then t.checkMode else b }) (exec i s)

/-! ### Whole-machine rules -/

/-- R41, R39: on the reference backend the flash after a command, finished or not, is the flash before it with the leaf
requests of its trace carried out one after another. -/
def Obligations.FlashIsTheTraceReplayed : Prop :=
  ∀ (i : Instr) (s t : State), s.backend = .reference → exec i s = .next t → t.flash = replay s.flash t.trace

/-- R11: STATUS changes only by the StatusWrite events of the trace. -/
def Obligations.StatusIsTheLastStatusWrite : Prop :=
  ∀ (i : Instr) (s t : State), exec i s = .next t → t.status = lastStatus s.status t.trace

/-- R12, R69: an addressed command that passes validation ends with STATUS Free whatever it was; every other completed
command leaves STATUS as it was. -/
def Obligations.StatusAfterACommand : Prop :=
  ∀ (i : Instr) (s t : State), exec i s = .next t → t.busy = false →
    t.status = if (validatedPages i).isSome && valid s.params i.addrField.toNat then Status.free.code else s.status

/-- R25, R39, R74: the leaf requests of a command are in strictly ascending address order, each at a valid address. -/
def Obligations.LeafRequestsAreValidAndAscending : Prop :=
  ∀ (i : Instr) (s t : State), exec i s = .next t →
    (leafAddrs t.trace).Pairwise (· < ·) ∧ ∀ a ∈ leafAddrs t.trace, valid s.params a = true

/-- R79, R9: how many leaf requests a command issues. -/
def Obligations.LeafRequestCountIsBounded : Prop :=
  ∀ (i : Instr) (s t : State), exec i s = .next t →
    (leafAddrs t.trace).length ≤ leafBound s.params i ∧
    (t.busy = false → (validatedPages i).isSome = true → valid s.params i.addrField.toNat = true →
      1 ≤ (leafAddrs t.trace).length) ∧
    ((validatedPages i).isSome = true → valid s.params i.addrField.toNat = false → leafAddrs t.trace = []) ∧
    (t.busy = false → ∀ x, i = .eraseFull x → s.status = Status.free.code →
      (leafAddrs t.trace).length = nFull s.params)

/-- R15, R24: nothing a command does that anyone can see, now or later, depends on the hidden state left by earlier
commands: run over other hidden state, it ends in the same state but for hidden state. -/
def Obligations.HiddenStateIsNeverObserved : Prop :=
  ∀ (i : Instr) (h s t : State), exec i s = .next t →
    ∃ u, exec i (withHidden h s) = .next u ∧ u = withHidden u t

/-- R70, D10: PROPAGATE_SUBFAIL changes the result of a command and nothing else anyone can see. -/
def Obligations.PropagateSubfailChangesOnlyTheResult : Prop :=
  ∀ (i : Instr) (s t : State) (b : Bool), exec i s = .next t →
    ∃ u, exec i { s with params := { s.params with propagateSubfail := b } } = .next u ∧
      u.trace = t.trace ∧ u.rd = t.rd ∧ u.flash = t.flash ∧ u.status = t.status ∧ u.checkMode = t.checkMode ∧
      u.curOp = t.curOp ∧ u.pending = t.pending ∧
      u.rsp.map (fun r => (r.crc, r.rdata)) = t.rsp.map (fun r => (r.crc, r.rdata)) ∧
      (b = false → ∀ r, u.rsp = some r → r.result = .fail → t.trace = [] )

/-- R99: with CRC_SWAP the other way every checksum has its two bytes exchanged and nothing else changes. -/
def Obligations.CrcSwapExchangesTheBytesOnly : Prop :=
  ∀ (i : Instr) (s t : State), exec i s = .next t →
    ∃ u, exec i { s with params := { s.params with crcSwap := !s.params.crcSwap } } = .next u ∧
      u = { t with params := u.params, rsp := u.rsp } ∧
      u.rsp = t.rsp.map (fun r => { r with
        crc := if i.opcode = 0xB ∧ r.result = .ok then swapBytes r.crc else r.crc })

/-! ### The reference backend, and a backend that falls silent -/

/-- R41: the three operations of the reference backend, byte by byte. That they keep the canonical form, and the form
itself, are the model's own (log 19). -/
def Obligations.ReferenceBackendOperations : Prop :=
  ∀ (m : Memory) (a : Nat) (d : Page), m.wf →
    (∀ x, (m.erasePage a).read x = if a ≤ x ∧ x < a + 256 then 0xFF else m.read x) ∧
    (∀ x, (m.writePage a d).read x = if a ≤ x ∧ x < a + 256 then m.read x &&& pageByte d (x - a) else m.read x) ∧
    (∀ k < 256, pageByte (m.page a) k = m.read (a + k)) ∧ (m.erasePage a).wf ∧ (m.writePage a d).wf

/-- R36: erasing an erased page and writing the same data again change nothing. -/
def Obligations.EraseAndWriteAreIdempotent : Prop :=
  ∀ (m : Memory) (a : Nat) (d : Page), m.wf →
    (m.erasePage a).erasePage a = m.erasePage a ∧ (m.writePage a d).writePage a d = m.writePage a d

/-- R136: where the backend never answers, an addressed command past validation waits with BUSY = 1, no response, STATUS
at the page-level value of the request it waits for, and the flash untouched; it has no further step but reset. That this step is a
fault is the model's choice (log 9). -/
def Obligations.SilentBackendHangsTheCommand : Prop :=
  ∀ (i : Instr) (s : State), i.wf = true → s.params.wf = true → s.answersLeft = some 0 → s.rst = false →
    (validatedPages i).isSome = true → valid s.params i.addrField.toNat = true →
    ∃ t q, exec i s = .next t ∧ t.busy = true ∧ t.curOp = some i.opcode ∧ t.rsp = none ∧ t.pending = some q ∧
      q.addr = i.addrField.toNat ∧ t.status = (LeafReq.status q).code ∧ t.flash = s.flash ∧
      leafAddrs t.trace = [] ∧ step t = .fault .backendSilent

/-- R35, R136: over a backend that answers `n` requests and then falls silent, a command either issues at most `n` and
ends as over a backend that answers all, or it stops after `n` with a trace that is an initial part of the full one. A backend that falls
silent after `n` answers is the model's form of R9 (log 9). -/
def Obligations.SilencedCommandIsAnInitialPart : Prop :=
  ∀ (i : Instr) (s t u : State) (n : Nat), s.answersLeft = some n → exec i s = .next t →
    exec i { s with answersLeft := none } = .next u →
    (t.busy = false → t = { u with answersLeft := t.answersLeft }) ∧
    (t.busy = true → t.trace <+: u.trace ∧ (leafAddrs t.trace).length = n ∧ n < (leafAddrs u.trace).length)

/-- R68: for a block-aligned address the strides are the bit fields of the address: byte `k` of page `i` of sector `j`. -/
def Obligations.StridesAreBitFieldsWhenAligned : Prop :=
  ∀ (addr : Addr) (j i k : Nat), addr.toNat % 65536 = 0 → j < 16 → i < 16 → k < 256 →
    ∃ a : Addr, a.toNat = pageStride (sectorStride addr.toNat j) i + k ∧ blockField a = blockField addr ∧
      sectorField a = j ∧ pageField a = i ∧ byteField a = k
end

