-- ==== Sys2Proof/Laws/State.lean ====
section
/-! SUPPORT. What each named update of State does to each field, so that no later proof unfolds a record update. -/

namespace Sys2Proof.Machine

open Sys2Proof

@[simp] theorem setStatus_params (v : Status) (s : State) : (setStatus v s).params = s.params := rfl
@[simp] theorem setStatus_status (v : Status) (s : State) : (setStatus v s).status = v.code := rfl
@[simp] theorem setStatus_checkMode (v : Status) (s : State) : (setStatus v s).checkMode = s.checkMode := rfl
@[simp] theorem setStatus_pbuf (v : Status) (s : State) : (setStatus v s).pbuf = s.pbuf := rfl
@[simp] theorem setStatus_crcHi (v : Status) (s : State) : (setStatus v s).crcHi = s.crcHi := rfl
@[simp] theorem setStatus_crcLo (v : Status) (s : State) : (setStatus v s).crcLo = s.crcLo := rfl
@[simp] theorem setStatus_agg (v : Status) (s : State) : (setStatus v s).agg = s.agg := rfl
@[simp] theorem setStatus_agg2 (v : Status) (s : State) : (setStatus v s).agg2 = s.agg2 := rfl
@[simp] theorem setStatus_curOp (v : Status) (s : State) : (setStatus v s).curOp = s.curOp := rfl
@[simp] theorem setStatus_base (v : Status) (s : State) : (setStatus v s).base = s.base := rfl
@[simp] theorem setStatus_idxJ (v : Status) (s : State) : (setStatus v s).idxJ = s.idxJ := rfl
@[simp] theorem setStatus_idxI (v : Status) (s : State) : (setStatus v s).idxI = s.idxI := rfl
@[simp] theorem setStatus_idxK (v : Status) (s : State) : (setStatus v s).idxK = s.idxK := rfl
@[simp] theorem setStatus_pending (v : Status) (s : State) : (setStatus v s).pending = s.pending := rfl
@[simp] theorem setStatus_cmd (v : Status) (s : State) : (setStatus v s).cmd = s.cmd := rfl
@[simp] theorem setStatus_wd (v : Status) (s : State) : (setStatus v s).wd = s.wd := rfl
@[simp] theorem setStatus_rd (v : Status) (s : State) : (setStatus v s).rd = s.rd := rfl
@[simp] theorem setStatus_rsp (v : Status) (s : State) : (setStatus v s).rsp = s.rsp := rfl
@[simp] theorem setStatus_log (v : Status) (s : State) : (setStatus v s).log = .statusWrite v :: s.log := rfl
@[simp] theorem setStatus_rst (v : Status) (s : State) : (setStatus v s).rst = s.rst := rfl
@[simp] theorem setStatus_backend (v : Status) (s : State) : (setStatus v s).backend = s.backend := rfl
@[simp] theorem setStatus_answersLeft (v : Status) (s : State) : (setStatus v s).answersLeft = s.answersLeft := rfl
@[simp] theorem setStatus_flash (v : Status) (s : State) : (setStatus v s).flash = s.flash := rfl
@[simp] theorem setStatus_draws (v : Status) (s : State) : (setStatus v s).draws = s.draws := rfl

@[simp] theorem setCheckMode_params (b : Bool) (s : State) : (setCheckMode b s).params = s.params := rfl
@[simp] theorem setCheckMode_status (b : Bool) (s : State) : (setCheckMode b s).status = s.status := rfl
@[simp] theorem setCheckMode_checkMode (b : Bool) (s : State) : (setCheckMode b s).checkMode = b := rfl
@[simp] theorem setCheckMode_pbuf (b : Bool) (s : State) : (setCheckMode b s).pbuf = s.pbuf := rfl
@[simp] theorem setCheckMode_crcHi (b : Bool) (s : State) : (setCheckMode b s).crcHi = s.crcHi := rfl
@[simp] theorem setCheckMode_crcLo (b : Bool) (s : State) : (setCheckMode b s).crcLo = s.crcLo := rfl
@[simp] theorem setCheckMode_agg (b : Bool) (s : State) : (setCheckMode b s).agg = s.agg := rfl
@[simp] theorem setCheckMode_agg2 (b : Bool) (s : State) : (setCheckMode b s).agg2 = s.agg2 := rfl
@[simp] theorem setCheckMode_curOp (b : Bool) (s : State) : (setCheckMode b s).curOp = s.curOp := rfl
@[simp] theorem setCheckMode_base (b : Bool) (s : State) : (setCheckMode b s).base = s.base := rfl
@[simp] theorem setCheckMode_idxJ (b : Bool) (s : State) : (setCheckMode b s).idxJ = s.idxJ := rfl
@[simp] theorem setCheckMode_idxI (b : Bool) (s : State) : (setCheckMode b s).idxI = s.idxI := rfl
@[simp] theorem setCheckMode_idxK (b : Bool) (s : State) : (setCheckMode b s).idxK = s.idxK := rfl
@[simp] theorem setCheckMode_pending (b : Bool) (s : State) : (setCheckMode b s).pending = s.pending := rfl
@[simp] theorem setCheckMode_cmd (b : Bool) (s : State) : (setCheckMode b s).cmd = s.cmd := rfl
@[simp] theorem setCheckMode_wd (b : Bool) (s : State) : (setCheckMode b s).wd = s.wd := rfl
@[simp] theorem setCheckMode_rd (b : Bool) (s : State) : (setCheckMode b s).rd = s.rd := rfl
@[simp] theorem setCheckMode_rsp (b : Bool) (s : State) : (setCheckMode b s).rsp = s.rsp := rfl
@[simp] theorem setCheckMode_log (b : Bool) (s : State) : (setCheckMode b s).log = .checkModeWrite b :: s.log := rfl
@[simp] theorem setCheckMode_rst (b : Bool) (s : State) : (setCheckMode b s).rst = s.rst := rfl
@[simp] theorem setCheckMode_backend (b : Bool) (s : State) : (setCheckMode b s).backend = s.backend := rfl
@[simp] theorem setCheckMode_answersLeft (b : Bool) (s : State) : (setCheckMode b s).answersLeft = s.answersLeft := rfl
@[simp] theorem setCheckMode_flash (b : Bool) (s : State) : (setCheckMode b s).flash = s.flash := rfl
@[simp] theorem setCheckMode_draws (b : Bool) (s : State) : (setCheckMode b s).draws = s.draws := rfl

@[simp] theorem clearAgg_params (l : Level) (s : State) : (clearAgg l s).params = s.params := by cases l <;> rfl
@[simp] theorem clearAgg_status (l : Level) (s : State) : (clearAgg l s).status = s.status := by cases l <;> rfl
@[simp] theorem clearAgg_checkMode (l : Level) (s : State) : (clearAgg l s).checkMode = s.checkMode := by cases l <;> rfl
@[simp] theorem clearAgg_pbuf (l : Level) (s : State) : (clearAgg l s).pbuf = s.pbuf := by cases l <;> rfl
@[simp] theorem clearAgg_crcHi (l : Level) (s : State) : (clearAgg l s).crcHi = s.crcHi := by cases l <;> rfl
@[simp] theorem clearAgg_crcLo (l : Level) (s : State) : (clearAgg l s).crcLo = s.crcLo := by cases l <;> rfl
@[simp] theorem clearAgg_curOp (l : Level) (s : State) : (clearAgg l s).curOp = s.curOp := by cases l <;> rfl
@[simp] theorem clearAgg_base (l : Level) (s : State) : (clearAgg l s).base = s.base := by cases l <;> rfl
@[simp] theorem clearAgg_idxJ (l : Level) (s : State) : (clearAgg l s).idxJ = s.idxJ := by cases l <;> rfl
@[simp] theorem clearAgg_idxI (l : Level) (s : State) : (clearAgg l s).idxI = s.idxI := by cases l <;> rfl
@[simp] theorem clearAgg_idxK (l : Level) (s : State) : (clearAgg l s).idxK = s.idxK := by cases l <;> rfl
@[simp] theorem clearAgg_pending (l : Level) (s : State) : (clearAgg l s).pending = s.pending := by cases l <;> rfl
@[simp] theorem clearAgg_cmd (l : Level) (s : State) : (clearAgg l s).cmd = s.cmd := by cases l <;> rfl
@[simp] theorem clearAgg_wd (l : Level) (s : State) : (clearAgg l s).wd = s.wd := by cases l <;> rfl
@[simp] theorem clearAgg_rd (l : Level) (s : State) : (clearAgg l s).rd = s.rd := by cases l <;> rfl
@[simp] theorem clearAgg_rsp (l : Level) (s : State) : (clearAgg l s).rsp = s.rsp := by cases l <;> rfl
@[simp] theorem clearAgg_log (l : Level) (s : State) : (clearAgg l s).log = s.log := by cases l <;> rfl
@[simp] theorem clearAgg_rst (l : Level) (s : State) : (clearAgg l s).rst = s.rst := by cases l <;> rfl
@[simp] theorem clearAgg_backend (l : Level) (s : State) : (clearAgg l s).backend = s.backend := by cases l <;> rfl
@[simp] theorem clearAgg_answersLeft (l : Level) (s : State) : (clearAgg l s).answersLeft = s.answersLeft := by cases l <;> rfl
@[simp] theorem clearAgg_flash (l : Level) (s : State) : (clearAgg l s).flash = s.flash := by cases l <;> rfl
@[simp] theorem clearAgg_draws (l : Level) (s : State) : (clearAgg l s).draws = s.draws := by cases l <;> rfl

@[simp] theorem foldAgg_params (l : Level) (r : Result) (s : State) : (foldAgg l r s).params = s.params := by cases l <;> rfl
@[simp] theorem foldAgg_status (l : Level) (r : Result) (s : State) : (foldAgg l r s).status = s.status := by cases l <;> rfl
@[simp] theorem foldAgg_checkMode (l : Level) (r : Result) (s : State) : (foldAgg l r s).checkMode = s.checkMode := by cases l <;> rfl
@[simp] theorem foldAgg_pbuf (l : Level) (r : Result) (s : State) : (foldAgg l r s).pbuf = s.pbuf := by cases l <;> rfl
@[simp] theorem foldAgg_crcHi (l : Level) (r : Result) (s : State) : (foldAgg l r s).crcHi = s.crcHi := by cases l <;> rfl
@[simp] theorem foldAgg_crcLo (l : Level) (r : Result) (s : State) : (foldAgg l r s).crcLo = s.crcLo := by cases l <;> rfl
@[simp] theorem foldAgg_curOp (l : Level) (r : Result) (s : State) : (foldAgg l r s).curOp = s.curOp := by cases l <;> rfl
@[simp] theorem foldAgg_base (l : Level) (r : Result) (s : State) : (foldAgg l r s).base = s.base := by cases l <;> rfl
@[simp] theorem foldAgg_idxJ (l : Level) (r : Result) (s : State) : (foldAgg l r s).idxJ = s.idxJ := by cases l <;> rfl
@[simp] theorem foldAgg_idxI (l : Level) (r : Result) (s : State) : (foldAgg l r s).idxI = s.idxI := by cases l <;> rfl
@[simp] theorem foldAgg_idxK (l : Level) (r : Result) (s : State) : (foldAgg l r s).idxK = s.idxK := by cases l <;> rfl
@[simp] theorem foldAgg_pending (l : Level) (r : Result) (s : State) : (foldAgg l r s).pending = s.pending := by cases l <;> rfl
@[simp] theorem foldAgg_cmd (l : Level) (r : Result) (s : State) : (foldAgg l r s).cmd = s.cmd := by cases l <;> rfl
@[simp] theorem foldAgg_wd (l : Level) (r : Result) (s : State) : (foldAgg l r s).wd = s.wd := by cases l <;> rfl
@[simp] theorem foldAgg_rd (l : Level) (r : Result) (s : State) : (foldAgg l r s).rd = s.rd := by cases l <;> rfl
@[simp] theorem foldAgg_rsp (l : Level) (r : Result) (s : State) : (foldAgg l r s).rsp = s.rsp := by cases l <;> rfl
@[simp] theorem foldAgg_log (l : Level) (r : Result) (s : State) : (foldAgg l r s).log = s.log := by cases l <;> rfl
@[simp] theorem foldAgg_rst (l : Level) (r : Result) (s : State) : (foldAgg l r s).rst = s.rst := by cases l <;> rfl
@[simp] theorem foldAgg_backend (l : Level) (r : Result) (s : State) : (foldAgg l r s).backend = s.backend := by cases l <;> rfl
@[simp] theorem foldAgg_answersLeft (l : Level) (r : Result) (s : State) : (foldAgg l r s).answersLeft = s.answersLeft := by cases l <;> rfl
@[simp] theorem foldAgg_flash (l : Level) (r : Result) (s : State) : (foldAgg l r s).flash = s.flash := by cases l <;> rfl
@[simp] theorem foldAgg_draws (l : Level) (r : Result) (s : State) : (foldAgg l r s).draws = s.draws := by cases l <;> rfl

@[simp] theorem setIdx_params (l : Level) (n : Nat) (s : State) : (setIdx l n s).params = s.params := by cases l <;> rfl
@[simp] theorem setIdx_status (l : Level) (n : Nat) (s : State) : (setIdx l n s).status = s.status := by cases l <;> rfl
@[simp] theorem setIdx_checkMode (l : Level) (n : Nat) (s : State) : (setIdx l n s).checkMode = s.checkMode := by cases l <;> rfl
@[simp] theorem setIdx_pbuf (l : Level) (n : Nat) (s : State) : (setIdx l n s).pbuf = s.pbuf := by cases l <;> rfl
@[simp] theorem setIdx_crcHi (l : Level) (n : Nat) (s : State) : (setIdx l n s).crcHi = s.crcHi := by cases l <;> rfl
@[simp] theorem setIdx_crcLo (l : Level) (n : Nat) (s : State) : (setIdx l n s).crcLo = s.crcLo := by cases l <;> rfl
@[simp] theorem setIdx_agg (l : Level) (n : Nat) (s : State) : (setIdx l n s).agg = s.agg := by cases l <;> rfl
@[simp] theorem setIdx_agg2 (l : Level) (n : Nat) (s : State) : (setIdx l n s).agg2 = s.agg2 := by cases l <;> rfl
@[simp] theorem setIdx_curOp (l : Level) (n : Nat) (s : State) : (setIdx l n s).curOp = s.curOp := by cases l <;> rfl
@[simp] theorem setIdx_base (l : Level) (n : Nat) (s : State) : (setIdx l n s).base = s.base := by cases l <;> rfl
@[simp] theorem setIdx_pending (l : Level) (n : Nat) (s : State) : (setIdx l n s).pending = s.pending := by cases l <;> rfl
@[simp] theorem setIdx_cmd (l : Level) (n : Nat) (s : State) : (setIdx l n s).cmd = s.cmd := by cases l <;> rfl
@[simp] theorem setIdx_wd (l : Level) (n : Nat) (s : State) : (setIdx l n s).wd = s.wd := by cases l <;> rfl
@[simp] theorem setIdx_rd (l : Level) (n : Nat) (s : State) : (setIdx l n s).rd = s.rd := by cases l <;> rfl
@[simp] theorem setIdx_rsp (l : Level) (n : Nat) (s : State) : (setIdx l n s).rsp = s.rsp := by cases l <;> rfl
@[simp] theorem setIdx_log (l : Level) (n : Nat) (s : State) : (setIdx l n s).log = s.log := by cases l <;> rfl
@[simp] theorem setIdx_rst (l : Level) (n : Nat) (s : State) : (setIdx l n s).rst = s.rst := by cases l <;> rfl
@[simp] theorem setIdx_backend (l : Level) (n : Nat) (s : State) : (setIdx l n s).backend = s.backend := by cases l <;> rfl
@[simp] theorem setIdx_answersLeft (l : Level) (n : Nat) (s : State) : (setIdx l n s).answersLeft = s.answersLeft := by cases l <;> rfl
@[simp] theorem setIdx_flash (l : Level) (n : Nat) (s : State) : (setIdx l n s).flash = s.flash := by cases l <;> rfl
@[simp] theorem setIdx_draws (l : Level) (n : Nat) (s : State) : (setIdx l n s).draws = s.draws := by cases l <;> rfl

@[simp] theorem loadPbuf_params (d : Page) (s : State) : (loadPbuf d s).params = s.params := rfl
@[simp] theorem loadPbuf_status (d : Page) (s : State) : (loadPbuf d s).status = s.status := rfl
@[simp] theorem loadPbuf_checkMode (d : Page) (s : State) : (loadPbuf d s).checkMode = s.checkMode := rfl
@[simp] theorem loadPbuf_pbuf (d : Page) (s : State) : (loadPbuf d s).pbuf = d := rfl
@[simp] theorem loadPbuf_crcHi (d : Page) (s : State) : (loadPbuf d s).crcHi = s.crcHi := rfl
@[simp] theorem loadPbuf_crcLo (d : Page) (s : State) : (loadPbuf d s).crcLo = s.crcLo := rfl
@[simp] theorem loadPbuf_agg (d : Page) (s : State) : (loadPbuf d s).agg = s.agg := rfl
@[simp] theorem loadPbuf_agg2 (d : Page) (s : State) : (loadPbuf d s).agg2 = s.agg2 := rfl
@[simp] theorem loadPbuf_curOp (d : Page) (s : State) : (loadPbuf d s).curOp = s.curOp := rfl
@[simp] theorem loadPbuf_base (d : Page) (s : State) : (loadPbuf d s).base = s.base := rfl
@[simp] theorem loadPbuf_idxJ (d : Page) (s : State) : (loadPbuf d s).idxJ = s.idxJ := rfl
@[simp] theorem loadPbuf_idxI (d : Page) (s : State) : (loadPbuf d s).idxI = s.idxI := rfl
@[simp] theorem loadPbuf_idxK (d : Page) (s : State) : (loadPbuf d s).idxK = s.idxK := rfl
@[simp] theorem loadPbuf_pending (d : Page) (s : State) : (loadPbuf d s).pending = s.pending := rfl
@[simp] theorem loadPbuf_cmd (d : Page) (s : State) : (loadPbuf d s).cmd = s.cmd := rfl
@[simp] theorem loadPbuf_wd (d : Page) (s : State) : (loadPbuf d s).wd = s.wd := rfl
@[simp] theorem loadPbuf_rd (d : Page) (s : State) : (loadPbuf d s).rd = s.rd := rfl
@[simp] theorem loadPbuf_rsp (d : Page) (s : State) : (loadPbuf d s).rsp = s.rsp := rfl
@[simp] theorem loadPbuf_log (d : Page) (s : State) : (loadPbuf d s).log = s.log := rfl
@[simp] theorem loadPbuf_rst (d : Page) (s : State) : (loadPbuf d s).rst = s.rst := rfl
@[simp] theorem loadPbuf_backend (d : Page) (s : State) : (loadPbuf d s).backend = s.backend := rfl
@[simp] theorem loadPbuf_answersLeft (d : Page) (s : State) : (loadPbuf d s).answersLeft = s.answersLeft := rfl
@[simp] theorem loadPbuf_flash (d : Page) (s : State) : (loadPbuf d s).flash = s.flash := rfl
@[simp] theorem loadPbuf_draws (d : Page) (s : State) : (loadPbuf d s).draws = s.draws := rfl

@[simp] theorem erased_params (a : Nat) (s : State) : (erased a s).params = s.params := rfl
@[simp] theorem erased_status (a : Nat) (s : State) : (erased a s).status = s.status := rfl
@[simp] theorem erased_checkMode (a : Nat) (s : State) : (erased a s).checkMode = s.checkMode := rfl
@[simp] theorem erased_pbuf (a : Nat) (s : State) : (erased a s).pbuf = s.pbuf := rfl
@[simp] theorem erased_crcHi (a : Nat) (s : State) : (erased a s).crcHi = s.crcHi := rfl
@[simp] theorem erased_crcLo (a : Nat) (s : State) : (erased a s).crcLo = s.crcLo := rfl
@[simp] theorem erased_agg (a : Nat) (s : State) : (erased a s).agg = s.agg := rfl
@[simp] theorem erased_agg2 (a : Nat) (s : State) : (erased a s).agg2 = s.agg2 := rfl
@[simp] theorem erased_curOp (a : Nat) (s : State) : (erased a s).curOp = s.curOp := rfl
@[simp] theorem erased_base (a : Nat) (s : State) : (erased a s).base = s.base := rfl
@[simp] theorem erased_idxJ (a : Nat) (s : State) : (erased a s).idxJ = s.idxJ := rfl
@[simp] theorem erased_idxI (a : Nat) (s : State) : (erased a s).idxI = s.idxI := rfl
@[simp] theorem erased_idxK (a : Nat) (s : State) : (erased a s).idxK = s.idxK := rfl
@[simp] theorem erased_pending (a : Nat) (s : State) : (erased a s).pending = s.pending := rfl
@[simp] theorem erased_cmd (a : Nat) (s : State) : (erased a s).cmd = s.cmd := rfl
@[simp] theorem erased_wd (a : Nat) (s : State) : (erased a s).wd = s.wd := rfl
@[simp] theorem erased_rd (a : Nat) (s : State) : (erased a s).rd = s.rd := rfl
@[simp] theorem erased_rsp (a : Nat) (s : State) : (erased a s).rsp = s.rsp := rfl
@[simp] theorem erased_log (a : Nat) (s : State) : (erased a s).log = .leafErase a :: s.log := rfl
@[simp] theorem erased_rst (a : Nat) (s : State) : (erased a s).rst = s.rst := rfl
@[simp] theorem erased_backend (a : Nat) (s : State) : (erased a s).backend = s.backend := rfl
@[simp] theorem erased_answersLeft (a : Nat) (s : State) : (erased a s).answersLeft = s.answersLeft := rfl
@[simp] theorem erased_draws (a : Nat) (s : State) : (erased a s).draws = s.draws := rfl

@[simp] theorem written_params (a : Nat) (d : Page) (s : State) : (written a d s).params = s.params := rfl
@[simp] theorem written_status (a : Nat) (d : Page) (s : State) : (written a d s).status = s.status := rfl
@[simp] theorem written_checkMode (a : Nat) (d : Page) (s : State) : (written a d s).checkMode = s.checkMode := rfl
@[simp] theorem written_pbuf (a : Nat) (d : Page) (s : State) : (written a d s).pbuf = s.pbuf := rfl
@[simp] theorem written_crcHi (a : Nat) (d : Page) (s : State) : (written a d s).crcHi = s.crcHi := rfl
@[simp] theorem written_crcLo (a : Nat) (d : Page) (s : State) : (written a d s).crcLo = s.crcLo := rfl
@[simp] theorem written_agg (a : Nat) (d : Page) (s : State) : (written a d s).agg = s.agg := rfl
@[simp] theorem written_agg2 (a : Nat) (d : Page) (s : State) : (written a d s).agg2 = s.agg2 := rfl
@[simp] theorem written_curOp (a : Nat) (d : Page) (s : State) : (written a d s).curOp = s.curOp := rfl
@[simp] theorem written_base (a : Nat) (d : Page) (s : State) : (written a d s).base = s.base := rfl
@[simp] theorem written_idxJ (a : Nat) (d : Page) (s : State) : (written a d s).idxJ = s.idxJ := rfl
@[simp] theorem written_idxI (a : Nat) (d : Page) (s : State) : (written a d s).idxI = s.idxI := rfl
@[simp] theorem written_idxK (a : Nat) (d : Page) (s : State) : (written a d s).idxK = s.idxK := rfl
@[simp] theorem written_pending (a : Nat) (d : Page) (s : State) : (written a d s).pending = s.pending := rfl
@[simp] theorem written_cmd (a : Nat) (d : Page) (s : State) : (written a d s).cmd = s.cmd := rfl
@[simp] theorem written_wd (a : Nat) (d : Page) (s : State) : (written a d s).wd = s.wd := rfl
@[simp] theorem written_rd (a : Nat) (d : Page) (s : State) : (written a d s).rd = s.rd := rfl
@[simp] theorem written_rsp (a : Nat) (d : Page) (s : State) : (written a d s).rsp = s.rsp := rfl
@[simp] theorem written_log (a : Nat) (d : Page) (s : State) : (written a d s).log = .leafWrite a d :: s.log := rfl
@[simp] theorem written_rst (a : Nat) (d : Page) (s : State) : (written a d s).rst = s.rst := rfl
@[simp] theorem written_backend (a : Nat) (d : Page) (s : State) : (written a d s).backend = s.backend := rfl
@[simp] theorem written_answersLeft (a : Nat) (d : Page) (s : State) : (written a d s).answersLeft = s.answersLeft := rfl
@[simp] theorem written_draws (a : Nat) (d : Page) (s : State) : (written a d s).draws = s.draws := rfl

@[simp] theorem readInto_params (a : Nat) (s : State) : (readInto a s).params = s.params := rfl
@[simp] theorem readInto_status (a : Nat) (s : State) : (readInto a s).status = s.status := rfl
@[simp] theorem readInto_checkMode (a : Nat) (s : State) : (readInto a s).checkMode = s.checkMode := rfl
@[simp] theorem readInto_pbuf (a : Nat) (s : State) : (readInto a s).pbuf = readAnswer a s := rfl
@[simp] theorem readInto_crcHi (a : Nat) (s : State) : (readInto a s).crcHi = s.crcHi := rfl
@[simp] theorem readInto_crcLo (a : Nat) (s : State) : (readInto a s).crcLo = s.crcLo := rfl
@[simp] theorem readInto_agg (a : Nat) (s : State) : (readInto a s).agg = s.agg := rfl
@[simp] theorem readInto_agg2 (a : Nat) (s : State) : (readInto a s).agg2 = s.agg2 := rfl
@[simp] theorem readInto_curOp (a : Nat) (s : State) : (readInto a s).curOp = s.curOp := rfl
@[simp] theorem readInto_base (a : Nat) (s : State) : (readInto a s).base = s.base := rfl
@[simp] theorem readInto_idxJ (a : Nat) (s : State) : (readInto a s).idxJ = s.idxJ := rfl
@[simp] theorem readInto_idxI (a : Nat) (s : State) : (readInto a s).idxI = s.idxI := rfl
@[simp] theorem readInto_idxK (a : Nat) (s : State) : (readInto a s).idxK = s.idxK := rfl
@[simp] theorem readInto_pending (a : Nat) (s : State) : (readInto a s).pending = s.pending := rfl
@[simp] theorem readInto_cmd (a : Nat) (s : State) : (readInto a s).cmd = s.cmd := rfl
@[simp] theorem readInto_wd (a : Nat) (s : State) : (readInto a s).wd = s.wd := rfl
@[simp] theorem readInto_rd (a : Nat) (s : State) : (readInto a s).rd = s.rd := rfl
@[simp] theorem readInto_rsp (a : Nat) (s : State) : (readInto a s).rsp = s.rsp := rfl
@[simp] theorem readInto_log (a : Nat) (s : State) : (readInto a s).log = .leafRead a (readAnswer a s) :: s.log := rfl
@[simp] theorem readInto_rst (a : Nat) (s : State) : (readInto a s).rst = s.rst := rfl
@[simp] theorem readInto_backend (a : Nat) (s : State) : (readInto a s).backend = s.backend := rfl
@[simp] theorem readInto_answersLeft (a : Nat) (s : State) : (readInto a s).answersLeft = s.answersLeft := rfl
@[simp] theorem readInto_flash (a : Nat) (s : State) : (readInto a s).flash = s.flash := rfl

@[simp] theorem emitBeats_params (x : BitVec 8) (r : Ret) (s : State) : (emitBeats x r s).params = s.params := by unfold emitBeats; split <;> rfl
@[simp] theorem emitBeats_status (x : BitVec 8) (r : Ret) (s : State) : (emitBeats x r s).status = s.status := by unfold emitBeats; split <;> rfl
@[simp] theorem emitBeats_checkMode (x : BitVec 8) (r : Ret) (s : State) : (emitBeats x r s).checkMode = s.checkMode := by unfold emitBeats; split <;> rfl
@[simp] theorem emitBeats_pbuf (x : BitVec 8) (r : Ret) (s : State) : (emitBeats x r s).pbuf = s.pbuf := by unfold emitBeats; split <;> rfl
@[simp] theorem emitBeats_crcHi (x : BitVec 8) (r : Ret) (s : State) : (emitBeats x r s).crcHi = s.crcHi := by unfold emitBeats; split <;> rfl
@[simp] theorem emitBeats_crcLo (x : BitVec 8) (r : Ret) (s : State) : (emitBeats x r s).crcLo = s.crcLo := by unfold emitBeats; split <;> rfl
@[simp] theorem emitBeats_agg (x : BitVec 8) (r : Ret) (s : State) : (emitBeats x r s).agg = s.agg := by unfold emitBeats; split <;> rfl
@[simp] theorem emitBeats_agg2 (x : BitVec 8) (r : Ret) (s : State) : (emitBeats x r s).agg2 = s.agg2 := by unfold emitBeats; split <;> rfl
@[simp] theorem emitBeats_curOp (x : BitVec 8) (r : Ret) (s : State) : (emitBeats x r s).curOp = s.curOp := by unfold emitBeats; split <;> rfl
@[simp] theorem emitBeats_base (x : BitVec 8) (r : Ret) (s : State) : (emitBeats x r s).base = s.base := by unfold emitBeats; split <;> rfl
@[simp] theorem emitBeats_idxJ (x : BitVec 8) (r : Ret) (s : State) : (emitBeats x r s).idxJ = s.idxJ := by unfold emitBeats; split <;> rfl
@[simp] theorem emitBeats_idxI (x : BitVec 8) (r : Ret) (s : State) : (emitBeats x r s).idxI = s.idxI := by unfold emitBeats; split <;> rfl
@[simp] theorem emitBeats_idxK (x : BitVec 8) (r : Ret) (s : State) : (emitBeats x r s).idxK = s.idxK := by unfold emitBeats; split <;> rfl
@[simp] theorem emitBeats_pending (x : BitVec 8) (r : Ret) (s : State) : (emitBeats x r s).pending = s.pending := by unfold emitBeats; split <;> rfl
@[simp] theorem emitBeats_cmd (x : BitVec 8) (r : Ret) (s : State) : (emitBeats x r s).cmd = s.cmd := by unfold emitBeats; split <;> rfl
@[simp] theorem emitBeats_wd (x : BitVec 8) (r : Ret) (s : State) : (emitBeats x r s).wd = s.wd := by unfold emitBeats; split <;> rfl
@[simp] theorem emitBeats_rsp (x : BitVec 8) (r : Ret) (s : State) : (emitBeats x r s).rsp = s.rsp := by unfold emitBeats; split <;> rfl
@[simp] theorem emitBeats_log (x : BitVec 8) (r : Ret) (s : State) : (emitBeats x r s).log = s.log := by unfold emitBeats; split <;> rfl
@[simp] theorem emitBeats_rst (x : BitVec 8) (r : Ret) (s : State) : (emitBeats x r s).rst = s.rst := by unfold emitBeats; split <;> rfl
@[simp] theorem emitBeats_backend (x : BitVec 8) (r : Ret) (s : State) : (emitBeats x r s).backend = s.backend := by unfold emitBeats; split <;> rfl
@[simp] theorem emitBeats_answersLeft (x : BitVec 8) (r : Ret) (s : State) : (emitBeats x r s).answersLeft = s.answersLeft := by unfold emitBeats; split <;> rfl
@[simp] theorem emitBeats_flash (x : BitVec 8) (r : Ret) (s : State) : (emitBeats x r s).flash = s.flash := by unfold emitBeats; split <;> rfl
@[simp] theorem emitBeats_draws (x : BitVec 8) (r : Ret) (s : State) : (emitBeats x r s).draws = s.draws := by unfold emitBeats; split <;> rfl

@[simp] theorem foldPbuf_params (s : State) : (foldPbuf s).params = s.params := rfl
@[simp] theorem foldPbuf_status (s : State) : (foldPbuf s).status = s.status := rfl
@[simp] theorem foldPbuf_checkMode (s : State) : (foldPbuf s).checkMode = s.checkMode := rfl
@[simp] theorem foldPbuf_pbuf (s : State) : (foldPbuf s).pbuf = s.pbuf := rfl
@[simp] theorem foldPbuf_crcHi (s : State) : (foldPbuf s).crcHi = (crcFold (pageBytes s.pbuf)).1 := rfl
@[simp] theorem foldPbuf_crcLo (s : State) : (foldPbuf s).crcLo = (crcFold (pageBytes s.pbuf)).2 := rfl
@[simp] theorem foldPbuf_agg (s : State) : (foldPbuf s).agg = s.agg := rfl
@[simp] theorem foldPbuf_agg2 (s : State) : (foldPbuf s).agg2 = s.agg2 := rfl
@[simp] theorem foldPbuf_curOp (s : State) : (foldPbuf s).curOp = s.curOp := rfl
@[simp] theorem foldPbuf_base (s : State) : (foldPbuf s).base = s.base := rfl
@[simp] theorem foldPbuf_idxJ (s : State) : (foldPbuf s).idxJ = s.idxJ := rfl
@[simp] theorem foldPbuf_idxI (s : State) : (foldPbuf s).idxI = s.idxI := rfl
@[simp] theorem foldPbuf_idxK (s : State) : (foldPbuf s).idxK = s.idxK := rfl
@[simp] theorem foldPbuf_pending (s : State) : (foldPbuf s).pending = s.pending := rfl
@[simp] theorem foldPbuf_cmd (s : State) : (foldPbuf s).cmd = s.cmd := rfl
@[simp] theorem foldPbuf_wd (s : State) : (foldPbuf s).wd = s.wd := rfl
@[simp] theorem foldPbuf_rd (s : State) : (foldPbuf s).rd = s.rd := rfl
@[simp] theorem foldPbuf_rsp (s : State) : (foldPbuf s).rsp = s.rsp := rfl
@[simp] theorem foldPbuf_log (s : State) : (foldPbuf s).log = s.log := rfl
@[simp] theorem foldPbuf_rst (s : State) : (foldPbuf s).rst = s.rst := rfl
@[simp] theorem foldPbuf_backend (s : State) : (foldPbuf s).backend = s.backend := rfl
@[simp] theorem foldPbuf_answersLeft (s : State) : (foldPbuf s).answersLeft = s.answersLeft := rfl
@[simp] theorem foldPbuf_flash (s : State) : (foldPbuf s).flash = s.flash := rfl
@[simp] theorem foldPbuf_draws (s : State) : (foldPbuf s).draws = s.draws := rfl

@[simp] theorem accept_params (op : Opcode) (s : State) : (accept op s).params = s.params := rfl
@[simp] theorem accept_status (op : Opcode) (s : State) : (accept op s).status = s.status := rfl
@[simp] theorem accept_checkMode (op : Opcode) (s : State) : (accept op s).checkMode = s.checkMode := rfl
@[simp] theorem accept_pbuf (op : Opcode) (s : State) : (accept op s).pbuf = s.pbuf := rfl
@[simp] theorem accept_crcHi (op : Opcode) (s : State) : (accept op s).crcHi = s.crcHi := rfl
@[simp] theorem accept_crcLo (op : Opcode) (s : State) : (accept op s).crcLo = s.crcLo := rfl
@[simp] theorem accept_agg (op : Opcode) (s : State) : (accept op s).agg = s.agg := rfl
@[simp] theorem accept_agg2 (op : Opcode) (s : State) : (accept op s).agg2 = s.agg2 := rfl
@[simp] theorem accept_curOp (op : Opcode) (s : State) : (accept op s).curOp = some op := rfl
@[simp] theorem accept_base (op : Opcode) (s : State) : (accept op s).base = s.base := rfl
@[simp] theorem accept_idxJ (op : Opcode) (s : State) : (accept op s).idxJ = s.idxJ := rfl
@[simp] theorem accept_idxI (op : Opcode) (s : State) : (accept op s).idxI = s.idxI := rfl
@[simp] theorem accept_idxK (op : Opcode) (s : State) : (accept op s).idxK = s.idxK := rfl
@[simp] theorem accept_pending (op : Opcode) (s : State) : (accept op s).pending = s.pending := rfl
@[simp] theorem accept_cmd (op : Opcode) (s : State) : (accept op s).cmd = s.cmd := rfl
@[simp] theorem accept_wd (op : Opcode) (s : State) : (accept op s).wd = s.wd := rfl
@[simp] theorem accept_rd (op : Opcode) (s : State) : (accept op s).rd = [] := rfl
@[simp] theorem accept_rsp (op : Opcode) (s : State) : (accept op s).rsp = none := rfl
@[simp] theorem accept_log (op : Opcode) (s : State) : (accept op s).log = [] := rfl
@[simp] theorem accept_rst (op : Opcode) (s : State) : (accept op s).rst = s.rst := rfl
@[simp] theorem accept_backend (op : Opcode) (s : State) : (accept op s).backend = s.backend := rfl
@[simp] theorem accept_answersLeft (op : Opcode) (s : State) : (accept op s).answersLeft = s.answersLeft := rfl
@[simp] theorem accept_flash (op : Opcode) (s : State) : (accept op s).flash = s.flash := rfl
@[simp] theorem accept_draws (op : Opcode) (s : State) : (accept op s).draws = s.draws := rfl

@[simp] theorem respond_params (r : Ret) (s : State) : (respond r s).params = s.params := rfl
@[simp] theorem respond_status (r : Ret) (s : State) : (respond r s).status = s.status := rfl
@[simp] theorem respond_checkMode (r : Ret) (s : State) : (respond r s).checkMode = s.checkMode := rfl
@[simp] theorem respond_pbuf (r : Ret) (s : State) : (respond r s).pbuf = s.pbuf := rfl
@[simp] theorem respond_crcHi (r : Ret) (s : State) : (respond r s).crcHi = s.crcHi := rfl
@[simp] theorem respond_crcLo (r : Ret) (s : State) : (respond r s).crcLo = s.crcLo := rfl
@[simp] theorem respond_agg (r : Ret) (s : State) : (respond r s).agg = s.agg := rfl
@[simp] theorem respond_agg2 (r : Ret) (s : State) : (respond r s).agg2 = s.agg2 := rfl
@[simp] theorem respond_curOp (r : Ret) (s : State) : (respond r s).curOp = none := rfl
@[simp] theorem respond_base (r : Ret) (s : State) : (respond r s).base = s.base := rfl
@[simp] theorem respond_idxJ (r : Ret) (s : State) : (respond r s).idxJ = s.idxJ := rfl
@[simp] theorem respond_idxI (r : Ret) (s : State) : (respond r s).idxI = s.idxI := rfl
@[simp] theorem respond_idxK (r : Ret) (s : State) : (respond r s).idxK = s.idxK := rfl
@[simp] theorem respond_pending (r : Ret) (s : State) : (respond r s).pending = s.pending := rfl
@[simp] theorem respond_cmd (r : Ret) (s : State) : (respond r s).cmd = s.cmd := rfl
@[simp] theorem respond_wd (r : Ret) (s : State) : (respond r s).wd = s.wd := rfl
@[simp] theorem respond_rd (r : Ret) (s : State) : (respond r s).rd = s.rd := rfl
@[simp] theorem respond_rsp (r : Ret) (s : State) : (respond r s).rsp = some { result := r.result, crc := r.crc.getD (Config.freeCrc s.draws), rdata := r.pages } := rfl
@[simp] theorem respond_log (r : Ret) (s : State) : (respond r s).log = s.log := rfl
@[simp] theorem respond_rst (r : Ret) (s : State) : (respond r s).rst = s.rst := rfl
@[simp] theorem respond_backend (r : Ret) (s : State) : (respond r s).backend = s.backend := rfl
@[simp] theorem respond_answersLeft (r : Ret) (s : State) : (respond r s).answersLeft = s.answersLeft := rfl
@[simp] theorem respond_flash (r : Ret) (s : State) : (respond r s).flash = s.flash := rfl
@[simp] theorem respond_draws (r : Ret) (s : State) : (respond r s).draws = s.draws + 1 := rfl

@[simp] theorem loadBase_params (x : Addr) (s : State) : (loadBase x s).params = s.params := by unfold loadBase; split <;> rfl
@[simp] theorem loadBase_status (x : Addr) (s : State) : (loadBase x s).status = s.status := by unfold loadBase; split <;> rfl
@[simp] theorem loadBase_checkMode (x : Addr) (s : State) : (loadBase x s).checkMode = s.checkMode := by unfold loadBase; split <;> rfl
@[simp] theorem loadBase_pbuf (x : Addr) (s : State) : (loadBase x s).pbuf = s.pbuf := by unfold loadBase; split <;> rfl
@[simp] theorem loadBase_crcHi (x : Addr) (s : State) : (loadBase x s).crcHi = s.crcHi := by unfold loadBase; split <;> rfl
@[simp] theorem loadBase_crcLo (x : Addr) (s : State) : (loadBase x s).crcLo = s.crcLo := by unfold loadBase; split <;> rfl
@[simp] theorem loadBase_agg (x : Addr) (s : State) : (loadBase x s).agg = s.agg := by unfold loadBase; split <;> rfl
@[simp] theorem loadBase_agg2 (x : Addr) (s : State) : (loadBase x s).agg2 = s.agg2 := by unfold loadBase; split <;> rfl
@[simp] theorem loadBase_curOp (x : Addr) (s : State) : (loadBase x s).curOp = s.curOp := by unfold loadBase; split <;> rfl
@[simp] theorem loadBase_idxJ (x : Addr) (s : State) : (loadBase x s).idxJ = s.idxJ := by unfold loadBase; split <;> rfl
@[simp] theorem loadBase_idxI (x : Addr) (s : State) : (loadBase x s).idxI = s.idxI := by unfold loadBase; split <;> rfl
@[simp] theorem loadBase_idxK (x : Addr) (s : State) : (loadBase x s).idxK = s.idxK := by unfold loadBase; split <;> rfl
@[simp] theorem loadBase_pending (x : Addr) (s : State) : (loadBase x s).pending = s.pending := by unfold loadBase; split <;> rfl
@[simp] theorem loadBase_cmd (x : Addr) (s : State) : (loadBase x s).cmd = s.cmd := by unfold loadBase; split <;> rfl
@[simp] theorem loadBase_wd (x : Addr) (s : State) : (loadBase x s).wd = s.wd := by unfold loadBase; split <;> rfl
@[simp] theorem loadBase_rd (x : Addr) (s : State) : (loadBase x s).rd = s.rd := by unfold loadBase; split <;> rfl
@[simp] theorem loadBase_rsp (x : Addr) (s : State) : (loadBase x s).rsp = s.rsp := by unfold loadBase; split <;> rfl
@[simp] theorem loadBase_log (x : Addr) (s : State) : (loadBase x s).log = s.log := by unfold loadBase; split <;> rfl
@[simp] theorem loadBase_rst (x : Addr) (s : State) : (loadBase x s).rst = s.rst := by unfold loadBase; split <;> rfl
@[simp] theorem loadBase_backend (x : Addr) (s : State) : (loadBase x s).backend = s.backend := by unfold loadBase; split <;> rfl
@[simp] theorem loadBase_answersLeft (x : Addr) (s : State) : (loadBase x s).answersLeft = s.answersLeft := by unfold loadBase; split <;> rfl
@[simp] theorem loadBase_flash (x : Addr) (s : State) : (loadBase x s).flash = s.flash := by unfold loadBase; split <;> rfl
@[simp] theorem loadBase_draws (x : Addr) (s : State) : (loadBase x s).draws = s.draws := by unfold loadBase; split <;> rfl

@[simp] theorem clearAgg_sector_agg (s : State) : (clearAgg .sector s).agg = Result.ok := rfl
@[simp] theorem clearAgg_sector_agg2 (s : State) : (clearAgg .sector s).agg2 = s.agg2 := rfl
@[simp] theorem clearAgg_block_agg (s : State) : (clearAgg .block s).agg = s.agg := rfl
@[simp] theorem clearAgg_block_agg2 (s : State) : (clearAgg .block s).agg2 = Result.ok := rfl
@[simp] theorem foldAgg_sector_agg (r : Result) (s : State) : (foldAgg .sector r s).agg = firstFail s.agg r := rfl
@[simp] theorem foldAgg_sector_agg2 (r : Result) (s : State) : (foldAgg .sector r s).agg2 = s.agg2 := rfl
@[simp] theorem foldAgg_block_agg (r : Result) (s : State) : (foldAgg .block r s).agg = s.agg := rfl
@[simp] theorem foldAgg_block_agg2 (r : Result) (s : State) : (foldAgg .block r s).agg2 = firstFail s.agg2 r := rfl
@[simp] theorem foldAgg_full_agg (r : Result) (s : State) : (foldAgg .full r s).agg = s.agg := rfl
@[simp] theorem foldAgg_full_agg2 (r : Result) (s : State) : (foldAgg .full r s).agg2 = s.agg2 := rfl
@[simp] theorem setIdx_sector_idxI (n : Nat) (s : State) : (setIdx .sector n s).idxI = BitVec.ofNat 4 n := rfl
@[simp] theorem setIdx_sector_idxJ (n : Nat) (s : State) : (setIdx .sector n s).idxJ = s.idxJ := rfl
@[simp] theorem setIdx_sector_idxK (n : Nat) (s : State) : (setIdx .sector n s).idxK = s.idxK := rfl
@[simp] theorem setIdx_block_idxI (n : Nat) (s : State) : (setIdx .block n s).idxI = s.idxI := rfl
@[simp] theorem setIdx_block_idxJ (n : Nat) (s : State) : (setIdx .block n s).idxJ = BitVec.ofNat 4 n := rfl
@[simp] theorem setIdx_block_idxK (n : Nat) (s : State) : (setIdx .block n s).idxK = s.idxK := rfl
@[simp] theorem setIdx_full_idxI (n : Nat) (s : State) : (setIdx .full n s).idxI = s.idxI := rfl
@[simp] theorem setIdx_full_idxJ (n : Nat) (s : State) : (setIdx .full n s).idxJ = s.idxJ := rfl
@[simp] theorem setIdx_full_idxK (n : Nat) (s : State) : (setIdx .full n s).idxK = BitVec.ofNat 24 n := rfl

/-- An answered leaf erase on the reference backend (R41). -/
theorem erased_flash_reference (a : Nat) (s : State) (h : s.backend = .reference) :
    (erased a s).flash = s.flash.erasePage a := by simp [erased, h]

/-- An answered leaf write on the reference backend (R41). -/
theorem written_flash_reference (a : Nat) (d : Page) (s : State) (h : s.backend = .reference) :
    (written a d s).flash = s.flash.writePage a d := by simp [written, h]

/-- The answer to a leaf read on the reference backend (R41). -/
theorem readAnswer_reference (a : Nat) (s : State) (h : s.backend = .reference) : readAnswer a s = s.flash.page a := by
  simp [readAnswer, h]

@[simp] theorem emitBeats_ok (x : BitVec 8) (ps : List Page) (c : Option (BitVec 16)) (s : State) :
    (emitBeats x ⟨.ok, ps, c⟩ s).rd = ps.map (RdBeat.mk x) ++ s.rd := rfl

@[simp] theorem emitBeats_fail (x : BitVec 8) (ps : List Page) (c : Option (BitVec 16)) (s : State) :
    emitBeats x ⟨.fail, ps, c⟩ s = s := rfl

/-- BASE after the address operand of a command at a valid address (R19). -/
theorem loadBase_of_valid (x : Addr) (s : State) (h : valid s.params x.toNat = true) :
    loadBase x s = { s with base := x } := by simp [loadBase, h]

/-- A command whose address is not valid changes no register (R113). -/
theorem loadBase_of_invalid (x : Addr) (s : State) (h : valid s.params x.toNat = false) : loadBase x s = s := by
  simp [loadBase, h]

end Sys2Proof.Machine
end

