-- ==== Sys2Proof/Laws/Ops.lean ====
section
/-! SUPPORT. The laws of the shared operations: how a procedure ends (`Ends`), one induction for the loop over
sub-operations, what each page and compound procedure can do, and predicates that every command keeps (`Stable`). -/

namespace Sys2Proof.Machine

open Sys2Proof

/-! ### How a procedure ends -/

/-- `P` of the value and state of a procedure that came to its end, `Q` of the state of one that waits. -/
def Ends {α : Type} (P : α → State → Prop) (Q : State → Prop) : Flow α → Prop
  | .done v s => P v s
  | .waiting s => Q s

@[simp] theorem ends_done {α : Type} (P : α → State → Prop) (Q : State → Prop) (v : α) (s : State) :
    Ends P Q (.done v s) = P v s := rfl

@[simp] theorem ends_waiting {α : Type} (P : α → State → Prop) (Q : State → Prop) (s : State) :
    Ends P Q (.waiting s : Flow α) = Q s := rfl

@[simp] theorem andThen_done {α β : Type} (v : α) (s : State) (k : α → State → Flow β) :
    andThen (.done v s) k = k v s := rfl

@[simp] theorem andThen_waiting {α β : Type} (s : State) (k : α → State → Flow β) :
    andThen (.waiting s) k = .waiting s := rfl

theorem ends_andThen {α β : Type} {P : α → State → Prop} {P' : β → State → Prop} {Q : State → Prop} {f : Flow α}
    {k : α → State → Flow β} (hf : Ends P Q f) (hk : ∀ v t, P v t → Ends P' Q (k v t)) : Ends P' Q (andThen f k) := by
  cases f with
  | done v t => exact hk v t hf
  | waiting t => exact hf

theorem ends_mono {α : Type} {P P' : α → State → Prop} {Q Q' : State → Prop} {f : Flow α} (hf : Ends P Q f)
    (hp : ∀ v t, P v t → P' v t) (hq : ∀ t, Q t → Q' t) : Ends P' Q' f := by
  cases f with
  | done v t => exact hp v t hf
  | waiting t => exact hq t hf

/-- A procedure that cannot wait comes to its end. -/
theorem ends_exists {α : Type} {P : α → State → Prop} {f : Flow α} (hf : Ends P (fun _ => False) f) :
    ∃ v t, f = .done v t ∧ P v t := by
  cases f with
  | done v t => exact ⟨v, t, rfl, hf⟩
  | waiting t => exact hf.elim

/-! ### The loop over sub-operations -/

/-- The one induction over `subOps`: an invariant of position, pages so far and state that each sub-operation carries
one position further. -/
theorem subOps_ends (l : Level) (body : Nat → State → Flow Ret) (I : Nat → List Page → State → Prop)
    (Q : State → Prop) (N : Nat)
    (hbody : ∀ k < N, ∀ out s, I k out s →
      Ends (fun r t => I (k + 1) (out ++ r.pages) (foldAgg l r.result t)) Q (body k (setIdx l k s)))
    (n i : Nat) (hn : i + n = N) (out : List Page) (s : State) (hI : I i out s) :
    Ends (fun ps t => I N ps t) Q (subOps l body n i out s) := by
  induction n generalizing i out s with
  | zero => obtain rfl : i = N := by omega
            exact hI
  | succ n ih =>
    exact ends_andThen (hbody i (by omega) out s hI) fun r t ht => ih (i + 1) (by omega) _ _ ht

/-! ### Leaf requests -/

theorem leafExchange_answered (q : LeafReq) (s : State) (h : s.answersLeft = none) : leafExchange q s = .done () s := by
  simp [leafExchange, h]

theorem leafExchange_silent (q : LeafReq) (s : State) (h : s.answersLeft = some 0) :
    leafExchange q s = .waiting { s with pending := some q } := by simp [leafExchange, h]

/-- A backend that answers only so many requests answers one fewer. -/
theorem leafExchange_counted (q : LeafReq) (s : State) (n : Nat) (h : s.answersLeft = some (n + 1)) :
    leafExchange q s = .done () { s with answersLeft := some n } := by simp [leafExchange, h]

/-- Everything a leaf exchange can do. -/
theorem leafExchange_ends (q : LeafReq) (s : State) {P : State → Prop} {Q : State → Prop} (hn : P s)
    (hs : ∀ n, P { s with answersLeft := some n }) (hw : Q { s with pending := some q }) :
    Ends (fun _ => P) Q (leafExchange q s) := by
  unfold leafExchange
  split
  · exact hn
  · exact hw
  · exact hs _

theorem leafErase_answered (a : Nat) (s : State) (h : s.answersLeft = none) : leafErase a s = .done () (erased a s) := by
  simp [leafErase, leafExchange_answered _ s h]

theorem leafWrite_answered (a : Nat) (d : Page) (s : State) (h : s.answersLeft = none) :
    leafWrite a d s = .done () (written a d s) := by
  simp [leafWrite, leafExchange_answered _ s h]

theorem leafRead_answered (a : Nat) (s : State) (h : s.answersLeft = none) : leafRead a s = .done () (readInto a s) := by
  simp [leafRead, leafExchange_answered _ s h]

/-! ### Page procedures -/

@[simp] theorem failWith_zero (s : State) : failWith 0 s = .done { result := .fail } s := rfl

theorem erasePage_invalid (a : Nat) (s : State) (h : valid s.params a = false) : erasePage a s = failWith 0 s := by
  simp [erasePage, h]

theorem writePage_invalid (a : Nat) (d : Page) (s : State) (h : valid s.params a = false) :
    writePage a d s = failWith 0 s := by
  simp [writePage, h]

theorem getPage_invalid (a : Nat) (s : State) (h : valid s.params a = false) : getPage a s = failWith 1 s := by
  simp [getPage, h]

/-- R80 past validation, with a backend that answers. -/
theorem erasePage_valid (a : Nat) (s : State) (h : valid s.params a = true) (hr : s.answersLeft = none) :
    erasePage a s = .done { result := .ok } (setStatus .free (erased a (setStatus .erasingPage s))) := by
  simp [erasePage, h, leafErase_answered, hr]

/-- R85 past validation, with a backend that answers. -/
theorem writePage_valid (a : Nat) (d : Page) (s : State) (h : valid s.params a = true) (hr : s.answersLeft = none) :
    writePage a d s =
      .done { result := .ok } (setStatus .free (written a d (loadPbuf d (setStatus .writingPage s)))) := by
  simp [writePage, h, leafWrite_answered, hr]

/-- R89 past validation, with a backend that answers. -/
theorem getPage_valid (a : Nat) (s : State) (h : valid s.params a = true) (hr : s.answersLeft = none) :
    getPage a s = .done { result := .ok, pages := [readAnswer a (setStatus .readingPage s)] }
      (setStatus .free (readInto a (setStatus .readingPage s))) := by
  simp [getPage, h, leafRead_answered, hr]

/-! ### Compound procedures -/

theorem compound_invalid (l : Level) (v : Status) (lost a : Nat) (body : Nat → State → Flow Ret) (s : State)
    (h : valid s.params a = false) : compound l v lost a body s = failWith lost s := by
  simp [compound, h]

/-- How a compound procedure past its validation ends, from an invariant of its loop. -/
theorem compound_ends (l : Level) (v : Status) (lost a : Nat) (body : Nat → State → Flow Ret) (s : State)
    (h : valid s.params a = true) (I : Nat → List Page → State → Prop) (Q : State → Prop)
    (h0 : I 0 [] (clearAgg l (setStatus v s)))
    (hbody : ∀ k < 16, ∀ out t, I k out t →
      Ends (fun r u => I (k + 1) (out ++ r.pages) (foldAgg l r.result u)) Q (body k (setIdx l k t))) :
    Ends (fun r u => ∃ t, I 16 r.pages t ∧ u = setStatus .free t ∧ r.result = report l t ∧ r.crc = none) Q
      (compound l v lost a body s) := by
  rw [compound, if_pos h]
  exact ends_andThen (subOps_ends l body I Q 16 hbody 16 0 rfl [] _ h0) fun ps t ht => ⟨t, ht, rfl, rfl, rfl⟩

/-! ### Predicates that every command keeps -/

/-- The state in which a command stops at a leaf request that the backend does not answer, `P` having held up to there:
the request is at a valid address, and STATUS is at its page procedure's value (R136). -/
def Hung (P : State → Prop) (u : State) : Prop :=
  ∃ t q, P t ∧ u = { t with pending := some q } ∧ valid t.params q.addr = true ∧ t.status = (LeafReq.status q).code

/-- A predicate that each operation of a command keeps; with `c` it is kept by writes of CHECK_MODE as well. -/
structure Stable (c : Bool) (P : State → Prop) : Prop where
  setStatus : ∀ v s, P s → P (setStatus v s)
  setCheckMode : c = true → ∀ b s, P s → P (setCheckMode b s)
  clearAgg : ∀ l s, P s → P (clearAgg l s)
  foldAgg : ∀ l r s, P s → P (foldAgg l r s)
  setIdx : ∀ l n s, P s → P (setIdx l n s)
  loadPbuf : ∀ d s, P s → P (loadPbuf d s)
  loadBase : ∀ x s, P s → P (loadBase x s)
  erased : ∀ a s, valid s.params a = true → P s → P (erased a s)
  written : ∀ a d s, valid s.params a = true → P s → P (written a d s)
  readInto : ∀ a s, valid s.params a = true → P s → P (readInto a s)
  emitBeats : ∀ x r s, P s → P (emitBeats x r s)
  foldPbuf : ∀ s, P s → P (foldPbuf s)
  answer : ∀ n s, P s → P { s with answersLeft := some n }
  draw : ∀ n s, P s → P { s with draws := n }

section Stable

variable {c : Bool} {P : State → Prop}

theorem failWith_stable (h : Stable c P) (n : Nat) (s : State) (hs : P s) :
    Ends (fun _ => P) (Hung P) (failWith n s) := h.draw _ s hs

theorem erasePage_stable (h : Stable c P) (a : Nat) (s : State) (hs : P s) :
    Ends (fun _ => P) (Hung P) (erasePage a s) := by
  unfold erasePage
  split
  · next hv =>
    have hs' := h.setStatus .erasingPage s hs
    refine ends_andThen (P := fun _ t => P t)
      (ends_andThen (P := fun _ t => P t ∧ valid t.params a = true)
        (leafExchange_ends (P := fun t => P t ∧ valid t.params a = true) _ _ ⟨hs', hv⟩
          (fun n => ⟨h.answer n _ hs', hv⟩) ⟨_, _, hs', rfl, hv, rfl⟩)
        fun _ t ht => h.erased a t ht.2 ht.1)
      fun _ t ht => h.setStatus .free t ht
  · exact failWith_stable h 0 s hs

theorem writePage_stable (h : Stable c P) (a : Nat) (d : Page) (s : State) (hs : P s) :
    Ends (fun _ => P) (Hung P) (writePage a d s) := by
  unfold writePage
  split
  · next hv =>
    have hs' := h.loadPbuf d _ (h.setStatus .writingPage s hs)
    refine ends_andThen (P := fun _ t => P t)
      (ends_andThen (P := fun _ t => P t ∧ valid t.params a = true)
        (leafExchange_ends (P := fun t => P t ∧ valid t.params a = true) _ _ ⟨hs', hv⟩
          (fun n => ⟨h.answer n _ hs', hv⟩) ⟨_, _, hs', rfl, hv, rfl⟩)
        fun _ t ht => h.written a d t ht.2 ht.1)
      fun _ t ht => h.setStatus .free t ht
  · exact failWith_stable h 0 s hs

theorem getPage_stable (h : Stable c P) (a : Nat) (s : State) (hs : P s) :
    Ends (fun _ => P) (Hung P) (getPage a s) := by
  unfold getPage
  split
  · next hv =>
    have hs' := h.setStatus .readingPage s hs
    refine ends_andThen (P := fun _ t => P t)
      (ends_andThen (P := fun _ t => P t ∧ valid t.params a = true)
        (leafExchange_ends (P := fun t => P t ∧ valid t.params a = true) _ _ ⟨hs', hv⟩
          (fun n => ⟨h.answer n _ hs', hv⟩) ⟨_, _, hs', rfl, hv, rfl⟩)
        fun _ t ht => h.readInto a t ht.2 ht.1)
      fun _ t ht => h.setStatus .free t ht
  · exact failWith_stable h 1 s hs

theorem getPageBeat_stable (h : Stable c P) (j i a : Nat) (s : State) (hs : P s) :
    Ends (fun _ => P) (Hung P) (getPageBeat j i a s) :=
  ends_andThen (getPage_stable h a s hs) fun r t ht => h.emitBeats _ r t ht

theorem subOps_stable (h : Stable c P) (l : Level) (body : Nat → State → Flow Ret)
    (hbody : ∀ k s, P s → Ends (fun _ => P) (Hung P) (body k s)) (n i : Nat) (out : List Page) (s : State) (hs : P s) :
    Ends (fun _ => P) (Hung P) (subOps l body n i out s) :=
  subOps_ends l body (fun _ _ => P) (Hung P) (i + n)
    (fun k _ _ t ht => ends_mono (hbody k _ (h.setIdx l k t ht)) (fun r u hu => h.foldAgg l r.result u hu) fun _ => id)
    n i rfl out s hs

theorem compound_stable (h : Stable c P) (l : Level) (v : Status) (lost a : Nat) (body : Nat → State → Flow Ret)
    (hbody : ∀ k s, P s → Ends (fun _ => P) (Hung P) (body k s)) (s : State) (hs : P s) :
    Ends (fun _ => P) (Hung P) (compound l v lost a body s) := by
  unfold compound
  split
  · exact ends_andThen (subOps_stable h l body hbody 16 0 [] _ (h.clearAgg l _ (h.setStatus v s hs)))
      fun _ t ht => h.setStatus .free t ht
  · exact failWith_stable h lost s hs

end Stable

end Sys2Proof.Machine
end

