-- ==== Sys2Proof/Laws/Exec.lean ====
section
/-! SUPPORT. The laws of `exec` and `step`: every command is its procedure run between acceptance and answer, and a
predicate that each operation keeps is kept by every command. -/

namespace Sys2Proof.Machine

open Sys2Proof

/-- The procedure that dispatch runs for a command (R75). -/
def procOf (i : Instr) (s : State) : Flow Ret :=
  match i with
  | .erasePage addr => erasePage addr.toNat (loadBase addr s)
  | .eraseSector addr => eraseSector addr.toNat (loadBase addr s)
  | .eraseBlock addr => eraseBlock addr.toNat (loadBase addr s)
  | .eraseFull _ => eraseFull s
  | .writePage addr d => writePage addr.toNat d (loadBase addr s)
  | .writeSector addr d => writeSector addr.toNat d (loadBase addr s)
  | .writeBlock addr d => writeBlock addr.toNat d (loadBase addr s)
  | .getPage addr => getPageBeat 0 0 addr.toNat (loadBase addr s)
  | .getSector addr => getSector 0 addr.toNat (loadBase addr s)
  | .getBlock addr => getBlock addr.toNat (loadBase addr s)
  | .getPageCrc16 addr => getPageCrc16 addr.toNat (loadBase addr s)
  | .enableCheckMode _ => writeCheckMode true s
  | .disableCheckMode _ => writeCheckMode false s
  | .reserved0 _ => reservedOp s
  | .reservedE _ => reservedOp s
  | .reservedF _ => reservedOp s

/-- Every well-formed command is `runCommand` of its opcode and its procedure. -/
theorem exec_eq (i : Instr) (s : State) (h : i.wf = true) : exec i s = runCommand i.opcode (procOf i) s := by
  cases i with
  | writeSector addr d =>
    have hd : d.length = 16 := by simpa [Instr.wf] using h
    simp only [exec, execWriteSector, hd, if_true]
    rfl
  | writeBlock addr d =>
    have hd : d.length = 256 := by simpa [Instr.wf] using h
    simp only [exec, execWriteBlock, hd, if_true]
    rfl
  | _ => rfl

/-- A write of a buffer of the wrong length is refused (R48, U17). -/
theorem exec_illFormed (i : Instr) (s : State) (h : i.wf = false) : exec i s = .refused .wrongDataLength := by
  cases i with
  | writeSector addr d =>
    have hd : d.length ≠ 16 := by simpa [Instr.wf] using h
    simp [exec, execWriteSector, hd]
  | writeBlock addr d =>
    have hd : d.length ≠ 256 := by simpa [Instr.wf] using h
    simp [exec, execWriteBlock, hd]
  | _ => simp [Instr.wf] at h

/-- A well-formed command under a well-formed configuration answers this next state. -/
theorem exec_next (i : Instr) (s : State) (hi : i.wf = true) (hp : s.params.wf = true) :
    exec i s = .next (finish (procOf i (accept i.opcode s))) := by
  rw [exec_eq i s hi, runCommand, if_pos hp]

/-- Where `exec` answers a next state, this is it. -/
theorem exec_next_inv (i : Instr) (s t : State) (h : exec i s = .next t) :
    i.wf = true ∧ s.params.wf = true ∧ t = finish (procOf i (accept i.opcode s)) := by
  cases hi : i.wf with
  | false => simp [exec_illFormed i s hi] at h
  | true =>
    rw [exec_eq i s hi, runCommand] at h
    split at h
    · next hp => exact ⟨rfl, hp, (Host.Outcome.next.inj h).symm⟩
    · cases h

/-- A command does not fault. -/
theorem exec_not_fault (i : Instr) (s : State) (f : Fault) : exec i s ≠ .fault f := by
  cases hi : i.wf with
  | false => simp [exec_illFormed i s hi]
  | true =>
    rw [exec_eq i s hi, runCommand]
    split <;> simp

section Stable

variable {c : Bool} {P : State → Prop}

theorem eraseFull_stable (h : Stable c P) (s : State) (hs : P s) : Ends (fun _ => P) (Hung P) (eraseFull s) := by
  unfold eraseFull
  split
  · exact ends_andThen (subOps_stable h .full _ (fun k t ht => erasePage_stable h _ t ht) _ 0 [] _ (h.setStatus _ s hs))
      fun _ t ht => h.setStatus .free t ht
  · exact failWith_stable h 0 s hs

theorem writeSector_stable (h : Stable c P) (a : Nat) (d : List Page) (s : State) (hs : P s) :
    Ends (fun _ => P) (Hung P) (writeSector a d s) :=
  compound_stable h _ _ _ _ _ (fun _ t ht => writePage_stable h _ _ t ht) s hs

theorem getSector_stable (h : Stable c P) (j a : Nat) (s : State) (hs : P s) :
    Ends (fun _ => P) (Hung P) (getSector j a s) :=
  compound_stable h _ _ _ _ _ (fun _ t ht => getPageBeat_stable h _ _ _ t ht) s hs

theorem getPageCrc16_stable (h : Stable c P) (a : Nat) (s : State) (hs : P s) :
    Ends (fun _ => P) (Hung P) (getPageCrc16 a s) := by
  refine ends_andThen (getPage_stable h a s hs) fun r t ht => ?_
  split
  · exact ht
  · exact h.foldPbuf t ht

/-- A predicate that each operation keeps is kept by every command's procedure. -/
theorem procOf_stable (h : Stable c P) (i : Instr) (hi : c = true ∨ writesCheckMode i = false) (s : State) (hs : P s) :
    Ends (fun _ => P) (Hung P) (procOf i s) := by
  cases i with
  | erasePage a => exact erasePage_stable h _ _ (h.loadBase a s hs)
  | eraseSector a => exact compound_stable h _ _ _ _ _ (fun _ t ht => erasePage_stable h _ t ht) _ (h.loadBase a s hs)
  | eraseBlock a => exact compound_stable h _ _ _ _ _ (fun _ t ht => erasePage_stable h _ t ht) _ (h.loadBase a s hs)
  | eraseFull _ => exact eraseFull_stable h s hs
  | writePage a d => exact writePage_stable h _ d _ (h.loadBase a s hs)
  | writeSector a d => exact writeSector_stable h _ d _ (h.loadBase a s hs)
  | writeBlock a d =>
    exact compound_stable h _ _ _ _ _ (fun _ t ht => writeSector_stable h _ _ t ht) _ (h.loadBase a s hs)
  | getPage a => exact getPageBeat_stable h _ _ _ _ (h.loadBase a s hs)
  | getSector a => exact getSector_stable h _ _ _ (h.loadBase a s hs)
  | getBlock a => exact compound_stable h _ _ _ _ _ (fun _ t ht => getSector_stable h _ _ t ht) _ (h.loadBase a s hs)
  | getPageCrc16 a => exact getPageCrc16_stable h _ _ (h.loadBase a s hs)
  | enableCheckMode _ => exact h.setCheckMode (by simpa [writesCheckMode] using hi) true s hs
  | disableCheckMode _ => exact h.setCheckMode (by simpa [writesCheckMode] using hi) false s hs
  | reserved0 _ => exact failWith_stable h 0 s hs
  | reservedE _ => exact failWith_stable h 0 s hs
  | reservedF _ => exact failWith_stable h 0 s hs

/-- Everything a command can end in: answered, or waiting for a silent backend; in either case a predicate that each
operation keeps has been kept from acceptance on. -/
theorem exec_stable (h : Stable c P) (i : Instr) (hi : c = true ∨ writesCheckMode i = false) (s t : State)
    (he : exec i s = .next t) (hs : P (accept i.opcode s)) : (∃ r u, P u ∧ t = respond r u) ∨ Hung P t := by
  obtain ⟨_, _, rfl⟩ := exec_next_inv i s t he
  have := procOf_stable h i hi _ hs
  cases hf : procOf i (accept i.opcode s) with
  | done r u => rw [hf] at this; exact .inl ⟨r, u, this, rfl⟩
  | waiting u => rw [hf] at this; exact .inr this

end Stable

/-! ### The step -/

theorem step_reset (s : State) (h : s.rst = true) : step s = .next (applyReset s) := by simp [step, h]

theorem step_waiting (s : State) (hr : s.rst = false) (hb : s.busy = true) : step s = .fault .backendSilent := by
  simp [step, hr, hb]

theorem step_idle (s : State) (hr : s.rst = false) (hb : s.busy = false) (hf : fetch s = none) : step s = .next s := by
  simp [step, hr, hb, hf]

theorem step_command (s : State) (hr : s.rst = false) (hb : s.busy = false) (i : Instr) (t : State)
    (hf : fetch s = some (i, t)) : step s = exec i t := by
  simp [step, hr, hb, hf]

/-- Everything a step that answers a next state can be. -/
theorem step_cases (s t : State) (h : step s = .next t) :
    (s.rst = true ∧ t = applyReset s) ∨ (s.rst = false ∧ s.busy = false ∧ fetch s = none ∧ t = s) ∨
      (s.rst = false ∧ s.busy = false ∧ ∃ i u, fetch s = some (i, u) ∧ exec i u = .next t) := by
  cases hr : s.rst with
  | true =>
    rw [step_reset s hr] at h
    exact .inl ⟨rfl, (Host.Outcome.next.inj h).symm⟩
  | false =>
    cases hb : s.busy with
    | true => simp [step_waiting s hr hb] at h
    | false =>
      cases hf : fetch s with
      | none =>
        rw [step_idle s hr hb hf] at h
        exact .inr (.inl ⟨rfl, rfl, rfl, (Host.Outcome.next.inj h).symm⟩)
      | some p =>
        rw [step_command s hr hb p.1 p.2 hf] at h
        exact .inr (.inr ⟨rfl, rfl, p.1, p.2, rfl, h⟩)

/-- Taking a command from the channels moves nothing else. -/
theorem fetch_state (s : State) (i : Instr) (u : State) (h : fetch s = some (i, u)) :
    ∃ rest wd, u = { s with cmd := rest, wd := wd } := by
  unfold fetch at h
  split at h
  · cases h
  · split at h
    · cases h
    · cases h
      exact ⟨_, _, rfl⟩

end Sys2Proof.Machine
end

