-- ==== Sys2Proof/Laws/Decode.lean ====
section
/-! SUPPORT. The laws of the encodings: fields of the command word, and bytes of a beat. -/

namespace Sys2Proof

@[simp] theorem cmdOp_cmdWord (op : Opcode) (addr : Addr) : cmdOp (cmdWord op addr) = op := by
  simp only [cmdOp, cmdWord]
  ext i hi
  simp only [BitVec.getElem_extractLsb', BitVec.getLsbD_append]
  rw [if_neg (by omega)]
  simp [show 32 + i - 32 = i by omega, BitVec.getLsbD_eq_getElem hi]

@[simp] theorem cmdAddr_cmdWord (op : Opcode) (addr : Addr) : cmdAddr (cmdWord op addr) = addr := by
  simp only [cmdAddr, cmdWord]
  ext i hi
  simp only [BitVec.getElem_extractLsb', BitVec.getLsbD_append]
  rw [if_pos (by omega)]
  simp [BitVec.getLsbD_eq_getElem hi]

/-- A command word is its two fields. -/
theorem cmdWord_fields (w : CmdWord) : cmdWord (cmdOp w) (cmdAddr w) = w := by
  simp only [cmdWord, cmdOp, cmdAddr]
  ext i hi
  simp only [BitVec.getElem_append, BitVec.getElem_extractLsb', Nat.zero_add]
  split
  · exact BitVec.getLsbD_eq_getElem hi
  · rw [show 32 + (i - 32) = i by omega]
    exact BitVec.getLsbD_eq_getElem hi

/-- "`CMD = op * 2^32 + addr`" (R45). -/
theorem cmdWord_toNat (op : Opcode) (addr : Addr) : (cmdWord op addr).toNat = op.toNat * 2 ^ 32 + addr.toNat := by
  rw [cmdWord, BitVec.toNat_append, ← Nat.shiftLeft_add_eq_or_of_lt addr.isLt, Nat.shiftLeft_eq]

/-! ### Beats -/

@[simp] theorem pageBytes_length (p : Page) : (pageBytes p).length = 256 := by simp [pageBytes]

theorem packNat_lt (bs : List Byte) : packNat bs < 256 ^ bs.length := by
  induction bs with
  | nil => simp [packNat]
  | cons b bs ih =>
    have := b.isLt
    rw [packNat, List.length_cons, Nat.pow_succ]
    omega

theorem packNat_byte (bs : List Byte) (k : Nat) (hk : k < bs.length) (d : Byte) :
    packNat bs / 256 ^ k % 256 = (bs.getD k d).toNat := by
  induction bs generalizing k with
  | nil => simp at hk
  | cons b bs ih =>
    have hb := b.isLt
    cases k with
    | zero => simp only [packNat, List.getD_cons_zero, Nat.pow_zero, Nat.div_one]; omega
    | succ k =>
      have := ih k (by simpa using hk)
      rw [packNat, List.getD_cons_succ, Nat.pow_succ', ← Nat.div_div_eq_div_mul,
        show (b.toNat + 256 * packNat bs) / 256 = packNat bs by omega, this]

/-- "byte `k` of a beat is bits `[8k+7 : 8k]`" (R58): packing 256 bytes and taking byte `k` gives byte `k`. -/
theorem pageByte_packPage (bs : List Byte) (h : bs.length = 256) (k : Nat) (hk : k < 256) (d : Byte) :
    pageByte (packPage bs) k = bs.getD k d := by
  apply BitVec.eq_of_toNat_eq
  have hlt : packNat bs < 2 ^ 2048 := by
    have := packNat_lt bs
    rw [show 2048 = 8 * 256 from rfl, Nat.pow_mul]
    exact h ▸ this
  rw [pageByte, packPage, BitVec.extractLsb'_toNat, BitVec.toNat_ofNat, Nat.mod_eq_of_lt hlt, Nat.shiftRight_eq_div_pow,
    Nat.pow_mul]
  exact packNat_byte bs k (by omega) d

/-- A page is its 256 bytes. -/
theorem page_ext (p q : Page) (h : ∀ k < 256, pageByte p k = pageByte q k) : p = q := by
  ext i hi
  have := congrArg (fun b : Byte => b.getLsbD (i % 8)) (h (i / 8) (by omega))
  simp only [pageByte, BitVec.getLsbD_extractLsb', show i % 8 < 8 by omega, decide_true, Bool.true_and,
    show 8 * (i / 8) + i % 8 = i by omega] at this
  rwa [BitVec.getLsbD_eq_getElem hi, BitVec.getLsbD_eq_getElem hi] at this

end Sys2Proof
end

