-- ==== Sys2Proof/Laws/Memory.lean ====
section
/-! SUPPORT. The laws of the flash array: what each operation does to each byte, and that each keeps the canonical
form. -/

namespace Sys2Proof.Machine

open Sys2Proof

/-- The canonical form of a list of cells, apart from the memory that holds it. -/
abbrev CellsWf (fill : Byte) (cs : List Host.Cell) : Prop :=
  cs.Pairwise (fun c d => c.1 < d.1) ∧ ∀ c ∈ cs, c.2 ≠ fill

/-- What an address reads as in a list of cells. -/
def cellRead (fill : Byte) (cs : List Host.Cell) (x : Nat) : Byte := (cs.lookup x).getD fill

theorem read_eq_cellRead (m : Memory) (x : Nat) : m.read x = cellRead m.fill m.cells x := rfl

@[simp] theorem cellRead_nil (fill : Byte) (x : Nat) : cellRead fill [] x = fill := rfl

theorem cellRead_cons (fill : Byte) (c : Host.Cell) (cs : List Host.Cell) (x : Nat) :
    cellRead fill (c :: cs) x = if c.1 = x then c.2 else cellRead fill cs x := by
  obtain ⟨b, v⟩ := c
  by_cases h : b = x
  · simp [cellRead, List.lookup, h]
  · have h' : (x == b) = false := by simpa using fun e => h e.symm
    simp [cellRead, List.lookup, h, h']

/-- An address below every cell reads as `fill`. -/
theorem cellRead_below (fill : Byte) (cs : List Host.Cell) (x : Nat) (h : ∀ c ∈ cs, x < c.1) :
    cellRead fill cs x = fill := by
  induction cs with
  | nil => rfl
  | cons c cs ih =>
    have hc := h c (by simp)
    rw [cellRead_cons, if_neg (by omega), ih fun d hd => h d (by simp [hd])]

/-- The first of the cells at or above `x` decides what `x` reads as. -/
theorem headByte_eq (fill : Byte) (x : Nat) (cs : List Host.Cell) (hs : cs.Pairwise fun c d => c.1 < d.1)
    (hx : ∀ c ∈ cs, x ≤ c.1) : headByte fill x cs = cellRead fill cs x := by
  cases cs with
  | nil => rfl
  | cons c cs =>
    rw [cellRead_cons, headByte]
    split
    · rfl
    · have hc := hx c (by simp)
      rw [cellRead_below]
      intro d hd
      have := (List.pairwise_cons.1 hs).1 d hd
      omega

theorem dropCell_cons (x : Nat) (c : Host.Cell) (cs : List Host.Cell) :
    dropCell x (c :: cs) = if c.1 = x then cs else c :: cs := rfl

theorem dropCell_sublist (x : Nat) (cs : List Host.Cell) : (dropCell x cs).Sublist cs := by
  cases cs with
  | nil => exact .slnil
  | cons c cs => rw [dropCell_cons]; split <;> simp

theorem dropCell_above (x : Nat) (cs : List Host.Cell) (hs : cs.Pairwise fun c d => c.1 < d.1)
    (hx : ∀ c ∈ cs, x ≤ c.1) : ∀ c ∈ dropCell x cs, x + 1 ≤ c.1 := by
  cases cs with
  | nil => simp [dropCell]
  | cons c cs =>
    have hc := hx c (by simp)
    have hcs := (List.pairwise_cons.1 hs).1
    rw [dropCell_cons]
    split
    · intro d hd
      have := hcs d hd
      omega
    · intro d hd
      rcases List.mem_cons.1 hd with rfl | hd
      · omega
      · have := hcs d hd
        omega

theorem cellRead_dropCell (fill : Byte) (x y : Nat) (cs : List Host.Cell) (h : x ≠ y) :
    cellRead fill (dropCell x cs) y = cellRead fill cs y := by
  cases cs with
  | nil => rfl
  | cons c cs =>
    rw [dropCell_cons]
    split
    · rw [cellRead_cons, if_neg (by omega)]
    · rfl

theorem putCell_read (fill : Byte) (x y : Nat) (v : Byte) (cs : List Host.Cell) (hx : ∀ c ∈ cs, x < c.1) :
    cellRead fill (putCell fill x v cs) y = if x = y then v else cellRead fill cs y := by
  unfold putCell
  split
  · next hv =>
    split
    · next h => rw [← h, cellRead_below fill cs x hx, hv]
    · rfl
  · rw [cellRead_cons]

theorem putCell_wf (fill : Byte) (x : Nat) (v : Byte) (cs : List Host.Cell) (h : CellsWf fill cs)
    (hx : ∀ c ∈ cs, x < c.1) : CellsWf fill (putCell fill x v cs) := by
  unfold putCell
  split
  · exact h
  · next hv =>
    refine ⟨List.pairwise_cons.2 ⟨hx, h.1⟩, ?_⟩
    intro c hc
    rcases List.mem_cons.1 hc with rfl | hc
    · exact hv
    · exact h.2 c hc

theorem dropCell_wf (fill : Byte) (x : Nat) (cs : List Host.Cell) (h : CellsWf fill cs) :
    CellsWf fill (dropCell x cs) :=
  ⟨h.1.sublist (dropCell_sublist x cs), fun c hc => h.2 c ((dropCell_sublist x cs).subset hc)⟩

/-- Rewriting keeps the canonical form and stays at or above its first address. -/
theorem rewriteFrom_wf (fill : Byte) (g : Nat → Byte → Byte) (a n k : Nat) (cs : List Host.Cell)
    (h : CellsWf fill cs) (hx : ∀ c ∈ cs, a + k ≤ c.1) :
    CellsWf fill (rewriteFrom fill g a n k cs) ∧ ∀ c ∈ rewriteFrom fill g a n k cs, a + k ≤ c.1 := by
  induction n generalizing k cs with
  | zero => exact ⟨h, hx⟩
  | succ n ih =>
    obtain ⟨hw, ha⟩ := ih (k + 1) (dropCell (a + k) cs) (dropCell_wf fill _ cs h)
      (by simpa [Nat.add_assoc] using dropCell_above (a + k) cs h.1 hx)
    have hlt : ∀ c ∈ rewriteFrom fill g a n (k + 1) (dropCell (a + k) cs), a + k < c.1 := fun c hc => by
      have := ha c hc
      omega
    refine ⟨putCell_wf fill _ _ _ hw hlt, ?_⟩
    intro c hc
    rw [rewriteFrom, putCell] at hc
    split at hc
    · have := hlt c hc
      omega
    · rcases List.mem_cons.1 hc with rfl | hc
      · exact Nat.le_refl _
      · have := hlt c hc
        omega

/-- What each address reads as after rewriting. -/
theorem rewriteFrom_read (fill : Byte) (g : Nat → Byte → Byte) (a n k : Nat) (cs : List Host.Cell)
    (h : CellsWf fill cs) (hx : ∀ c ∈ cs, a + k ≤ c.1) (x : Nat) :
    cellRead fill (rewriteFrom fill g a n k cs) x =
      if a + k ≤ x ∧ x < a + k + n then g (x - a) (cellRead fill cs x) else cellRead fill cs x := by
  induction n generalizing k cs with
  | zero => rw [if_neg (by omega)]; rfl
  | succ n ih =>
    have hd := dropCell_above (a + k) cs h.1 hx
    have hd' : ∀ c ∈ dropCell (a + k) cs, a + (k + 1) ≤ c.1 := by simpa [Nat.add_assoc] using hd
    have hw := dropCell_wf fill (a + k) cs h
    have hlt : ∀ c ∈ rewriteFrom fill g a n (k + 1) (dropCell (a + k) cs), a + k < c.1 := fun c hc => by
      have := (rewriteFrom_wf fill g a n (k + 1) _ hw hd').2 c hc
      omega
    rw [rewriteFrom, putCell_read fill _ _ _ _ hlt, headByte_eq fill _ cs h.1 hx]
    by_cases hk : a + k = x
    · subst hk
      simp
    · rw [if_neg hk, ih (k + 1) _ hw hd', cellRead_dropCell fill _ _ cs hk]
      by_cases hr : a + k ≤ x ∧ x < a + k + (n + 1)
      · rw [if_pos hr, if_pos (by omega)]
      · rw [if_neg hr, if_neg (by omega)]

theorem rewriteCells_wf (fill : Byte) (g : Nat → Byte → Byte) (a n : Nat) (cs : List Host.Cell)
    (h : CellsWf fill cs) : CellsWf fill (rewriteCells fill g a n cs) ∧
      ∀ y, (∀ c ∈ cs, y < c.1) → y < a → ∀ c ∈ rewriteCells fill g a n cs, y < c.1 := by
  induction cs with
  | nil =>
    obtain ⟨hw, ha⟩ := rewriteFrom_wf fill g a n 0 [] h (by simp)
    exact ⟨hw, fun y _ hy c hc => by have := ha c hc; omega⟩
  | cons c cs ih =>
    have hcs := List.pairwise_cons.1 h.1
    obtain ⟨hw, ha⟩ := ih ⟨hcs.2, fun d hd => h.2 d (by simp [hd])⟩
    unfold rewriteCells
    split
    · next hc =>
      refine ⟨⟨List.pairwise_cons.2 ⟨ha c.1 hcs.1 hc, hw.1⟩, ?_⟩, ?_⟩
      · intro d hd
        rcases List.mem_cons.1 hd with rfl | hd
        · exact h.2 d (by simp)
        · exact hw.2 d hd
      · intro y hy hya d hd
        rcases List.mem_cons.1 hd with rfl | hd
        · exact hy d (by simp)
        · exact ha y (fun e he => hy e (by simp [he])) hya d hd
    · next hc =>
      have hx : ∀ d ∈ c :: cs, a + 0 ≤ d.1 := by
        intro d hd
        rcases List.mem_cons.1 hd with rfl | hd
        · omega
        · have := hcs.1 d hd
          omega
      obtain ⟨hw', ha'⟩ := rewriteFrom_wf fill g a n 0 (c :: cs) h hx
      exact ⟨hw', fun y _ hy d hd => by have := ha' d hd; omega⟩

theorem rewriteCells_read (fill : Byte) (g : Nat → Byte → Byte) (a n : Nat) (cs : List Host.Cell)
    (h : CellsWf fill cs) (x : Nat) :
    cellRead fill (rewriteCells fill g a n cs) x =
      if a ≤ x ∧ x < a + n then g (x - a) (cellRead fill cs x) else cellRead fill cs x := by
  induction cs with
  | nil => simpa [rewriteCells] using rewriteFrom_read fill g a n 0 [] h (by simp) x
  | cons c cs ih =>
    have hcs := List.pairwise_cons.1 h.1
    unfold rewriteCells
    split
    · next hc =>
      rw [cellRead_cons, ih ⟨hcs.2, fun d hd => h.2 d (by simp [hd])⟩, cellRead_cons]
      by_cases hx : c.1 = x
      · rw [if_pos hx, if_pos hx, if_neg (by omega)]
      · rw [if_neg hx, if_neg hx]
    · next hc =>
      have hx : ∀ d ∈ c :: cs, a + 0 ≤ d.1 := by
        intro d hd
        rcases List.mem_cons.1 hd with rfl | hd
        · omega
        · have := hcs.1 d hd
          omega
      simpa using rewriteFrom_read fill g a n 0 (c :: cs) h hx x

/-- The spec of `rewrite`: inside the run, `g` of the offset and the old byte; outside, unchanged. -/
theorem rewrite_read (m : Memory) (h : m.wf) (a n : Nat) (g : Nat → Byte → Byte) (x : Nat) :
    (m.rewrite a n g).read x = if a ≤ x ∧ x < a + n then g (x - a) (m.read x) else m.read x :=
  rewriteCells_read m.fill g a n m.cells h x

/-- Rewriting keeps the canonical form. -/
theorem rewrite_wf (m : Memory) (h : m.wf) (a n : Nat) (g : Nat → Byte → Byte) : (m.rewrite a n g).wf :=
  (rewriteCells_wf m.fill g a n m.cells h).1

@[simp] theorem rewrite_fill (m : Memory) (a n : Nat) (g : Nat → Byte → Byte) : (m.rewrite a n g).fill = m.fill := rfl

/-! ### The three operations of R41, and what reset leaves -/

theorem erasePage_wf (m : Memory) (h : m.wf) (a : Nat) : (m.erasePage a).wf := rewrite_wf m h a _ _

theorem writePage_wf (m : Memory) (h : m.wf) (a : Nat) (d : Page) : (m.writePage a d).wf := rewrite_wf m h a _ _

theorem scramblePage_wf (m : Memory) (h : m.wf) (a : Nat) (d : Page) : (m.scramblePage a d).wf := rewrite_wf m h a _ _

theorem erasePage_read (m : Memory) (h : m.wf) (a x : Nat) :
    (m.erasePage a).read x = if a ≤ x ∧ x < a + 256 then 0xFF else m.read x := rewrite_read m h a _ _ x

theorem writePage_read (m : Memory) (h : m.wf) (a : Nat) (d : Page) (x : Nat) :
    (m.writePage a d).read x = if a ≤ x ∧ x < a + 256 then m.read x &&& pageByte d (x - a) else m.read x :=
  rewrite_read m h a _ _ x

theorem scramblePage_read (m : Memory) (h : m.wf) (a : Nat) (d : Page) (x : Nat) :
    (m.scramblePage a d).read x = if a ≤ x ∧ x < a + 256 then pageByte d (x - a) else m.read x :=
  rewrite_read m h a _ _ x

/-! ### Two canonical memories that read alike are equal -/

/-- Canonical cells are determined by what they read as. -/
theorem cells_ext (fill : Byte) (cs ds : List Host.Cell) (hc : CellsWf fill cs) (hd : CellsWf fill ds)
    (h : ∀ x, cellRead fill cs x = cellRead fill ds x) : cs = ds := by
  induction cs generalizing ds with
  | nil =>
    cases ds with
    | nil => rfl
    | cons d ds =>
      have := h d.1
      rw [cellRead_cons, if_pos rfl] at this
      exact absurd this.symm (hd.2 d (by simp))
  | cons c cs ih =>
    have hc1 := List.pairwise_cons.1 hc.1
    cases ds with
    | nil =>
      have := h c.1
      rw [cellRead_cons, if_pos rfl] at this
      exact absurd this (hc.2 c (by simp))
    | cons d ds =>
      have hd1 := List.pairwise_cons.1 hd.1
      have hcv := hc.2 c (by simp)
      have hdv := hd.2 d (by simp)
      have hcd : c.1 = d.1 := by
        rcases Nat.lt_trichotomy c.1 d.1 with hlt | heq | hgt
        · have := h c.1
          rw [cellRead_cons, if_pos rfl, cellRead_below fill (d :: ds) c.1] at this
          · exact absurd this hcv
          · intro e he
            rcases List.mem_cons.1 he with rfl | he
            · exact hlt
            · exact Nat.lt_trans hlt (hd1.1 e he)
        · exact heq
        · have := h d.1
          rw [cellRead_cons fill d, if_pos rfl, cellRead_below fill (c :: cs) d.1] at this
          · exact absurd this.symm hdv
          · intro e he
            rcases List.mem_cons.1 he with rfl | he
            · exact hgt
            · exact Nat.lt_trans hgt (hc1.1 e he)
      have hv : c.2 = d.2 := by
        have := h c.1
        rwa [cellRead_cons, if_pos rfl, cellRead_cons, if_pos hcd.symm] at this
      have hcs : cs = ds := by
        refine ih ds ⟨hc1.2, fun e he => hc.2 e (by simp [he])⟩ ⟨hd1.2, fun e he => hd.2 e (by simp [he])⟩ fun x => ?_
        by_cases hx : c.1 = x
        · rw [cellRead_below fill cs x fun e he => hx ▸ hc1.1 e he,
            cellRead_below fill ds x fun e he => hx ▸ hcd ▸ hd1.1 e he]
        · have := h x
          rwa [cellRead_cons, if_neg hx, cellRead_cons, if_neg (hcd ▸ hx)] at this
      rw [hcs, Prod.ext hcd hv]

/-- Equal memories are equal data. -/
theorem memory_ext (m k : Memory) (hf : m.fill = k.fill) (hm : m.wf) (hk : k.wf) (h : ∀ x, m.read x = k.read x) :
    m = k := by
  obtain ⟨f, cs⟩ := m
  obtain ⟨f', ds⟩ := k
  obtain rfl : f = f' := hf
  exact congrArg _ (cells_ext f cs ds hm hk h)

/-! ### Reading a page -/

theorem bytesFrom_length (fill : Byte) (n x : Nat) (cs : List Host.Cell) : (bytesFrom fill n x cs).length = n := by
  induction n generalizing x cs with
  | zero => rfl
  | succ n ih => simp [bytesFrom, ih]

theorem bytesFrom_getD (fill : Byte) (n x k : Nat) (cs : List Host.Cell) (hs : cs.Pairwise fun c d => c.1 < d.1)
    (hx : ∀ c ∈ cs, x ≤ c.1) (hk : k < n) (b : Byte) : (bytesFrom fill n x cs).getD k b = cellRead fill cs (x + k) := by
  induction n generalizing x k cs with
  | zero => omega
  | succ n ih =>
    cases k with
    | zero => simpa [bytesFrom] using headByte_eq fill x cs hs hx
    | succ k =>
      have := ih (x + 1) k (dropCell x cs) (hs.sublist (dropCell_sublist x cs)) (dropCell_above x cs hs hx) (by omega)
      rw [bytesFrom, List.getD_cons_succ, this, cellRead_dropCell fill x _ cs (by omega)]
      congr 1
      omega

theorem cellRead_dropWhile (fill : Byte) (a x : Nat) (cs : List Host.Cell) (hax : a ≤ x) :
    cellRead fill (cs.dropWhile fun c => decide (c.1 < a)) x = cellRead fill cs x := by
  induction cs with
  | nil => rfl
  | cons c cs ih =>
    rw [List.dropWhile_cons]
    split
    · next h =>
      have : c.1 < a := by simpa using h
      rw [ih, cellRead_cons, if_neg (by omega)]
    · rfl

theorem dropWhile_above (a : Nat) (cs : List Host.Cell) (hs : cs.Pairwise fun c d => c.1 < d.1) :
    ∀ c ∈ cs.dropWhile (fun c => decide (c.1 < a)), a ≤ c.1 := by
  induction cs with
  | nil => simp
  | cons c cs ih =>
    have hcs := List.pairwise_cons.1 hs
    rw [List.dropWhile_cons]
    split
    · exact ih hcs.2
    · next h =>
      have hc : a ≤ c.1 := by simpa using h
      intro d hd
      rcases List.mem_cons.1 hd with rfl | hd
      · exact hc
      · have := hcs.1 d hd
        omega

/-- "`d[k] = FLASH[a + k]`" (R41): byte `k` of the page read at `a`. -/
theorem page_byte (m : Memory) (h : m.wf) (a k : Nat) (hk : k < 256) : pageByte (m.page a) k = m.read (a + k) := by
  rw [Memory.page, pageByte_packPage _ (bytesFrom_length _ _ _ _) k hk 0,
    bytesFrom_getD m.fill 256 a k _ (h.1.sublist (List.dropWhile_sublist _)) (dropWhile_above a m.cells h.1) hk,
    cellRead_dropWhile _ _ _ _ (by omega), read_eq_cellRead]

/-- A page read depends on its 256 bytes alone. -/
theorem page_congr (m k : Memory) (hm : m.wf) (hk : k.wf) (a b : Nat)
    (h : ∀ j < 256, m.read (a + j) = k.read (b + j)) : m.page a = k.page b :=
  page_ext _ _ fun j hj => by rw [page_byte m hm a j hj, page_byte k hk b j hj, h j hj]

end Sys2Proof.Machine
end

