-- ==== Sys2Proof/Laws/Results.lean ====
section
/-! SUPPORT. One spec lemma for each procedure over a backend that answers: its result, its trace, what it leaves
unchanged, and what it does to the flash. -/

namespace Sys2Proof.Machine

open Sys2Proof

/-! ### Frames -/

theorem UnchangedBut.refl (ws : List Reg) (s : State) : UnchangedBut ws s s := by
  constructor <;> intros <;> rfl

theorem UnchangedBut.trans {ws : List Reg} {s t u : State} (h : UnchangedBut ws s t) (k : UnchangedBut ws t u) :
    UnchangedBut ws s u where
  status hw := (k.status hw).trans (h.status hw)
  checkMode hw := (k.checkMode hw).trans (h.checkMode hw)
  pbuf hw := (k.pbuf hw).trans (h.pbuf hw)
  crcHi hw := (k.crcHi hw).trans (h.crcHi hw)
  crcLo hw := (k.crcLo hw).trans (h.crcLo hw)
  agg hw := (k.agg hw).trans (h.agg hw)
  agg2 hw := (k.agg2 hw).trans (h.agg2 hw)
  base hw := (k.base hw).trans (h.base hw)
  idxJ hw := (k.idxJ hw).trans (h.idxJ hw)
  idxI hw := (k.idxI hw).trans (h.idxI hw)
  idxK hw := (k.idxK hw).trans (h.idxK hw)
  flash hw := (k.flash hw).trans (h.flash hw)
  params := k.params.trans h.params
  pending := k.pending.trans h.pending
  cmd := k.cmd.trans h.cmd
  wd := k.wd.trans h.wd
  rst := k.rst.trans h.rst
  backend := k.backend.trans h.backend
  answersLeft := k.answersLeft.trans h.answersLeft

theorem UnchangedBut.mono {ws vs : List Reg} {s t : State} (h : UnchangedBut ws s t) (hs : ∀ r ∈ ws, r ∈ vs) :
    UnchangedBut vs s t where
  status hw := h.status fun hm => hw (hs _ hm)
  checkMode hw := h.checkMode fun hm => hw (hs _ hm)
  pbuf hw := h.pbuf fun hm => hw (hs _ hm)
  crcHi hw := h.crcHi fun hm => hw (hs _ hm)
  crcLo hw := h.crcLo fun hm => hw (hs _ hm)
  agg hw := h.agg fun hm => hw (hs _ hm)
  agg2 hw := h.agg2 fun hm => hw (hs _ hm)
  base hw := h.base fun hm => hw (hs _ hm)
  idxJ hw := h.idxJ fun hm => hw (hs _ hm)
  idxI hw := h.idxI fun hm => hw (hs _ hm)
  idxK hw := h.idxK fun hm => hw (hs _ hm)
  flash hw := h.flash fun hm => hw (hs _ hm)
  params := h.params
  pending := h.pending
  cmd := h.cmd
  wd := h.wd
  rst := h.rst
  backend := h.backend
  answersLeft := h.answersLeft

/-- `setStatus` moves STATUS alone. -/
theorem setStatus_frame (v : Status) (s : State) : UnchangedBut [.status] s (setStatus v s) := by
  constructor <;> intros <;> first | rfl | contradiction

/-- `setIdx` moves the index register of its level alone. -/
theorem setIdx_frame (l : Level) (n : Nat) (s : State) : UnchangedBut
    [match l with | .sector => .idxI | .block => .idxJ | .full => .idxK] s (setIdx l n s) := by
  cases l <;> constructor <;> intros <;> first | rfl | (next h => exact absurd (List.mem_singleton.2 rfl) h)

/-- `clearAgg` moves the AGG bit of its level alone. -/
theorem clearAgg_frame (l : Level) (s : State) : UnchangedBut
    (match l with | .sector => [.agg] | .block => [.agg2] | .full => []) s (clearAgg l s) := by
  cases l <;> constructor <;> intros <;> first | rfl | (next h => exact absurd (List.mem_singleton.2 rfl) h)

/-- `foldAgg` moves the AGG bit of its level alone. -/
theorem foldAgg_frame (l : Level) (r : Result) (s : State) : UnchangedBut
    (match l with | .sector => [.agg] | .block => [.agg2] | .full => []) s (foldAgg l r s) := by
  cases l <;> constructor <;> intros <;> first | rfl | (next h => exact absurd (List.mem_singleton.2 rfl) h)

/-- The parts of the state that a procedure leaves to its command: the response record and CUR_OP. -/
structure SameCommand (s t : State) : Prop where
  rsp : t.rsp = s.rsp
  curOp : t.curOp = s.curOp

theorem SameCommand.refl (s : State) : SameCommand s s := ⟨rfl, rfl⟩

theorem SameCommand.trans {s t u : State} (h : SameCommand s t) (k : SameCommand t u) : SameCommand s u :=
  ⟨k.rsp.trans h.rsp, k.curOp.trans h.curOp⟩

/-! ### Page procedures -/

/-- The result of a page procedure (R78). -/
def pageResult (p : Params) (a : Nat) : Result := if valid p a then .ok else .fail

/-- `erase_page` (R80). -/
theorem erasePage_spec (a : Nat) (s : State) (hr : s.answersLeft = none) :
    ∃ u, erasePage a s = .done { result := pageResult s.params a } u ∧
      u.log = (pageEvents s.params .erasingPage a (.leafErase a)).reverse ++ s.log ∧ u.rd = s.rd ∧
      UnchangedBut [.status, .flash] s u ∧ SameCommand s u ∧
      (s.backend = .reference → u.flash = if valid s.params a then s.flash.erasePage a else s.flash) := by
  by_cases hv : valid s.params a = true
  · refine ⟨setStatus .free (erased a (setStatus .erasingPage s)), ?_, by simp [pageEvents, hv], by simp, ?_,
      ⟨by simp, by simp⟩, fun hb => ?_⟩
    · rw [erasePage_valid a s hv hr, pageResult, if_pos hv]
    · constructor <;> intros <;> simp_all
    · simp [hv, erased, hb]
  · simp only [Bool.not_eq_true] at hv
    exact ⟨s, by rw [erasePage_invalid a s hv]; simp [pageResult, hv], by simp [pageEvents, hv], rfl, .refl _ _, .refl _,
      by simp [hv]⟩

/-- `write_page` (R85). -/
theorem writePage_spec (a : Nat) (d : Page) (s : State) (hr : s.answersLeft = none) :
    ∃ u, writePage a d s = .done { result := pageResult s.params a } u ∧
      u.log = (pageEvents s.params .writingPage a (.leafWrite a d)).reverse ++ s.log ∧ u.rd = s.rd ∧
      UnchangedBut [.status, .pbuf, .flash] s u ∧ SameCommand s u ∧
      (s.backend = .reference → u.flash = if valid s.params a then s.flash.writePage a d else s.flash) := by
  by_cases hv : valid s.params a = true
  · refine ⟨setStatus .free (written a d (loadPbuf d (setStatus .writingPage s))), ?_, by simp [pageEvents, hv], by simp,
      ?_, ⟨by simp, by simp⟩, fun hb => ?_⟩
    · rw [writePage_valid a d s hv hr, pageResult, if_pos hv]
    · constructor <;> intros <;> simp_all
    · simp [hv, written, hb]
  · simp only [Bool.not_eq_true] at hv
    exact ⟨s, by rw [writePage_invalid a d s hv]; simp [pageResult, hv], by simp [pageEvents, hv], rfl, .refl _ _,
      .refl _, by simp [hv]⟩

/-- `get_page` (R89). -/
theorem getPage_spec (a : Nat) (s : State) (hr : s.answersLeft = none) :
    ∃ d u, getPage a s = .done { result := pageResult s.params a, pages := [d] } u ∧
      u.log = (pageEvents s.params .readingPage a (.leafRead a d)).reverse ++ s.log ∧ u.rd = s.rd ∧
      UnchangedBut [.status, .pbuf] s u ∧ SameCommand s u ∧ (valid s.params a = true → u.pbuf = d) ∧
      (valid s.params a = true → s.backend = .reference → d = s.flash.page a) := by
  by_cases hv : valid s.params a = true
  · refine ⟨readAnswer a (setStatus .readingPage s), setStatus .free (readInto a (setStatus .readingPage s)), ?_,
      by simp [pageEvents, hv], by simp, ?_, ⟨by simp, by simp⟩, by simp, fun _ hb => ?_⟩
    · rw [getPage_valid a s hv hr, pageResult, if_pos hv]
    · constructor <;> intros <;> simp_all
    · simp [readAnswer, hb]
  · simp only [Bool.not_eq_true] at hv
    refine ⟨Config.freePage s.draws, { s with draws := s.draws + 1 }, ?_, by simp [pageEvents, hv], rfl, ?_,
      ⟨rfl, rfl⟩, by simp [hv], by simp [hv]⟩
    · rw [getPage_invalid a s hv]; simp [pageResult, hv, failWith, freePages]
    · constructor <;> intros <;> rfl

/-- `get_page` as a read command runs it (R58, R89). -/
theorem getPageBeat_spec (j i a : Nat) (s : State) (hr : s.answersLeft = none) :
    ∃ d u, getPageBeat j i a s = .done { result := pageResult s.params a, pages := [d] } u ∧
      u.log = (pageEvents s.params .readingPage a (.leafRead a d)).reverse ++ s.log ∧
      u.rd = (if valid s.params a then [⟨rdIndex j i, d⟩] else []) ++ s.rd ∧
      UnchangedBut [.status, .pbuf] s u ∧ SameCommand s u ∧ (valid s.params a = true → u.pbuf = d) ∧
      (valid s.params a = true → s.backend = .reference → d = s.flash.page a) := by
  obtain ⟨d, u, he, hl, hrd, hu, hc, hp, hd⟩ := getPage_spec a s hr
  refine ⟨d, emitBeats (rdIndex j i) ⟨pageResult s.params a, [d], none⟩ u, by simp [getPageBeat, he], by simpa using hl,
    ?_, hu.trans (by constructor <;> intros <;> simp), hc.trans ⟨by simp, by simp⟩, by simpa using hp, hd⟩
  cases hv : valid s.params a <;> simp [pageResult, hv, hrd]

/-! ### AGG and the result of a compound procedure -/

theorem firstFail_eq_ok (x y : Result) : firstFail x y = .ok ↔ x = .ok ∧ y = .ok := by
  cases x <;> cases y <;> simp [firstFail]

/-- AGG after sub-operations that succeed where `b` holds. -/
def aggAfter (b : Bool) : Result := if b then .ok else .fail

theorem firstFail_aggAfter (b c : Bool) : firstFail (aggAfter b) (aggAfter c) = aggAfter (b && c) := by
  cases b <;> cases c <;> rfl

theorem report_of_agg (l : Level) (s : State) (b : Bool) (h : aggOf l s = aggAfter b) :
    report l s = compoundResult s.params b := by
  unfold report compoundResult
  rw [h]
  cases s.params.propagateSubfail <;> cases b <;> rfl

theorem pageResult_eq (p : Params) (a : Nat) : pageResult p a = aggAfter (valid p a) := rfl

/-- The events of a loop, one more sub-operation. -/
theorem flatMap_range_succ (f : Nat → List Event) (k : Nat) :
    (List.range (k + 1)).flatMap f = (List.range k).flatMap f ++ f k := by
  simp [List.range_succ]

theorem all_range_succ (f : Nat → Bool) (k : Nat) : (List.range (k + 1)).all f = ((List.range k).all f && f k) := by
  simp [List.range_succ]

/-! ### The loop and the compound procedure over a backend that answers -/

/-- The loop over `N` sub-operations, each of which comes to its end: `ok` says which succeed, `ev` which events each
adds, `ws` what they may change, and `F` is whatever else each carries one position further. The page lists that the
sub-operations return are `pss 0, pss 1, …`. -/
theorem subOps_spec (l : Level) (body : Nat → State → Flow Ret) (N : Nat) (s : State) (ws : List Reg) (ok : Nat → Bool)
    (ev : Nat → List Page → List Event) (F : Nat → (Nat → List Page) → State → Prop)
    (hidx : ∀ k t, UnchangedBut ws t (setIdx l k t)) (hfold : ∀ r t, UnchangedBut ws t (foldAgg l r t))
    (hagg : aggOf l s = .ok) (h0 : ∀ pss, F 0 pss s)
    (hbody : ∀ k < N, ∀ pss t, UnchangedBut ws s t → F k pss t →
      ∃ ps u, body k (setIdx l k t) = .done { result := aggAfter (ok k), pages := ps } u ∧
        u.log = (ev k ps).reverse ++ t.log ∧ UnchangedBut ws (setIdx l k t) u ∧ SameCommand (setIdx l k t) u ∧
        aggOf l u = aggOf l t ∧
        ∀ qss, (∀ i < k, qss i = pss i) → qss k = ps → F (k + 1) qss (foldAgg l (aggAfter (ok k)) u)) :
    ∃ pss u, subOps l body N 0 [] s = .done ((List.range N).flatMap pss) u ∧
      u.log = ((List.range N).flatMap fun i => ev i (pss i)).reverse ++ s.log ∧ UnchangedBut ws s u ∧
      SameCommand s u ∧ (l ≠ .full → aggOf l u = aggAfter ((List.range N).all ok)) ∧ F N pss u := by
  let I : Nat → List Page → State → Prop := fun k out t => ∃ pss : Nat → List Page, out = (List.range k).flatMap pss ∧
    t.log = ((List.range k).flatMap fun i => ev i (pss i)).reverse ++ s.log ∧ UnchangedBut ws s t ∧ SameCommand s t ∧
    (l ≠ .full → aggOf l t = aggAfter ((List.range k).all ok)) ∧ F k pss t
  have hI0 : I 0 [] s := ⟨fun _ => [], rfl, rfl, .refl _ _, .refl _, fun _ => hagg, h0 _⟩
  obtain ⟨ps, u, he, pss, rfl, h1, h2, h3, h4, h5⟩ := ends_exists (subOps_ends l body I (fun _ => False) N
    (by
      rintro k hk out t ⟨pss, rfl, hl, hu, hc, ha, hF⟩
      obtain ⟨ps, u, he, hl', hu', hc', ha', hF'⟩ := hbody k hk pss t hu hF
      rw [he]
      let qss := fun i => if i = k then ps else pss i
      have hq : ∀ i < k, qss i = pss i := fun i hi => if_neg (by omega)
      have hqk : qss k = ps := if_pos rfl
      have hf : ∀ {β : Type} (f : Nat → List Page → List β),
          (List.range k).flatMap (fun i => f i (qss i)) = (List.range k).flatMap fun i => f i (pss i) := by
        intro β f
        refine List.flatMap_congr fun i hi => ?_
        rw [hq i (List.mem_range.1 hi)]
      refine ⟨qss, ?_, ?_, hu.trans ((hidx k t).trans (hu'.trans (hfold _ u))),
        hc.trans ((⟨by simp, by simp⟩ : SameCommand t (setIdx l k t)).trans (hc'.trans ⟨by simp, by simp⟩)), ?_,
        hF' qss hq hqk⟩
      · have := hf fun _ ps => ps
        simp only [List.range_succ, List.flatMap_append, List.flatMap_singleton, hqk, this]
      · have := hf ev
        rw [foldAgg_log, hl', hl]
        simp only [List.range_succ, List.flatMap_append, List.flatMap_singleton, hqk, this, List.reverse_append,
          List.append_assoc]
      · intro hne
        have hfa : aggOf l (foldAgg l (aggAfter (ok k)) u) = firstFail (aggOf l u) (aggAfter (ok k)) := by
          cases l
          · rfl
          · rfl
          · exact absurd rfl hne
        rw [hfa, ha', ha hne, firstFail_aggAfter, all_range_succ])
    N 0 (by omega) [] s hI0)
  exact ⟨pss, u, he, h1, h2, h3, h4, h5⟩

/-- A sector or block procedure past validation, over a backend that answers (R69 to R72). -/
theorem compound_spec (l : Level) (hl : l ≠ .full) (v : Status) (lost a : Nat) (body : Nat → State → Flow Ret)
    (s : State) (ws : List Reg) (ok : Nat → Bool) (ev : Nat → List Page → List Event)
    (F : Nat → (Nat → List Page) → State → Prop) (hv : valid s.params a = true) (hst : Reg.status ∈ ws)
    (hclear : ∀ t, UnchangedBut ws t (clearAgg l t)) (hidx : ∀ k t, UnchangedBut ws t (setIdx l k t))
    (hfold : ∀ r t, UnchangedBut ws t (foldAgg l r t)) (h0 : ∀ pss, F 0 pss (clearAgg l (setStatus v s)))
    (hbody : ∀ k < 16, ∀ pss t, UnchangedBut ws s t → F k pss t →
      ∃ ps u, body k (setIdx l k t) = .done { result := aggAfter (ok k), pages := ps } u ∧
        u.log = (ev k ps).reverse ++ t.log ∧ UnchangedBut ws (setIdx l k t) u ∧ SameCommand (setIdx l k t) u ∧
        aggOf l u = aggOf l t ∧
        ∀ qss, (∀ i < k, qss i = pss i) → qss k = ps → F (k + 1) qss (foldAgg l (aggAfter (ok k)) u)) :
    ∃ pss t, compound l v lost a body s =
        .done { result := compoundResult s.params ((List.range 16).all ok), pages := (List.range 16).flatMap pss }
          (setStatus .free t) ∧
      (setStatus .free t).log = (procEvents v ((List.range 16).flatMap fun i => ev i (pss i))).reverse ++ s.log ∧
      UnchangedBut ws s (setStatus .free t) ∧ SameCommand s (setStatus .free t) ∧ aggOf l t = aggAfter ((List.range 16).all ok) ∧
      F 16 pss t := by
  have hsv : ∀ w t, UnchangedBut ws t (setStatus w t) := fun w t => (setStatus_frame w t).mono (by simpa using hst)
  have hs : UnchangedBut ws s (clearAgg l (setStatus v s)) := (hsv v s).trans (hclear _)
  obtain ⟨pss, t, he, hlog, hu, hc, ha, hF⟩ := subOps_spec l body 16 (clearAgg l (setStatus v s)) ws ok ev F hidx hfold
    (by cases l <;> rfl) h0
    fun k hk pss t hu hF => hbody k hk pss t (hs.trans hu) hF
  refine ⟨pss, t, ?_, ?_, hs.trans (hu.trans (hsv .free t)),
    (⟨by simp, by simp⟩ : SameCommand s (clearAgg l (setStatus v s))).trans (hc.trans ⟨rfl, rfl⟩), ha hl, hF⟩
  · rw [compound, if_pos hv, he, andThen_done, report_of_agg l t _ (ha hl), hu.params, clearAgg_params, setStatus_params]
  · rw [setStatus_log, hlog, clearAgg_log, setStatus_log]
    simp [procEvents]

/-! ### Erase procedures -/

/-- Which addresses the first `k` page operations at stride `m` touch, one more operation. -/
theorem stride_succ (m a k x : Nat) (hm : m = 256 ∨ m = 4096) (b : Nat → Bool) :
    (a ≤ x ∧ x < a + m * (k + 1) ∧ (x - a) % m < 256 ∧ b ((x - a) / m) = true) ↔
      (a ≤ x ∧ x < a + m * k ∧ (x - a) % m < 256 ∧ b ((x - a) / m) = true) ∨
        (b k = true ∧ a + m * k ≤ x ∧ x < a + m * k + 256) := by
  have key : a ≤ x → (x < a + m * (k + 1) ∧ (x - a) % m < 256 ↔
      (x < a + m * k ∧ (x - a) % m < 256) ∨ (a + m * k ≤ x ∧ x < a + m * k + 256)) ∧
      (a + m * k ≤ x → x < a + m * k + 256 → (x - a) / m = k) := by
    rcases hm with rfl | rfl <;> omega
  constructor
  · rintro ⟨h1, h2, h3, h4⟩
    rcases (key h1).1.1 ⟨h2, h3⟩ with ⟨h5, h6⟩ | ⟨h5, h6⟩
    · exact .inl ⟨h1, h5, h6, h4⟩
    · exact .inr ⟨(key h1).2 h5 h6 ▸ h4, h5, h6⟩
  · rintro (⟨h1, h2, h3, h4⟩ | ⟨h1, h2, h3⟩)
    · exact ⟨h1, ((key h1).1.2 (.inl ⟨h2, h3⟩)).1, h3, h4⟩
    · have h0 : a ≤ x := by omega
      obtain ⟨h5, h6⟩ := (key h0).1.2 (.inr ⟨h2, h3⟩)
      exact ⟨h0, h5, h6, (key h0).2 h2 h3 ▸ h1⟩

/-- The byte at `x` after page erases at stride `m`, one more erase. -/
theorem erase_step (p : Params) (m a k : Nat) (hm : m = 256 ∨ m = 4096) (f g : Memory) (old : Nat → Byte) (hf : f.wf)
    (hI : ∀ x, f.read x = if a ≤ x ∧ x < a + m * k ∧ (x - a) % m < 256 ∧ valid p (a + m * ((x - a) / m)) = true
      then 0xFF else old x)
    (hg : g = if valid p (a + m * k) then f.erasePage (a + m * k) else f) :
    g.wf ∧ ∀ x, g.read x =
      if a ≤ x ∧ x < a + m * (k + 1) ∧ (x - a) % m < 256 ∧ valid p (a + m * ((x - a) / m)) = true
      then 0xFF else old x := by
  subst hg
  refine ⟨by split; exacts [erasePage_wf f hf _, hf], fun x => ?_⟩
  have hs := stride_succ m a k x hm fun q => valid p (a + m * q)
  by_cases hv : valid p (a + m * k) = true
  · rw [if_pos hv, erasePage_read f hf, hI]
    by_cases hx : a + m * k ≤ x ∧ x < a + m * k + 256
    · rw [if_pos hx, if_pos (hs.2 (.inr ⟨hv, hx⟩))]
    · rw [if_neg hx]
      refine if_congr (Iff.trans ⟨.inl, fun h => h.resolve_right fun h' => hx h'.2⟩ hs.symm) rfl rfl
  · rw [if_neg hv, hI]
    exact if_congr (Iff.trans ⟨.inl, fun h => h.resolve_right fun h' => hv h'.1⟩ hs.symm) rfl rfl

/-- `erase_sector` and `erase_block` past validation: page erases at stride `m` (R81, R82). -/
theorem eraseRun_spec (v : Status) (a m : Nat) (hm : m = 256 ∨ m = 4096) (s : State) (hr : s.answersLeft = none)
    (hv : valid s.params a = true) :
    ∃ u, compound .sector v 0 a (fun i => erasePage (a + m * i)) s =
        .done { result := compoundResult s.params (allValid s.params a m) } u ∧
      u.log = (eraseEvents s.params v a m).reverse ++ s.log ∧ u.rd = s.rd ∧ u.status = Status.free.code ∧
      UnchangedBut [.status, .agg, .idxI, .flash] s u ∧ SameCommand s u ∧
      (OnReference s → u.flash.wf ∧ ∀ x, u.flash.read x =
        if a ≤ x ∧ x < a + m * 16 ∧ (x - a) % m < 256 ∧ valid s.params (a + m * ((x - a) / m)) = true
        then 0xFF else s.flash.read x) := by
  obtain ⟨pss, t, he, hl, hu, hc, _, hps, hrd, hf⟩ := compound_spec .sector (by simp) v 0 a
    (fun i => erasePage (a + m * i)) s [.status, .agg, .idxI, .flash] (fun i => valid s.params (a + m * i))
    (fun i _ => pageEvents s.params .erasingPage (a + m * i) (.leafErase (a + m * i)))
    (fun k pss t => (∀ i < k, pss i = []) ∧ t.rd = s.rd ∧ (OnReference s → t.flash.wf ∧ ∀ x, t.flash.read x =
      if a ≤ x ∧ x < a + m * k ∧ (x - a) % m < 256 ∧ valid s.params (a + m * ((x - a) / m)) = true
      then 0xFF else s.flash.read x))
    hv (by simp) (fun t => (clearAgg_frame .sector t).mono (by simp)) (fun k t => (setIdx_frame .sector k t).mono (by simp))
    (fun r t => (foldAgg_frame .sector r t).mono (by simp))
    (fun _ => ⟨fun _ h => absurd h (Nat.not_lt_zero _), rfl, fun h => ⟨h.2, fun x => by rw [if_neg (by omega)]; rfl⟩⟩)
    (by
      rintro k - pss t hu ⟨hps, hrd, hf⟩
      obtain ⟨u, he, hl, hrd', hu', hc', hf'⟩ := erasePage_spec (a + m * k) (setIdx .sector k t)
        (by simp [hu.answersLeft, hr])
      rw [setIdx_params, hu.params] at he hl hf'
      refine ⟨[], u, he, by simpa using hl, hu'.mono (by simp), hc', hu'.agg (by simp), fun qss hq hk => ⟨?_, ?_, ?_⟩⟩
      · intro i hi
        rcases Nat.lt_succ_iff_lt_or_eq.1 hi with h | rfl
        · rw [hq i h, hps i h]
        · exact hk
      · simpa [hrd'] using hrd
      · intro ho
        obtain ⟨hw, hx⟩ := hf ho
        exact erase_step s.params m a k hm t.flash u.flash _ hw hx (by simpa using hf' (by simp [hu.backend, ho.1])))
  have hp : (List.range 16).flatMap pss = [] :=
    List.flatMap_eq_nil_iff.2 fun i hi => hps i (List.mem_range.1 hi)
  exact ⟨_, by rw [he, hp]; rfl, hl, hrd, rfl, hu, hc, hf⟩

end Sys2Proof.Machine
end

