-- ==== Sys2Proof/Laws/Compound.lean ====
section
/-! SUPPORT. One spec lemma for each write, read and full-erase procedure over a backend that answers, and how a
command's answer follows from its procedure's. -/

namespace Sys2Proof.Machine

open Sys2Proof

/-! ### From a procedure to its command -/

/-- A command whose procedure comes to its end answers with what the procedure returned. -/
theorem exec_answers (i : Instr) (s u : State) (r : Ret) (tr : List Event) (ws : List Reg) (hi : i.wf = true)
    (hp : s.params.wf = true) (h : procOf i (accept i.opcode s) = .done r u) (hl : u.log = tr.reverse)
    (hu : UnchangedBut ws (accept i.opcode s) u) :
    exec i s = .next (respond r u) ∧ Answered (respond r u) r.result r.pages tr ∧ UnchangedBut ws s (respond r u) := by
  refine ⟨by rw [exec_next i s hi hp, h]; rfl, ⟨rfl, by simp [State.trace, hl], _, rfl⟩, ?_⟩
  exact ⟨hu.1, hu.2, hu.3, hu.4, hu.5, hu.6, hu.7, hu.8, hu.9, hu.10, hu.11, hu.12, hu.13, hu.14, hu.15, hu.16, hu.17,
    hu.18, hu.19⟩

/-- `BASE` is loaded by a command that passes validation. -/
theorem loadBase_valid (addr : Addr) (s : State) (h : valid s.params addr.toNat = true) :
    loadBase addr s = { s with base := addr } := by simp [loadBase, h]

/-- `BASE` is left alone by a command that fails validation. -/
theorem loadBase_invalid (addr : Addr) (s : State) (h : valid s.params addr.toNat = false) : loadBase addr s = s := by
  simp [loadBase, h]

/-- `loadBase` moves `BASE` alone. -/
theorem loadBase_frame (addr : Addr) (s : State) : UnchangedBut [.base] s (loadBase addr s) := by
  unfold loadBase
  split
  · constructor <;> intros <;> first | rfl | simp_all
  · exact .refl _ _

/-! ### Buffers -/

/-- Byte `n` of page chunk `n / 256`. -/
theorem bufferByte_eq (d : List Page) (k n : Nat) (h : 256 * k ≤ n) (h' : n < 256 * k + 256) :
    bufferByte d n = pageByte (d.getD k 0) (n - 256 * k) := by
  have h1 : n / 256 = k := by omega
  have h2 : n % 256 = n - 256 * k := by omega
  rw [bufferByte, h1, h2]

/-- Byte `n` of a sector chunk. -/
theorem bufferByte_sectorChunk (d : List Page) (j n : Nat) (hn : n < 4096) :
    bufferByte (sectorChunk d j) n = bufferByte d (4096 * j + n) := by
  have h1 : (4096 * j + n) / 256 = 16 * j + n / 256 := by omega
  have h2 : (4096 * j + n) % 256 = n % 256 := by omega
  have h3 : n / 256 < 16 := by omega
  simp only [bufferByte, sectorChunk, h1, h2, List.getD_eq_getElem?_getD, List.getElem?_take, List.getElem?_drop, if_pos h3]

/-- The first page of a sector starts where the sector does. -/
theorem valid_and_allValid (p : Params) (a m : Nat) : (valid p a && allValid p a m) = allValid p a m := by
  cases h : allValid p a m with
  | false => simp
  | true =>
    have := List.all_eq_true.1 h 0 (by simp)
    simpa using this

/-! ### Write procedures -/

/-- The byte at `x` after page writes at stride 256, one more write. -/
theorem write_step (p : Params) (a k : Nat) (d : List Page) (f g : Memory) (old : Nat → Byte) (hf : f.wf)
    (hI : ∀ x, f.read x = if a ≤ x ∧ x < a + 256 * k ∧ valid p (a + 256 * ((x - a) / 256)) = true
      then old x &&& bufferByte d (x - a) else old x)
    (hg : g = if valid p (a + 256 * k) then f.writePage (a + 256 * k) (d.getD k 0) else f) :
    g.wf ∧ ∀ x, g.read x = if a ≤ x ∧ x < a + 256 * (k + 1) ∧ valid p (a + 256 * ((x - a) / 256)) = true
      then old x &&& bufferByte d (x - a) else old x := by
  subst hg
  refine ⟨by split; exacts [writePage_wf f hf _ _, hf], fun x => ?_⟩
  have hq : a + 256 * k ≤ x → x < a + 256 * k + 256 → (x - a) / 256 = k := by omega
  by_cases hx : a + 256 * k ≤ x ∧ x < a + 256 * k + 256
  · have hk := hq hx.1 hx.2
    have hold : f.read x = old x := by rw [hI, if_neg (by omega)]
    by_cases hv : valid p (a + 256 * k) = true
    · rw [if_pos hv, writePage_read f hf, if_pos hx, hold, if_pos ⟨by omega, by omega, hk ▸ hv⟩,
        bufferByte_eq d k (x - a) (by omega) (by omega), show x - a - 256 * k = x - (a + 256 * k) by omega]
    · rw [if_neg hv, hold, if_neg fun h => hv (hk ▸ h.2.2)]
  · have hsame : (if valid p (a + 256 * k) = true then f.writePage (a + 256 * k) (d.getD k 0) else f).read x = f.read x := by
      split
      · rw [writePage_read f hf, if_neg hx]
      · rfl
    rw [hsame, hI]
    refine if_congr ?_ rfl rfl
    constructor
    · exact fun ⟨h1, h2, h3⟩ => ⟨h1, by omega, h3⟩
    · exact fun ⟨h1, h2, h3⟩ => ⟨h1, by omega, h3⟩

/-- `write_sector` past validation (R86). -/
theorem writeSector_valid (a : Nat) (d : List Page) (s : State) (hr : s.answersLeft = none)
    (hv : valid s.params a = true) :
    ∃ u, writeSector a d s = .done { result := compoundResult s.params (allValid s.params a 256) } u ∧
      u.log = (writeSectorEvents s.params a d).reverse ++ s.log ∧ u.rd = s.rd ∧ u.status = Status.free.code ∧
      UnchangedBut [.status, .pbuf, .agg, .idxI, .flash] s u ∧ SameCommand s u ∧
      (OnReference s → u.flash.wf ∧ ∀ x, u.flash.read x =
        if a ≤ x ∧ x < a + 4096 ∧ valid s.params (a + 256 * ((x - a) / 256)) = true
        then s.flash.read x &&& bufferByte d (x - a) else s.flash.read x) := by
  obtain ⟨pss, t, he, hl, hu, hc, _, hps, hrd, hf⟩ := compound_spec .sector (by simp) .writingSector 0 a
    (fun i => writePage (pageStride a i) (pageChunk d i)) s [.status, .pbuf, .agg, .idxI, .flash]
    (fun i => valid s.params (a + 256 * i))
    (fun i _ => pageEvents s.params .writingPage (a + 256 * i) (.leafWrite (a + 256 * i) (d.getD i 0)))
    (fun k pss t => (∀ i < k, pss i = []) ∧ t.rd = s.rd ∧ (OnReference s → t.flash.wf ∧ ∀ x, t.flash.read x =
      if a ≤ x ∧ x < a + 256 * k ∧ valid s.params (a + 256 * ((x - a) / 256)) = true
      then s.flash.read x &&& bufferByte d (x - a) else s.flash.read x))
    hv (by simp) (fun t => (clearAgg_frame .sector t).mono (by simp)) (fun k t => (setIdx_frame .sector k t).mono (by simp))
    (fun r t => (foldAgg_frame .sector r t).mono (by simp))
    (fun _ => ⟨fun _ h => absurd h (Nat.not_lt_zero _), rfl, fun h => ⟨h.2, fun x => by rw [if_neg (by omega)]; rfl⟩⟩)
    (by
      rintro k - pss t hu ⟨hps, hrd, hf⟩
      obtain ⟨u, he, hl, hrd', hu', hc', hf'⟩ := writePage_spec (a + 256 * k) (d.getD k 0) (setIdx .sector k t)
        (by simp [hu.answersLeft, hr])
      rw [setIdx_params, hu.params] at he hl hf'
      refine ⟨[], u, he, by simpa using hl, hu'.mono (by simp), hc', hu'.agg (by simp), fun qss hq hk => ⟨?_, ?_, ?_⟩⟩
      · intro i hi
        rcases Nat.lt_succ_iff_lt_or_eq.1 hi with h | rfl
        · rw [hq i h, hps i h]
        · exact hk
      · simpa [hrd'] using hrd
      · intro ho
        obtain ⟨hw, hx⟩ := hf ho
        exact write_step s.params a k d t.flash u.flash _ hw hx (by simpa using hf' (by simp [hu.backend, ho.1])))
  have hp : (List.range 16).flatMap pss = [] :=
    List.flatMap_eq_nil_iff.2 fun i hi => hps i (List.mem_range.1 hi)
  exact ⟨_, by rw [writeSector, he, hp]; rfl, hl, hrd, rfl, hu, hc, hf⟩

/-- Whether sector `j` of a block procedure reports Ok to it (R70, R87, R91). -/
def sectorOk (p : Params) (a : Nat) : Bool := valid p a && (!p.propagateSubfail || allValid p a 256)

theorem sectorOk_result (p : Params) (a : Nat) (h : valid p a = true) :
    compoundResult p (allValid p a 256) = aggAfter (sectorOk p a) := by
  unfold compoundResult sectorOk aggAfter
  rw [h]
  cases p.propagateSubfail <;> cases allValid p a 256 <;> rfl

/-- The result of a block command is Ok exactly when every page is valid, or when failures are not propagated. -/
theorem block_result (p : Params) (a : Nat) :
    compoundResult p ((List.range 16).all fun j => sectorOk p (a + 4096 * j)) = compoundResult p (blockValid p a) := by
  unfold compoundResult
  cases h : p.propagateSubfail with
  | false => rfl
  | true =>
    have : ∀ j, sectorOk p (a + 4096 * j) = allValid p (a + 4096 * j) 256 := fun j => by
      rw [sectorOk, h]
      exact valid_and_allValid p _ 256
    simp only [this, blockValid, Bool.true_and]

/-- `write_sector` as a sub-operation of `write_block`, past its validation or not. -/
theorem writeSector_spec (a : Nat) (d : List Page) (s : State) (hr : s.answersLeft = none) :
    ∃ u, writeSector a d s = .done { result := aggAfter (sectorOk s.params a) } u ∧
      u.log = (if valid s.params a then writeSectorEvents s.params a d else []).reverse ++ s.log ∧ u.rd = s.rd ∧
      UnchangedBut [.status, .pbuf, .agg, .idxI, .flash] s u ∧ SameCommand s u ∧
      (OnReference s → u.flash.wf ∧ ∀ x, u.flash.read x =
        if valid s.params a = true ∧ a ≤ x ∧ x < a + 4096 ∧ valid s.params (a + 256 * ((x - a) / 256)) = true
        then s.flash.read x &&& bufferByte d (x - a) else s.flash.read x) := by
  cases hv : valid s.params a with
  | true =>
    obtain ⟨u, he, hl, hrd, _, hu, hc, hf⟩ := writeSector_valid a d s hr hv
    exact ⟨u, by rw [he, sectorOk_result _ _ hv], by simpa using hl, hrd, hu, hc, by simpa using hf⟩
  | false =>
    exact ⟨s, by simp [writeSector, compound, hv, sectorOk, aggAfter], by simp, rfl, .refl _ _, .refl _,
      by simp⟩

/-- Sector and page of a byte of sector `k`, counted from the block's start and from the sector's. -/
theorem block_page (a k x : Nat) (h : a + 4096 * k ≤ x) (h' : x < a + 4096 * k + 4096) :
    a + 4096 * ((x - a) / 4096) = a + 4096 * k ∧
      a + 256 * ((x - a) / 256) = a + 4096 * k + 256 * ((x - (a + 4096 * k)) / 256) := by omega

theorem sector_end (a k x : Nat) : x < a + 4096 * (k + 1) ↔ x < a + 4096 * k + 4096 := by omega

/-- The bytes of sector `k` of a block, one more sector. -/
theorem block_step (p : Params) (a k x : Nat) :
    (a ≤ x ∧ x < a + 4096 * (k + 1) ∧ pageRuns p a (x - a) = true) ↔
      (a ≤ x ∧ x < a + 4096 * k ∧ pageRuns p a (x - a) = true) ∨
        (valid p (a + 4096 * k) = true ∧ a + 4096 * k ≤ x ∧ x < a + 4096 * k + 4096 ∧
          valid p (a + 4096 * k + 256 * ((x - (a + 4096 * k)) / 256)) = true) := by
  rw [pageRuns, Bool.and_eq_true, sector_end]
  constructor
  · rintro ⟨h1, h2, h3, h4⟩
    by_cases hx : x < a + 4096 * k
    · exact .inl ⟨h1, hx, h3, h4⟩
    · obtain ⟨e1, e2⟩ := block_page a k x (by omega) (by omega)
      rw [e1] at h3
      rw [e2] at h4
      exact .inr ⟨h3, by omega, by omega, h4⟩
  · rintro (⟨h1, h2, h3⟩ | ⟨h1, h2, h3, h4⟩)
    · exact ⟨h1, by omega, h3⟩
    · obtain ⟨e1, e2⟩ := block_page a k x h2 (by omega)
      exact ⟨by omega, by omega, e1 ▸ h1, e2 ▸ h4⟩

/-- `write_block` past validation (R87). -/
theorem writeBlock_valid (a : Nat) (d : List Page) (s : State) (hr : s.answersLeft = none)
    (hv : valid s.params a = true) :
    ∃ u, writeBlock a d s = .done { result := compoundResult s.params (blockValid s.params a) } u ∧
      u.log = (procEvents .writingBlock ((List.range 16).flatMap fun j =>
        if valid s.params (a + 4096 * j) then writeSectorEvents s.params (a + 4096 * j) (sectorChunk d j)
        else [])).reverse ++ s.log ∧
      u.rd = s.rd ∧ u.status = Status.free.code ∧
      UnchangedBut [.status, .pbuf, .agg, .agg2, .idxI, .idxJ, .flash] s u ∧ SameCommand s u ∧
      (OnReference s → u.flash.wf ∧ ∀ x, u.flash.read x =
        if a ≤ x ∧ x < a + 4096 * 16 ∧ pageRuns s.params a (x - a) = true
        then s.flash.read x &&& bufferByte d (x - a) else s.flash.read x) := by
  obtain ⟨pss, t, he, hl, hu, hc, _, hps, hrd, hf⟩ := compound_spec .block (by simp) .writingBlock 0 a
    (fun j => writeSector (sectorStride a j) (sectorChunk d j)) s [.status, .pbuf, .agg, .agg2, .idxI, .idxJ, .flash]
    (fun j => sectorOk s.params (a + 4096 * j))
    (fun j _ => if valid s.params (a + 4096 * j) then writeSectorEvents s.params (a + 4096 * j) (sectorChunk d j) else [])
    (fun k pss t => (∀ i < k, pss i = []) ∧ t.rd = s.rd ∧ (OnReference s → t.flash.wf ∧ ∀ x, t.flash.read x =
      if a ≤ x ∧ x < a + 4096 * k ∧ pageRuns s.params a (x - a) = true
      then s.flash.read x &&& bufferByte d (x - a) else s.flash.read x))
    hv (by simp) (fun t => (clearAgg_frame .block t).mono (by simp)) (fun k t => (setIdx_frame .block k t).mono (by simp))
    (fun r t => (foldAgg_frame .block r t).mono (by simp))
    (fun _ => ⟨fun _ h => absurd h (Nat.not_lt_zero _), rfl, fun h => ⟨h.2, fun x => by rw [if_neg (by omega)]; rfl⟩⟩)
    (by
      rintro k - pss t hu ⟨hps, hrd, hf⟩
      obtain ⟨u, he, hl, hrd', hu', hc', hf'⟩ := writeSector_spec (a + 4096 * k) (sectorChunk d k) (setIdx .block k t)
        (by simp [hu.answersLeft, hr])
      rw [setIdx_params, hu.params] at he hl hf'
      refine ⟨[], u, he, by simpa using hl, hu'.mono (by simp), hc', hu'.agg2 (by simp), fun qss hq hk => ⟨?_, ?_, ?_⟩⟩
      · intro i hi
        rcases Nat.lt_succ_iff_lt_or_eq.1 hi with h | rfl
        · rw [hq i h, hps i h]
        · exact hk
      · simpa [hrd'] using hrd
      · intro ho
        obtain ⟨hw, hx⟩ := hf ho
        obtain ⟨hw', hx'⟩ := hf' ⟨by simp [hu.backend, ho.1], by simpa using hw⟩
        refine ⟨by simpa using hw', fun x => ?_⟩
        rw [show (foldAgg Level.block (aggAfter (sectorOk s.params (a + 4096 * k))) u).flash = u.flash by simp, hx', setIdx_flash, hx]
        have hs := block_step s.params a k x
        by_cases h2 : valid s.params (a + 4096 * k) = true ∧ a + 4096 * k ≤ x ∧ x < a + 4096 * k + 4096 ∧
            valid s.params (a + 4096 * k + 256 * ((x - (a + 4096 * k)) / 256)) = true
        · rw [if_pos h2, if_neg (by omega), if_pos (hs.2 (.inr h2)), bufferByte_sectorChunk d k _ (by omega),
            show 4096 * k + (x - (a + 4096 * k)) = x - a by omega]
        · rw [if_neg h2]
          exact if_congr ⟨fun h => hs.2 (.inl h), fun h => (hs.1 h).resolve_right h2⟩ rfl rfl)
  have hp : (List.range 16).flatMap pss = [] :=
    List.flatMap_eq_nil_iff.2 fun i hi => hps i (List.mem_range.1 hi)
  exact ⟨_, by rw [writeBlock, he, hp, block_result], hl, hrd, rfl, hu, hc, hf⟩

end Sys2Proof.Machine
end

