-- ==== Sys2Proof/Laws/PerInstr.lean ====
section
/-! SUPPORT. Statements made for every command as syntax, one lemma per constructor. -/

namespace Sys2Proof.Laws.EncodedOp

open Sys2Proof

/-- The word of a command holds its opcode and its address field (R45, R46), and a well-formed command has as many beats
as its opcode calls for (R58). -/
def Statement (i : Instr) : Prop :=
  cmdOp (encode i).1 = i.opcode ∧ cmdAddr (encode i).1 = i.addrField ∧
    (i.wf = true → (encode i).2.length = beatCount i.opcode)

theorem erasePage (a : Addr) : Statement (.erasePage a) := ⟨by simp [encode], by simp [encode], fun _ => rfl⟩
theorem eraseSector (a : Addr) : Statement (.eraseSector a) := ⟨by simp [encode], by simp [encode], fun _ => rfl⟩
theorem eraseBlock (a : Addr) : Statement (.eraseBlock a) := ⟨by simp [encode], by simp [encode], fun _ => rfl⟩
theorem eraseFull (a : Addr) : Statement (.eraseFull a) := ⟨by simp [encode], by simp [encode], fun _ => rfl⟩
theorem writePage (a : Addr) (d : Page) : Statement (.writePage a d) :=
  ⟨by simp [encode], by simp [encode], fun _ => rfl⟩
theorem writeSector (a : Addr) (d : List Page) : Statement (.writeSector a d) :=
  ⟨by simp [encode], by simp [encode], fun h => (by simpa [Instr.wf] using h : d.length = 16)⟩
theorem writeBlock (a : Addr) (d : List Page) : Statement (.writeBlock a d) :=
  ⟨by simp [encode], by simp [encode], fun h => (by simpa [Instr.wf] using h : d.length = 256)⟩
theorem getPage (a : Addr) : Statement (.getPage a) := ⟨by simp [encode], by simp [encode], fun _ => rfl⟩
theorem getSector (a : Addr) : Statement (.getSector a) := ⟨by simp [encode], by simp [encode], fun _ => rfl⟩
theorem getBlock (a : Addr) : Statement (.getBlock a) := ⟨by simp [encode], by simp [encode], fun _ => rfl⟩
theorem getPageCrc16 (a : Addr) : Statement (.getPageCrc16 a) := ⟨by simp [encode], by simp [encode], fun _ => rfl⟩
theorem enableCheckMode (a : Addr) : Statement (.enableCheckMode a) :=
  ⟨by simp [encode], by simp [encode], fun _ => rfl⟩
theorem disableCheckMode (a : Addr) : Statement (.disableCheckMode a) :=
  ⟨by simp [encode], by simp [encode], fun _ => rfl⟩
theorem reserved0 (a : Addr) : Statement (.reserved0 a) := ⟨by simp [encode], by simp [encode], fun _ => rfl⟩
theorem reservedE (a : Addr) : Statement (.reservedE a) := ⟨by simp [encode], by simp [encode], fun _ => rfl⟩
theorem reservedF (a : Addr) : Statement (.reservedF a) := ⟨by simp [encode], by simp [encode], fun _ => rfl⟩

end Sys2Proof.Laws.EncodedOp
end

