-- ==== Sys2Proof/Laws/Reads.lean ====
section
/-! SUPPORT. One spec lemma for each read procedure, and for the erase of the whole window, over a backend that
answers. -/

namespace Sys2Proof.Machine

open Sys2Proof

/-- The RD beats of a sector read at `a`, sector `j` of its command (R58, R90). -/
def sectorBeats (p : Params) (j a : Nat) (pages : List Page) : List RdBeat :=
  (List.range 16).filterMap fun i =>
    if valid p (a + 256 * i) then some ⟨rdIndex j i, pages.getD i 0⟩ else none

theorem flatMap_singletons (f : Nat → Page) (pss : Nat → List Page) (n : Nat) (h : ∀ i < n, pss i = [f i]) :
    (List.range n).flatMap pss = (List.range n).map f := by
  rw [List.map_eq_flatMap]
  exact List.flatMap_congr fun i hi => h i (List.mem_range.1 hi)

theorem getD_map_range (f : Nat → Page) (n i : Nat) (h : i < n) : ((List.range n).map f).getD i 0 = f i := by
  simp [h]

theorem filterMap_range_succ (f : Nat → Option RdBeat) (k : Nat) :
    (List.range (k + 1)).filterMap f = (List.range k).filterMap f ++ (f k).toList := by
  rw [List.range_succ, List.filterMap_append]
  cases h : f k <;> simp [h]

/-- `get_sector` past validation (R90). -/
theorem getSector_valid (j a : Nat) (s : State) (hr : s.answersLeft = none) (hv : valid s.params a = true) :
    ∃ pages u, getSector j a s =
        .done { result := compoundResult s.params (allValid s.params a 256), pages := pages } u ∧
      pages.length = 16 ∧ u.log = (readSectorEvents s.params a pages).reverse ++ s.log ∧
      u.rd = (sectorBeats s.params j a pages).reverse ++ s.rd ∧ u.status = Status.free.code ∧
      UnchangedBut [.status, .pbuf, .agg, .idxI] s u ∧ SameCommand s u ∧
      (s.backend = .reference → ∀ i < 16, valid s.params (a + 256 * i) = true →
        pages.getD i 0 = s.flash.page (a + 256 * i)) := by
  obtain ⟨pss, t, he, hl, hu, hc, _, hps, hrd, hf⟩ := compound_spec .sector (by simp) .readingSector pagesPerSector a
    (fun i => getPageBeat j i (pageStride a i)) s [.status, .pbuf, .agg, .idxI]
    (fun i => valid s.params (a + 256 * i))
    (fun i ps => pageEvents s.params .readingPage (a + 256 * i) (.leafRead (a + 256 * i) (ps.getD 0 0)))
    (fun k pss t => (∀ i < k, pss i = [(pss i).getD 0 0]) ∧
      t.rd = ((List.range k).filterMap fun i => if valid s.params (a + 256 * i) then
        some ⟨rdIndex j i, (pss i).getD 0 0⟩ else none).reverse ++ s.rd ∧
      (s.backend = .reference → ∀ i < k, valid s.params (a + 256 * i) = true →
        (pss i).getD 0 0 = s.flash.page (a + 256 * i)))
    hv (by simp) (fun t => (clearAgg_frame .sector t).mono (by simp)) (fun k t => (setIdx_frame .sector k t).mono (by simp))
    (fun r t => (foldAgg_frame .sector r t).mono (by simp))
    (fun _ => ⟨fun _ h => absurd h (Nat.not_lt_zero _), rfl, fun _ _ h => absurd h (Nat.not_lt_zero _)⟩)
    (by
      rintro k - pss t hu ⟨hps, hrd, hf⟩
      obtain ⟨d, u, he, hl, hrd', hu', hc', _, hd⟩ := getPageBeat_spec j k (a + 256 * k) (setIdx .sector k t)
        (by simp [hu.answersLeft, hr])
      rw [setIdx_params, hu.params] at he hl hrd' hd
      refine ⟨[d], u, he, by simpa using hl, hu'.mono (by simp), hc', hu'.agg (by simp), fun qss hq hk => ⟨?_, ?_, ?_⟩⟩
      · intro i hi
        rcases Nat.lt_succ_iff_lt_or_eq.1 hi with h | rfl
        · rw [hq i h, ← hps i h]
        · rw [hk]; rfl
      · rw [foldAgg_rd, hrd', setIdx_rd, hrd, filterMap_range_succ, hk, List.reverse_append]
        have : (List.range k).filterMap (fun i => if valid s.params (a + 256 * i) then
              some (RdBeat.mk (rdIndex j i) ((qss i).getD 0 0)) else none) =
            (List.range k).filterMap (fun i => if valid s.params (a + 256 * i) then
              some (RdBeat.mk (rdIndex j i) ((pss i).getD 0 0)) else none) := by
          refine List.filterMap_congr fun i hi => ?_
          rw [hq i (List.mem_range.1 hi)]
        rw [this]
        cases valid s.params (a + 256 * k) <;> simp
      · intro hb i hi hvi
        rcases Nat.lt_succ_iff_lt_or_eq.1 hi with h | rfl
        · rw [hq i h]; exact hf hb i h hvi
        · rw [hk]
          have := hd hvi (by simp [hu.backend, hb])
          rw [setIdx_flash, hu.flash (by simp)] at this
          exact this)
  let f := fun i => (pss i).getD 0 0
  have hmap := flatMap_singletons f pss 16 hps
  have hget : ∀ i < 16, ((List.range 16).flatMap pss).getD i 0 = f i := fun i hi => by
    rw [hmap, getD_map_range f 16 i hi]
  refine ⟨(List.range 16).flatMap pss, _, he, by rw [hmap]; simp, ?_, ?_, rfl, hu, hc, ?_⟩
  · rw [hl, readSectorEvents]
    congr 3
    refine List.flatMap_congr fun i hi => ?_
    rw [hget i (List.mem_range.1 hi)]
  · rw [setStatus_rd, hrd, sectorBeats]
    congr 2
    refine List.filterMap_congr fun i hi => ?_
    rw [hget i (List.mem_range.1 hi)]
  · intro hb i hi hvi
    rw [hget i hi]
    exact hf hb i hi hvi

/-- `get_sector` as a sub-operation of `get_block`, past its validation or not. -/
theorem getSector_spec (j a : Nat) (s : State) (hr : s.answersLeft = none) :
    ∃ pages u, getSector j a s = .done { result := aggAfter (sectorOk s.params a), pages := pages } u ∧
      pages.length = 16 ∧ u.log = (if valid s.params a then readSectorEvents s.params a pages else []).reverse ++ s.log ∧
      u.rd = (if valid s.params a then sectorBeats s.params j a pages else []).reverse ++ s.rd ∧
      UnchangedBut [.status, .pbuf, .agg, .idxI] s u ∧ SameCommand s u ∧
      (s.backend = .reference → valid s.params a = true → ∀ i < 16, valid s.params (a + 256 * i) = true →
        pages.getD i 0 = s.flash.page (a + 256 * i)) := by
  cases hv : valid s.params a with
  | true =>
    obtain ⟨pages, u, he, hlen, hl, hrd, _, hu, hc, hf⟩ := getSector_valid j a s hr hv
    exact ⟨pages, u, by rw [he, sectorOk_result _ _ hv], hlen, by simpa using hl, by simpa using hrd, hu, hc,
      fun hb _ => hf hb⟩
  | false =>
    refine ⟨freePages 16 s.draws, { s with draws := s.draws + 16 }, by simp [getSector, compound, hv, sectorOk, aggAfter, failWith],
      by simp [freePages], by simp, by simp, ?_, ⟨rfl, rfl⟩, by simp⟩
    constructor <;> intros <;> rfl

/-- A run of 16-page lists, cut and indexed. -/
theorem flatMap_sectors (pss : Nat → List Page) (n : Nat) (h : ∀ j < n, (pss j).length = 16) :
    ((List.range n).flatMap pss).length = 16 * n ∧ ∀ j < n, ∀ i < 16,
      ((List.range n).flatMap pss)[16 * j + i]? = (pss j)[i]? := by
  induction n with
  | zero => simp
  | succ n ih =>
    obtain ⟨hl, hg⟩ := ih fun j hj => h j (by omega)
    rw [List.range_succ, List.flatMap_append, List.flatMap_singleton]
    refine ⟨by rw [List.length_append, hl, h n (by omega)]; omega, fun j hj i hi => ?_⟩
    rw [List.getElem?_append, hl]
    split
    · exact hg j (by omega) i hi
    · obtain rfl : j = n := by omega
      congr 1
      omega

theorem sector_of_pages (pss : Nat → List Page) (h : ∀ j < 16, (pss j).length = 16) (j : Nat) (hj : j < 16) :
    sectorChunk ((List.range 16).flatMap pss) j = pss j := by
  obtain ⟨_, hg⟩ := flatMap_sectors pss 16 h
  apply List.ext_getElem?
  intro i
  simp only [sectorChunk, List.getElem?_take, List.getElem?_drop]
  split
  · next hi => exact hg j hj i hi
  · next hi => rw [List.getElem?_eq_none]; rw [h j hj]; exact Nat.not_lt.1 hi

theorem range_sectors : List.range 256 = (List.range 16).flatMap fun j => (List.range 16).map fun i => 16 * j + i := by
  decide +kernel

/-- Sector and page of page `16*j + i` of a block. -/
theorem pageRuns_page (p : Params) (a j i : Nat) (hi : i < 16) :
    pageRuns p a (256 * (16 * j + i)) = (valid p (a + 4096 * j) && valid p (a + 4096 * j + 256 * i)) := by
  have h1 : 256 * (16 * j + i) / 4096 = j := by omega
  have h2 : a + 256 * (256 * (16 * j + i) / 256) = a + 4096 * j + 256 * i := by omega
  rw [pageRuns, h1, h2]

/-- `get_block` past validation (R91). -/
theorem getBlock_valid (a : Nat) (s : State) (hr : s.answersLeft = none) (hv : valid s.params a = true) :
    ∃ pages u, getBlock a s =
        .done { result := compoundResult s.params (blockValid s.params a), pages := pages } u ∧
      pages.length = 256 ∧
      u.log = (procEvents .readingBlock ((List.range 16).flatMap fun j =>
        if valid s.params (a + 4096 * j) then readSectorEvents s.params (a + 4096 * j) (sectorChunk pages j)
        else [])).reverse ++ s.log ∧
      u.rd = ((List.range 256).filterMap fun q => if pageRuns s.params a (256 * q) then
        some (RdBeat.mk (BitVec.ofNat 8 q) (pages.getD q 0)) else none).reverse ++ s.rd ∧
      u.status = Status.free.code ∧
      UnchangedBut [.status, .pbuf, .agg, .agg2, .idxI, .idxJ] s u ∧ SameCommand s u ∧
      (s.backend = .reference → ∀ j < 16, ∀ i < 16, valid s.params (a + 4096 * j) = true →
        valid s.params (a + 4096 * j + 256 * i) = true →
        pages.getD (16 * j + i) 0 = s.flash.page (a + 4096 * j + 256 * i)) := by
  obtain ⟨pss, t, he, hl, hu, hc, _, hps, hrd, hf⟩ := compound_spec .block (by simp) .readingBlock pagesPerBlock a
    (fun j => getSector j (sectorStride a j)) s [.status, .pbuf, .agg, .agg2, .idxI, .idxJ]
    (fun j => sectorOk s.params (a + 4096 * j))
    (fun j ps => if valid s.params (a + 4096 * j) then readSectorEvents s.params (a + 4096 * j) ps else [])
    (fun k pss t => (∀ j < k, (pss j).length = 16) ∧
      t.rd = ((List.range k).flatMap fun j => if valid s.params (a + 4096 * j) then
        sectorBeats s.params j (a + 4096 * j) (pss j) else []).reverse ++ s.rd ∧
      (s.backend = .reference → ∀ j < k, valid s.params (a + 4096 * j) = true → ∀ i < 16,
        valid s.params (a + 4096 * j + 256 * i) = true →
        (pss j).getD i 0 = s.flash.page (a + 4096 * j + 256 * i)))
    hv (by simp) (fun t => (clearAgg_frame .block t).mono (by simp)) (fun k t => (setIdx_frame .block k t).mono (by simp))
    (fun r t => (foldAgg_frame .block r t).mono (by simp))
    (fun _ => ⟨fun _ h => absurd h (Nat.not_lt_zero _), rfl, fun _ _ h => absurd h (Nat.not_lt_zero _)⟩)
    (by
      rintro k - pss t hu ⟨hps, hrd, hf⟩
      obtain ⟨ps, u, he, hlen, hl, hrd', hu', hc', hd⟩ := getSector_spec k (a + 4096 * k) (setIdx .block k t)
        (by simp [hu.answersLeft, hr])
      rw [setIdx_params, hu.params] at he hl hrd' hd
      refine ⟨ps, u, he, by simpa using hl, hu'.mono (by simp), hc', hu'.agg2 (by simp), fun qss hq hk => ⟨?_, ?_, ?_⟩⟩
      · intro i hi
        rcases Nat.lt_succ_iff_lt_or_eq.1 hi with h | rfl
        · rw [hq i h, hps i h]
        · rw [hk, hlen]
      · rw [foldAgg_rd, hrd', setIdx_rd, hrd, List.range_succ, List.flatMap_append, List.flatMap_singleton, hk,
          List.reverse_append, List.append_assoc]
        congr 3
        refine List.flatMap_congr fun i hi => ?_
        rw [hq i (List.mem_range.1 hi)]
      · intro hb i hi hvi
        rcases Nat.lt_succ_iff_lt_or_eq.1 hi with h | rfl
        · rw [hq i h]; exact hf hb i h hvi
        · intro i' hi' hvi'
          rw [hk]
          have := hd (by simp [hu.backend, hb]) hvi i' hi' hvi'
          rw [setIdx_flash, hu.flash (by simp)] at this
          exact this)
  obtain ⟨hlen, hg⟩ := flatMap_sectors pss 16 hps
  have hget : ∀ j < 16, ∀ i < 16, ((List.range 16).flatMap pss).getD (16 * j + i) 0 = (pss j).getD i 0 :=
    fun j hj i hi => by rw [List.getD_eq_getElem?_getD, hg j hj i hi, List.getD_eq_getElem?_getD]
  refine ⟨(List.range 16).flatMap pss, _, by rw [getBlock, he, block_result], hlen, ?_, ?_, rfl, hu, hc, ?_⟩
  · rw [hl]
    congr 3
    refine List.flatMap_congr fun j hj => ?_
    rw [sector_of_pages pss hps j (List.mem_range.1 hj)]
  · rw [setStatus_rd, hrd, range_sectors, List.filterMap_flatMap]
    congr 2
    refine List.flatMap_congr fun j hj => ?_
    rw [List.filterMap_map]
    by_cases hvj : valid s.params (a + 4096 * j) = true
    · rw [if_pos hvj, sectorBeats]
      refine List.filterMap_congr fun i hi => ?_
      simp only [Function.comp, pageRuns_page s.params a j i (List.mem_range.1 hi), hvj, Bool.true_and,
        hget j (List.mem_range.1 hj) i (List.mem_range.1 hi), rdIndex]
    · rw [if_neg hvj]
      symm
      rw [List.filterMap_eq_nil_iff]
      intro i hi
      simp only [Function.comp, pageRuns_page s.params a j i (List.mem_range.1 hi), hvj, Bool.false_and]
      rfl
  · intro hb j hj i hi hvj hvi
    rw [hget j hj i hi]
    exact hf hb j hj hvj i hi hvi

/-- `erase_full` with STATUS Free (R83): every page of the window, none of them past its end. -/
theorem eraseFull_free (s : State) (hp : s.params.wf = true) (hr : s.answersLeft = none)
    (hst : s.status = Status.free.code) :
    ∃ u, eraseFull s = .done { result := .ok } u ∧
      u.log = (procEvents .erasingFull ((List.range (nFull s.params)).flatMap fun k =>
        [.statusWrite .erasingPage, .leafErase (s.params.startAddress.toNat + 256 * k), .statusWrite .free])).reverse ++
          s.log ∧
      u.rd = s.rd ∧ u.status = Status.free.code ∧ UnchangedBut [.status, .idxK, .flash] s u ∧ SameCommand s u ∧
      (OnReference s → u.flash.wf ∧ ∀ y, u.flash.read y =
        if s.params.startAddress.toNat ≤ y ∧ y < s.params.startAddress.toNat + 256 * nFull s.params then 0xFF
        else s.flash.read y) := by
  have hse : s.params.startAddress.toNat ≤ s.params.endAddress.toNat := by simpa [Params.wf] using hp
  have hvk : ∀ k < nFull s.params, valid s.params (s.params.startAddress.toNat + 256 * k) = true := fun k hk => by
    have : 256 * k ≤ s.params.endAddress.toNat - s.params.startAddress.toNat := by
      simp only [nFull, pageSize] at hk
      have := Nat.div_mul_le_self (s.params.endAddress.toNat - s.params.startAddress.toNat) 256
      omega
    simp only [valid, Bool.and_eq_true, decide_eq_true_eq]
    omega
  obtain ⟨pss, t, he, hlog, hu, hc, _, hrd, hf⟩ := subOps_spec .full
    (fun k => erasePage (pageStride s.params.startAddress.toNat k)) (nFull s.params) (setStatus .erasingFull s)
    [.status, .idxK, .flash] (fun _ => true)
    (fun k _ => [.statusWrite .erasingPage, .leafErase (s.params.startAddress.toNat + 256 * k), .statusWrite .free])
    (fun k _ t => t.rd = s.rd ∧ (OnReference s → t.flash.wf ∧ ∀ y, t.flash.read y =
        if s.params.startAddress.toNat ≤ y ∧ y < s.params.startAddress.toNat + 256 * k then 0xFF else s.flash.read y))
    (fun k t => (setIdx_frame .full k t).mono (by simp)) (fun r t => (foldAgg_frame .full r t).mono (by simp)) rfl
    (fun _ => ⟨rfl, fun h => ⟨h.2, fun y => by rw [if_neg (by omega)]; rfl⟩⟩)
    (by
      rintro k hk pss t hu ⟨hrd, hf⟩
      obtain ⟨u, he, hl, hrd', hu', hc', hf'⟩ := erasePage_spec (s.params.startAddress.toNat + 256 * k) (setIdx .full k t)
        (by simp [hu.answersLeft, hr])
      rw [setIdx_params, hu.params, setStatus_params] at he hl hf'
      rw [pageResult_eq, hvk k hk] at he
      rw [pageEvents, if_pos (hvk k hk)] at hl
      refine ⟨[], u, he, by simpa using hl, hu'.mono (by simp), hc', rfl, fun qss _ _ => ⟨by simpa [hrd'] using hrd, ?_⟩⟩
      intro ho
      obtain ⟨hw, hx⟩ := hf ho
      have hu2 := hf' (by simp [hu.backend, ho.1])
      rw [if_pos (hvk k hk), setIdx_flash] at hu2
      rw [foldAgg_flash, hu2]
      refine ⟨erasePage_wf _ hw _, fun y => ?_⟩
      rw [erasePage_read _ hw, hx]
      split
      · rw [if_pos (by omega)]
      · exact if_congr (by omega) rfl rfl)
  refine ⟨setStatus .free t, ?_, ?_, by simpa using hrd, rfl,
    ((setStatus_frame .erasingFull s).mono (by simp)).trans (hu.trans ((setStatus_frame .free t).mono (by simp))),
    (⟨rfl, rfl⟩ : SameCommand s (setStatus .erasingFull s)).trans (hc.trans ⟨rfl, rfl⟩), by simpa using hf⟩
  · rw [eraseFull, if_pos hst, he]
    rfl
  · rw [setStatus_log, hlog, setStatus_log]
    simp [procEvents]

end Sys2Proof.Machine
end

