-- ==== Sys2Proof/Laws/Relate.lean ====
section
/-! SUPPORT. Two runs of one command from related states: how they end together (`Both`), relations that every operation
keeps (`Kept`), and one lemma for each procedure and for a whole command. -/

namespace Sys2Proof.Machine

open Sys2Proof

/-- Two procedures end together: both at their end with `P`, both waiting with `W`, or the first waiting where the second
goes on, with `D`. The first does not go on where the second waits. -/
def Both {α β : Type} (P : α → State → β → State → Prop) (W D : State → State → Prop) : Flow α → Flow β → Prop
  | .done v s, .done w t => P v s w t
  | .waiting s, .waiting t => W s t
  | .waiting s, .done _ t => D s t
  | .done _ _, .waiting _ => False

theorem both_andThen {α β γ δ : Type} {P : α → State → β → State → Prop} {P' : γ → State → δ → State → Prop}
    {W D : State → State → Prop} {f : Flow α} {g : Flow β} {k : α → State → Flow γ} {k' : β → State → Flow δ}
    (h : Both P W D f g) (hk : ∀ v s w t, P v s w t → Both P' W D (k v s) (k' w t))
    (hd : ∀ s w t, D s t → Ends (fun _ t => D s t) (W s) (k' w t)) : Both P' W D (andThen f k) (andThen g k') := by
  cases f with
  | done v s =>
    cases g with
    | done w t => exact hk _ _ _ _ h
    | waiting t => exact h.elim
  | waiting s =>
    cases g with
    | done w t =>
      have := hd s w t h
      rw [andThen_waiting, andThen_done]
      cases hh : k' w t with
      | done a b => rw [hh] at this; exact this
      | waiting b => rw [hh] at this; exact this
    | waiting t => exact h

theorem both_mono {α β : Type} {P P' : α → State → β → State → Prop} {W D : State → State → Prop} {f : Flow α}
    {g : Flow β} (h : Both P W D f g) (hp : ∀ v s w t, P v s w t → P' v s w t) : Both P' W D f g := by
  cases f <;> cases g <;> first | exact h | exact hp _ _ _ _ h

/-- `D` is kept by whatever the second run still does, and holds where it waits as well. -/
structure GoesOn (D W : State → State → Prop) : Prop where
  stable : ∀ s, Stable true (D s)
  hung : ∀ s t, Hung (D s) t → W s t

/-- Where the two runs wait together or not at all, nothing is asked of `D`. -/
theorem GoesOn.never (W : State → State → Prop) : GoesOn (fun _ _ => False) W := by
  refine ⟨fun s => ?_, fun s t ⟨_, _, h, _⟩ => h.elim⟩
  constructor <;> intros <;> exact False.elim ‹False›

theorem GoesOn.ends {D W : State → State → Prop} (h : GoesOn D W) {s : State} {α : Type} {f : Flow α}
    (hf : Ends (fun _ => D s) (Hung (D s)) f) : Ends (fun _ t => D s t) (W s) f :=
  ends_mono hf (fun _ _ h => h) (h.hung s)

/-- A relation between states that each operation of a page procedure keeps. -/
structure Kept (R W D : State → State → Prop) : Prop where
  goesOn : GoesOn D W
  valid : ∀ s t a, R s t → valid s.params a = valid t.params a
  draws : ∀ s t, R s t → s.draws = t.draws
  erase : ∀ s t a, R s t → Both (fun _ s _ t => R s t) W D (leafErase a s) (leafErase a t)
  write : ∀ s t a d, R s t → s.pbuf = t.pbuf → Both (fun _ s _ t => R s t) W D (leafWrite a d s) (leafWrite a d t)
  read : ∀ s t a, R s t → Both (fun _ s _ t => R s t ∧ s.pbuf = t.pbuf) W D (leafRead a s) (leafRead a t)
  setStatus : ∀ s t v, R s t → R (setStatus v s) (setStatus v t)
  loadPbuf : ∀ s t d, R s t → R (loadPbuf d s) (loadPbuf d t)
  loadBase : ∀ s t d, R s t → R (loadBase d s) (loadBase d t)
  foldPbuf : ∀ s t, R s t → s.pbuf = t.pbuf → R (foldPbuf s) (foldPbuf t)
  emitBeats : ∀ s t x r, R s t → R (emitBeats x r s) (emitBeats x r t)
  draw : ∀ s t n, R s t → R { s with draws := n } { t with draws := n }

/-- Leaf exchanges of two runs whose backends have equally many answers left. -/
theorem leafExchange_both {R W : State → State → Prop}
    (hw : ∀ s t q, R s t → W { s with pending := some q } { t with pending := some q })
    (ha : ∀ s t, R s t → s.answersLeft = t.answersLeft)
    (hn : ∀ s t n, R s t → R { s with answersLeft := n } { t with answersLeft := n })
    (D : State → State → Prop) (q : LeafReq) (s t : State) (h : R s t) :
    Both (fun _ s _ t => R s t) W D (leafExchange q s) (leafExchange q t) := by
  have e := ha s t h
  cases hs : s.answersLeft with
  | none => rw [leafExchange_answered _ _ hs, leafExchange_answered _ _ (e ▸ hs)]; exact h
  | some n =>
    cases n with
    | zero => rw [leafExchange_silent _ _ hs, leafExchange_silent _ _ (e ▸ hs)]; exact hw _ _ _ h
    | succ n => rw [leafExchange_counted _ _ _ hs, leafExchange_counted _ _ _ (e ▸ hs)]; exact hn _ _ _ h

/-- Equal results from related states. -/
abbrev SameRet (R : State → State → Prop) (r : Ret) (s : State) (w : Ret) (t : State) : Prop := r = w ∧ R s t

section Pages

variable {R W D : State → State → Prop}

theorem failWith_both (h : Kept R W D) (n : Nat) (s t : State) (hR : R s t) :
    Both (SameRet R) W D (failWith n s) (failWith n t) := by
  unfold failWith
  rw [h.draws s t hR]
  exact ⟨rfl, h.draw _ _ _ hR⟩

theorem erasePage_both (h : Kept R W D) (a : Nat) (s t : State) (hR : R s t) :
    Both (SameRet R) W D (erasePage a s) (erasePage a t) := by
  unfold erasePage
  rw [h.valid s t a hR]
  split
  · exact both_andThen (h.erase _ _ _ (h.setStatus _ _ _ hR)) (fun _ _ _ _ h' => ⟨rfl, h.setStatus _ _ _ h'⟩)
      fun s _ _ hd => (h.goesOn.stable s).setStatus _ _ hd
  · exact failWith_both h 0 _ _ hR

theorem writePage_both (h : Kept R W D) (a : Nat) (d : Page) (s t : State) (hR : R s t) :
    Both (SameRet R) W D (writePage a d s) (writePage a d t) := by
  unfold writePage
  rw [h.valid s t a hR]
  split
  · exact both_andThen (h.write _ _ _ _ (h.loadPbuf _ _ _ (h.setStatus _ _ _ hR)) rfl)
      (fun _ _ _ _ h' => ⟨rfl, h.setStatus _ _ _ h'⟩) fun s _ _ hd => (h.goesOn.stable s).setStatus _ _ hd
  · exact failWith_both h 0 _ _ hR

/-- After a page read that succeeds PBUF is the same in both runs. -/
theorem getPage_both (h : Kept R W D) (a : Nat) (s t : State) (hR : R s t) :
    Both (fun r s w t => r = w ∧ R s t ∧ (r.result = .ok → s.pbuf = t.pbuf)) W D (getPage a s) (getPage a t) := by
  unfold getPage
  rw [h.valid s t a hR]
  split
  · exact both_andThen (h.read _ _ _ (h.setStatus _ _ _ hR))
      (fun _ _ _ _ h' => ⟨by rw [h'.2], h.setStatus _ _ _ h'.1, fun _ => h'.2⟩)
      fun s _ _ hd => (h.goesOn.stable s).setStatus _ _ hd
  · unfold failWith
    rw [h.draws s t hR]
    exact ⟨rfl, h.draw _ _ _ hR, by simp⟩

theorem getPageBeat_both (h : Kept R W D) (j i a : Nat) (s t : State) (hR : R s t) :
    Both (SameRet R) W D (getPageBeat j i a s) (getPageBeat j i a t) := by
  refine both_andThen (getPage_both h a s t hR) ?_ fun s r t hd => (h.goesOn.stable s).emitBeats _ _ _ hd
  rintro r s w t ⟨rfl, h1, _⟩
  exact ⟨rfl, h.emitBeats _ _ _ _ h1⟩

/-- The loop over sub-operations, with a relation `V` of what they return and a relation `I` of the loop's states. -/
theorem subOps_both (g : GoesOn D W) (l : Level) (body body' : Nat → State → Flow Ret) (I : State → State → Prop)
    (V : Ret → Ret → Prop) (hv : ∀ r w, V r w → r.pages = w.pages)
    (hidx : ∀ s t k, I s t → I (setIdx l k s) (setIdx l k t))
    (hbody : ∀ k s t, I s t → Both (fun r s w t => V r w ∧ I s t) W D (body k s) (body' k t))
    (hgo : ∀ k u t, D u t → Ends (fun _ => D u) (Hung (D u)) (body' k t))
    (hfold : ∀ r w s t, V r w → I s t → I (foldAgg l r.result s) (foldAgg l w.result t)) (n i : Nat) (out : List Page)
    (s t : State) (hI : I s t) :
    Both (fun p s q t => p = q ∧ I s t) W D (subOps l body n i out s) (subOps l body' n i out t) := by
  induction n generalizing i out s t with
  | zero => exact ⟨rfl, hI⟩
  | succ n ih =>
    refine both_andThen (hbody i _ _ (hidx _ _ _ hI)) ?_ ?_
    · rintro r s w t ⟨h1, h2⟩
      rw [hv r w h1]
      exact ih _ _ _ _ (hfold _ _ _ _ h1 h2)
    · intro s r t hd
      exact g.ends (subOps_stable (g.stable s) l body' (fun k t hd => hgo k s t hd) n _ _ _
        ((g.stable s).foldAgg _ _ _ hd))

theorem compound_both (h : Kept R W D) (l : Level) (v : Status) (n a : Nat) (body body' : Nat → State → Flow Ret)
    (I : State → State → Prop) (V : Ret → Ret → Prop) (s t : State) (hR : R s t) (hv : ∀ r w, V r w → r.pages = w.pages)
    (hv' : ∀ r, V r r) (hclear : ∀ s t, R s t → I (clearAgg l s) (clearAgg l t))
    (hidx : ∀ s t k, I s t → I (setIdx l k s) (setIdx l k t))
    (hbody : ∀ k s t, I s t → Both (fun r s w t => V r w ∧ I s t) W D (body k s) (body' k t))
    (hgo : ∀ k u t, D u t → Ends (fun _ => D u) (Hung (D u)) (body' k t))
    (hfold : ∀ r w s t, V r w → I s t → I (foldAgg l r.result s) (foldAgg l w.result t))
    (hend : ∀ s t ps, I s t → V ⟨report l s, ps, none⟩ ⟨report l t, ps, none⟩ ∧ R (setStatus .free s) (setStatus .free t)) :
    Both (fun r s w t => V r w ∧ R s t) W D (compound l v n a body s) (compound l v n a body' t) := by
  unfold compound
  rw [h.valid s t a hR]
  split
  · refine both_andThen (P := fun p s q t => p = q ∧ I s t) ?_ ?_ fun s _ _ hd => (h.goesOn.stable s).setStatus _ _ hd
    · exact subOps_both h.goesOn l body body' I V hv hidx hbody hgo hfold 16 0 [] _ _ (hclear _ _ (h.setStatus _ _ _ hR))
    · rintro p s q t ⟨rfl, hI⟩
      exact hend s t p hI
  · exact both_mono (failWith_both h n _ _ hR) fun r s w t ⟨h1, h2⟩ => ⟨h1 ▸ hv' r, h2⟩

end Pages

/-- A family of relations for whole commands: `R b c` relates states whose AGG, where `b`, and AGG2, where `c`, matter
to what the runs still do. `V` relates what their procedures return. -/
structure CommandRel (R : Bool → Bool → State → State → Prop) (V : Ret → Ret → Prop) (W D : State → State → Prop) :
    Prop where
  kept : ∀ b c, Kept (R b c) W D
  setCheckMode : ∀ s t v, R false false s t → R false false (setCheckMode v s) (setCheckMode v t)
  dropAgg : ∀ b c s t, R b c s t → R false c s t
  dropAgg2 : ∀ b c s t, R b c s t → R b false s t
  ret : ∀ r, V r r
  pages : ∀ r w, V r w → r.pages = w.pages
  clearAgg : ∀ c s t, R false c s t → R true c (clearAgg .sector s) (clearAgg .sector t)
  clearAgg2 : ∀ b s t, R b false s t → R b true (Machine.clearAgg .block s) (Machine.clearAgg .block t)
  setIdx : ∀ b c s t l k, R b c s t → R b c (setIdx l k s) (setIdx l k t)
  foldAgg : ∀ b c s t l r w, V r w → R b c s t → R b c (foldAgg l r.result s) (foldAgg l w.result t)
  report : ∀ c s t ps, R true c s t → V ⟨report .sector s, ps, none⟩ ⟨report .sector t, ps, none⟩
  report2 : ∀ b s t ps, R b true s t → V ⟨Machine.report .block s, ps, none⟩ ⟨Machine.report .block t, ps, none⟩

section Commands

variable {R : Bool → Bool → State → State → Prop} {V : Ret → Ret → Prop} {W D : State → State → Prop}

theorem CommandRel.lift {b c : Bool} (h : CommandRel R V W D) {f g : Flow Ret} (hf : Both (SameRet (R b c)) W D f g) :
    Both (fun r s w t => V r w ∧ R b c s t) W D f g :=
  both_mono hf fun r _ _ _ ⟨h1, h2⟩ => ⟨h1 ▸ h.ret r, h2⟩

theorem sector_both (h : CommandRel R V W D) (v : Status) (n a : Nat) (body : Nat → State → Flow Ret) (c : Bool)
    (s t : State) (hR : R false c s t)
    (hb : ∀ k s t, R true c s t → Both (fun r s w t => V r w ∧ R true c s t) W D (body k s) (body k t))
    (hgo : ∀ k u t, D u t → Ends (fun _ => D u) (Hung (D u)) (body k t)) :
    Both (fun r s w t => V r w ∧ R false c s t) W D (compound .sector v n a body s) (compound .sector v n a body t) :=
  compound_both (h.kept false c) .sector v n a body body (R true c) V s t hR h.pages h.ret (h.clearAgg c)
    (fun _ _ _ => h.setIdx _ _ _ _ _ _) hb hgo (fun _ _ _ _ => h.foldAgg _ _ _ _ _ _ _)
    fun s t ps hI => ⟨h.report c s t ps hI, (h.kept false c).setStatus _ _ _ (h.dropAgg _ _ _ _ hI)⟩

theorem block_both (h : CommandRel R V W D) (v : Status) (n a : Nat) (body : Nat → State → Flow Ret) (s t : State)
    (hR : R false false s t)
    (hb : ∀ k s t, R false true s t → Both (fun r s w t => V r w ∧ R false true s t) W D (body k s) (body k t))
    (hgo : ∀ k u t, D u t → Ends (fun _ => D u) (Hung (D u)) (body k t)) :
    Both (fun r s w t => V r w ∧ R false false s t) W D (compound .block v n a body s) (compound .block v n a body t) :=
  compound_both (h.kept false false) .block v n a body body (R false true) V s t hR h.pages h.ret (h.clearAgg2 false)
    (fun _ _ _ => h.setIdx _ _ _ _ _ _) hb hgo (fun _ _ _ _ => h.foldAgg _ _ _ _ _ _ _)
    fun s t ps hI => ⟨h.report2 _ s t ps hI, (h.kept false false).setStatus _ _ _ (h.dropAgg2 _ _ _ _ hI)⟩

theorem writeSector_both (h : CommandRel R V W D) (a : Nat) (d : List Page) (c : Bool) (s t : State)
    (hR : R false c s t) : Both (fun r s w t => V r w ∧ R false c s t) W D (writeSector a d s) (writeSector a d t) :=
  sector_both h _ _ _ _ _ _ _ hR (fun _ _ _ hh => h.lift (writePage_both (h.kept _ _) _ _ _ _ hh))
    fun _ u _ hd => writePage_stable ((h.kept false c).goesOn.stable u) _ _ _ hd

theorem getSector_both (h : CommandRel R V W D) (j a : Nat) (c : Bool) (s t : State) (hR : R false c s t) :
    Both (fun r s w t => V r w ∧ R false c s t) W D (getSector j a s) (getSector j a t) :=
  sector_both h _ _ _ _ _ _ _ hR (fun _ _ _ hh => h.lift (getPageBeat_both (h.kept _ _) _ _ _ _ _ hh))
    fun _ u _ hd => getPageBeat_stable ((h.kept false c).goesOn.stable u) _ _ _ _ hd

theorem eraseFull_both (h : CommandRel R V W D) (s t : State) (hR : R false false s t) (hst : s.status = t.status)
    (hs : s.params.startAddress = t.params.startAddress) (hn : nFull s.params = nFull t.params) :
    Both (fun r s w t => V r w ∧ R false false s t) W D (eraseFull s) (eraseFull t) := by
  have k := h.kept false false
  unfold eraseFull
  rw [hst, hs, hn]
  split
  · refine both_andThen (P := fun p s q t => p = q ∧ R false false s t) ?_ ?_
      fun s _ _ hd => (k.goesOn.stable s).setStatus _ _ hd
    · exact subOps_both k.goesOn .full (fun n => erasePage (pageStride t.params.startAddress.toNat n))
        (fun n => erasePage (pageStride t.params.startAddress.toNat n)) (R false false) V h.pages (fun _ _ _ => h.setIdx _ _ _ _ _ _)
        (fun _ _ _ hh => h.lift (erasePage_both k _ _ _ hh))
        (fun _ u _ hd => erasePage_stable (k.goesOn.stable u) _ _ hd) (fun _ _ _ _ => h.foldAgg _ _ _ _ _ _ _) _ _ _ _ _
        (k.setStatus _ _ _ hR)
    · rintro p s q t ⟨rfl, hI⟩
      exact ⟨h.ret _, k.setStatus _ _ _ hI⟩
  · exact h.lift (failWith_both k _ _ _ hR)

/-- Every command but the checksum, run from related states. -/
theorem procOf_both (h : CommandRel R V W D) (i : Instr) (hi : ∀ a, i ≠ .getPageCrc16 a) (s t : State)
    (hR : R false false s t) (hst : s.status = t.status) (hs : s.params.startAddress = t.params.startAddress)
    (hn : nFull s.params = nFull t.params) :
    Both (fun r s w t => V r w ∧ R false false s t) W D (procOf i s) (procOf i t) := by
  have k := h.kept false false
  have hL : ∀ a, R false false (loadBase a s) (loadBase a t) := fun a => k.loadBase _ _ _ hR
  cases i with
  | erasePage a => exact h.lift (erasePage_both k _ _ _ (hL a))
  | eraseSector a =>
    exact sector_both h _ _ _ _ _ _ _ (hL a) (fun _ _ _ hh => h.lift (erasePage_both (h.kept _ _) _ _ _ hh))
      fun _ u _ hd => erasePage_stable (k.goesOn.stable u) _ _ hd
  | eraseBlock a =>
    exact sector_both h _ _ _ _ _ _ _ (hL a) (fun _ _ _ hh => h.lift (erasePage_both (h.kept _ _) _ _ _ hh))
      fun _ u _ hd => erasePage_stable (k.goesOn.stable u) _ _ hd
  | eraseFull a => exact eraseFull_both h s t hR hst hs hn
  | writePage a d => exact h.lift (writePage_both k _ _ _ _ (hL a))
  | writeSector a d => exact writeSector_both h _ _ _ _ _ (hL a)
  | writeBlock a d =>
    exact block_both h _ _ _ _ _ _ (hL a) (fun _ _ _ hh => writeSector_both h _ _ _ _ _ hh)
      fun _ u _ hd => writeSector_stable (k.goesOn.stable u) _ _ _ hd
  | getPage a => exact h.lift (getPageBeat_both k _ _ _ _ _ (hL a))
  | getSector a => exact getSector_both h _ _ _ _ _ (hL a)
  | getBlock a =>
    exact block_both h _ _ _ _ _ _ (hL a) (fun _ _ _ hh => getSector_both h _ _ _ _ _ hh)
      fun _ u _ hd => getSector_stable (k.goesOn.stable u) _ _ _ hd
  | getPageCrc16 a => exact absurd rfl (hi a)
  | enableCheckMode a => exact ⟨h.ret _, h.setCheckMode _ _ _ hR⟩
  | disableCheckMode a => exact ⟨h.ret _, h.setCheckMode _ _ _ hR⟩
  | reserved0 a => exact h.lift (failWith_both k _ _ _ hR)
  | reservedE a => exact h.lift (failWith_both k _ _ _ hR)
  | reservedF a => exact h.lift (failWith_both k _ _ _ hR)

/-- The checksum command from related states: both fail, or both assemble the same accumulators. -/
theorem getPageCrc16_both (h : CommandRel R V W D) (a : Addr) (s t : State) (hR : R false false s t) :
    Both (fun r s w t => ((r = w ∧ r.result = .fail) ∨ ∃ c, r = ⟨.ok, [], some (crcAssemble s.params.crcSwap c)⟩ ∧
        w = ⟨.ok, [], some (crcAssemble t.params.crcSwap c)⟩) ∧ R false false s t) W D
      (procOf (.getPageCrc16 a) s) (procOf (.getPageCrc16 a) t) := by
  have k := h.kept false false
  refine both_andThen (getPage_both k _ _ _ (k.loadBase _ _ a hR)) ?_ ?_
  · rintro r s w t ⟨rfl, hI, hp⟩
    split
    · exact ⟨.inl ⟨rfl, rfl⟩, hI⟩
    · next hr =>
      refine ⟨.inr ⟨crcFold (pageBytes s.pbuf), by simp only [foldPbuf], ?_⟩, k.foldPbuf _ _ hI (hp hr)⟩
      rw [hp hr]
      simp only [foldPbuf]
  · intro s r t hd
    apply k.goesOn.ends
    split
    · exact hd
    · exact (k.goesOn.stable s).foldPbuf _ hd

end Commands

end Sys2Proof.Machine
end

