-- ==== Sys2Proof/Laws/Requests.lean ====
section
/-! SUPPORT. Which leaf requests a procedure issues: their addresses, their order and their number, carried through each
page and compound procedure. -/

namespace Sys2Proof.Machine

open Sys2Proof

/-- The leaf requests of the trace so far are in strictly ascending order, below `b`, at valid addresses, and between
`lo` and `hi` in number. -/
structure Requests (p : Params) (b lo hi : Nat) (t : State) : Prop where
  params : t.params = p
  ascending : (leafAddrs t.trace).Pairwise (· < ·)
  below : ∀ x ∈ leafAddrs t.trace, x < b ∧ valid p x = true
  lower : lo ≤ (leafAddrs t.trace).length
  upper : (leafAddrs t.trace).length ≤ hi

theorem leafAddrs_request (t u : State) (e : Event) (a : Nat) (hu : u.log = e :: t.log) (he : leafAddr e = some a) :
    leafAddrs u.trace = leafAddrs t.trace ++ [a] := by
  simp [State.trace, hu, leafAddrs, List.filterMap_append, he]

theorem leafAddrs_other (t u : State) (e : Event) (hu : u.log = e :: t.log) (he : leafAddr e = none) :
    leafAddrs u.trace = leafAddrs t.trace := by
  simp [State.trace, hu, leafAddrs, List.filterMap_append, he]

theorem leafAddrs_same (t u : State) (hu : u.log = t.log) : leafAddrs u.trace = leafAddrs t.trace := by
  simp [State.trace, hu]

section Requests

variable {p : Params} {b lo hi : Nat}

theorem Requests.same {t u : State} (h : Requests p b lo hi t) (h1 : u.params = t.params)
    (h2 : leafAddrs u.trace = leafAddrs t.trace) : Requests p b lo hi u := by
  obtain ⟨ha, hb, hc, hd, he⟩ := h
  constructor
  · rw [h1, ha]
  all_goals rw [h2]; assumption

theorem Requests.mono {b' lo' hi' : Nat} {t : State} (h : Requests p b lo hi t) (h1 : b ≤ b') (h2 : lo' ≤ lo)
    (h3 : hi ≤ hi') : Requests p b' lo' hi' t :=
  ⟨h.params, h.ascending, fun x hx => ⟨Nat.lt_of_lt_of_le (h.below x hx).1 h1, (h.below x hx).2⟩, h2.trans h.lower,
    h.upper.trans h3⟩

theorem Requests.setStatus {t : State} (h : Requests p b lo hi t) (v : Status) : Requests p b lo hi (setStatus v t) :=
  h.same rfl (leafAddrs_other _ _ _ rfl rfl)

/-- One more request, at an address not below the bound. -/
theorem Requests.request {t u : State} {e : Event} {a : Nat} (h : Requests p b lo hi t) (h1 : u.params = t.params)
    (hu : u.log = e :: t.log) (he : leafAddr e = some a) (hb : b ≤ a) (hv : valid p a = true) :
    Requests p (a + 1) (lo + 1) (hi + 1) u := by
  have e := leafAddrs_request t u e a hu he
  refine ⟨h1.trans h.params, ?_, ?_, ?_, ?_⟩
  · rw [e, List.pairwise_append]
    refine ⟨h.ascending, by simp, fun x hx y hy => ?_⟩
    obtain rfl := List.mem_singleton.1 hy
    exact Nat.lt_of_lt_of_le (h.below x hx).1 hb
  · intro x hx
    rw [e] at hx
    rcases List.mem_append.1 hx with hx | hx
    · exact ⟨Nat.lt_succ_of_le (Nat.le_trans (Nat.le_of_lt (h.below x hx).1) hb), (h.below x hx).2⟩
    · obtain rfl := List.mem_singleton.1 hx
      exact ⟨Nat.lt_succ_self _, hv⟩
  · have := h.lower
    simp only [e, List.length_append, List.length_singleton]
    omega
  · have := h.upper
    simp only [e, List.length_append, List.length_singleton]
    omega

/-- A page procedure issues one request, where its address is valid. -/
abbrev oneIfValid (p : Params) (a : Nat) : Nat := if valid p a then 1 else 0

/-- The common shape of the page procedures: `k` before the exchange, `g` after its answer. -/
theorem page_requests {a : Nat} {s : State} {f : Flow Ret} {g k : State → State} {e : State → Event} (q : LeafReq)
    (n : Nat) (v : Status) (ret : State → Ret)
    (hf : f = if valid s.params a then
      andThen (andThen (leafExchange q (k (setStatus v s))) (fun _ t => .done () (g t)))
        (fun _ t => .done (ret t) (Machine.setStatus .free t)) else failWith n s)
    (hk : ∀ t, (k t).params = t.params ∧ (k t).log = t.log) (hg : ∀ t, (g t).params = t.params ∧ (g t).log = e t :: t.log)
    (he : ∀ t, leafAddr (e t) = some a) (h : Requests p b lo hi s) (hb : b ≤ a) :
    Ends (fun _ t => Requests p (a + 1) (lo + oneIfValid p a) (hi + 1) t) (fun t => Requests p (a + 1) lo (hi + 1) t)
      f := by
  rw [hf, h.params]
  by_cases hv : valid p a = true
  · rw [if_pos hv, show oneIfValid p a = 1 from if_pos hv]
    have h1 : Requests p b lo hi (k (Machine.setStatus v s)) := (h.setStatus v).same (hk _).1 (leafAddrs_same _ _ (hk _).2)
    refine ends_andThen (P := fun _ t => Requests p (a + 1) (lo + 1) (hi + 1) t)
      (ends_andThen (P := fun _ t => Requests p b lo hi t)
        (leafExchange_ends (P := fun t => Requests p b lo hi t) _ _ h1 (fun n => h1.same rfl rfl) ?_)
        fun _ t ht => ht.request (hg t).1 (hg t).2 (he t) hb hv)
      fun _ t ht => ht.setStatus .free
    exact (h1.same (u := { k (Machine.setStatus v s) with pending := some q }) rfl rfl).mono (by omega) (Nat.le_refl _)
      (by omega)
  · rw [if_neg hv, show oneIfValid p a = 0 from if_neg hv]
    exact (h.same (u := { s with draws := s.draws + n }) rfl rfl).mono (by omega) (Nat.le_refl _) (by omega)

theorem erasePage_requests (a : Nat) {s : State} (h : Requests p b lo hi s) (hb : b ≤ a) :
    Ends (fun _ t => Requests p (a + 1) (lo + oneIfValid p a) (hi + 1) t) (fun t => Requests p (a + 1) lo (hi + 1) t)
      (erasePage a s) :=
  page_requests (g := erased a) (k := id) (e := fun _ => .leafErase a) (.erase a) 0 .erasingPage
    (fun _ => { result := .ok }) rfl (fun _ => ⟨rfl, rfl⟩) (fun _ => ⟨rfl, rfl⟩) (fun _ => rfl) h hb

theorem writePage_requests (a : Nat) (d : Page) {s : State} (h : Requests p b lo hi s) (hb : b ≤ a) :
    Ends (fun _ t => Requests p (a + 1) (lo + oneIfValid p a) (hi + 1) t) (fun t => Requests p (a + 1) lo (hi + 1) t)
      (writePage a d s) :=
  page_requests (g := written a d) (k := loadPbuf d) (e := fun _ => .leafWrite a d) (.write a d) 0 .writingPage
    (fun _ => { result := .ok }) rfl (fun _ => ⟨rfl, rfl⟩) (fun _ => ⟨rfl, rfl⟩) (fun _ => rfl) h hb

theorem getPage_requests (a : Nat) {s : State} (h : Requests p b lo hi s) (hb : b ≤ a) :
    Ends (fun _ t => Requests p (a + 1) (lo + oneIfValid p a) (hi + 1) t) (fun t => Requests p (a + 1) lo (hi + 1) t)
      (getPage a s) :=
  page_requests (g := readInto a) (k := id) (e := fun t => .leafRead a (readAnswer a t)) (.read a) 1 .readingPage
    (fun t => { result := .ok, pages := [t.pbuf] }) rfl (fun _ => ⟨rfl, rfl⟩) (fun _ => ⟨rfl, rfl⟩) (fun _ => rfl) h hb

theorem getPageBeat_requests (j i a : Nat) {s : State} (h : Requests p b lo hi s) (hb : b ≤ a) :
    Ends (fun _ t => Requests p (a + 1) (lo + oneIfValid p a) (hi + 1) t) (fun t => Requests p (a + 1) lo (hi + 1) t)
      (getPageBeat j i a s) :=
  ends_andThen (getPage_requests a h hb) fun _ _ ht => by
    rw [ends_done]
    exact ht.same (by simp) (leafAddrs_same _ _ (by simp))

/-- A compound procedure at stride `m` whose sub-operations each issue at most `c` requests, below `w` from their start;
past its validation it issues at least one. -/
theorem compound_requests (l : Level) (v : Status) (n a m c w : Nat) (body : Nat → State → Flow Ret) {s : State}
    (h : Requests p b lo hi s) (hb : b ≤ a) (hw : w ≤ m)
    (hbody : ∀ k, k < 16 → ∀ b lo hi t, Requests p b lo hi t → b ≤ a + m * k →
      Ends (fun _ t => Requests p (a + m * k + w) (lo + oneIfValid p (a + m * k)) (hi + c) t)
        (fun t => Requests p (a + m * k + w) lo (hi + c) t) (body k t)) :
    Ends (fun _ t => Requests p (a + m * 16) (lo + oneIfValid p a) (hi + c * 16) t)
      (fun t => Requests p (a + m * 16) lo (hi + c * 16) t) (compound l v n a body s) := by
  unfold compound
  rw [h.params]
  by_cases hv : valid p a = true
  · have hone : oneIfValid p a = 1 := if_pos hv
    rw [if_pos hv, hone]
    have h0 : Requests p b lo hi (clearAgg l (Machine.setStatus v s)) :=
      (h.setStatus v).same (by simp) (leafAddrs_same _ _ (by simp))
    refine ends_andThen (P := fun _ t => Requests p (a + m * 16) (lo + 1) (hi + c * 16) t) ?_
      fun _ t ht => ht.setStatus .free
    have := subOps_ends l body
      (fun k _ t => Requests p (if k = 0 then b else a + m * k) (lo + (if k = 0 then 0 else 1)) (hi + c * k) t)
      (fun t => Requests p (a + m * 16) lo (hi + c * 16) t) 16 ?_ 16 0 rfl [] _ (by simpa using h0)
    · exact ends_mono this (fun _ t ht => by simpa using ht) fun _ h => h
    · intro k hk out t ht
      have h1 : Requests p (if k = 0 then b else a + m * k) (lo + (if k = 0 then 0 else 1)) (hi + c * k)
        (setIdx l k t) := ht.same (by simp) (leafAddrs_same _ _ (by simp))
      have hle : (if k = 0 then b else a + m * k) ≤ a + m * k := by split <;> omega
      have hmk : m * k + m ≤ m * 16 := by rw [← Nat.mul_succ]; exact Nat.mul_le_mul_left m hk
      have hck : c * k + c ≤ c * 16 := by rw [← Nat.mul_succ]; exact Nat.mul_le_mul_left c hk
      refine ends_mono (hbody k hk _ _ _ _ h1 hle) (fun r u hu => ?_) fun u hu => hu.mono (by omega) (by omega) (by omega)
      have h2 : Requests p (a + m * k + w) (lo + (if k = 0 then 0 else 1) + oneIfValid p (a + m * k)) (hi + c * k + c)
        (foldAgg l r.result u) := hu.same (by simp) (leafAddrs_same _ _ (by simp))
      refine h2.mono ?_ ?_ ?_
      · simp [Nat.mul_succ]
        omega
      · by_cases hk0 : k = 0
        · subst hk0
          simp [hone]
        · simp [hk0]
      · rw [Nat.mul_succ]
        omega
  · rw [if_neg hv, show oneIfValid p a = 0 from if_neg hv]
    exact (h.same (u := { s with draws := s.draws + n }) rfl rfl).mono (by omega) (Nat.le_refl _) (by omega)

end Requests

end Sys2Proof.Machine
end

