-- ==== Sys2Proof/Tests/Slice0.lean ====
section
/-! SUPPORT. Tests. The expected values are those of spec/95_test_vectors.md (its vector's name stands before each test)
and of the rules named; then one witness for the hypotheses of each obligation that has any. -/

set_option Elab.async false

namespace Sys2Proof.Tests

open Sys2Proof Sys2Proof.Machine

/-! ### Helpers -/

/-- The state after reset over a window, with every flash byte `fill`. -/
def onWindow (a b : Addr) (fill : Byte) : State :=
  { State.reset with
    params := { Params.example with startAddress := a, endAddress := b }
    flash := { fill := fill, cells := [] } }

/-- The window of R3's scenario, as most vectors of 95_test_vectors.md use it. -/
def wide (fill : Byte) : State := onWindow 0x08000000 0x08200000 fill

/-- The window of program P4. -/
def small (fill : Byte) : State := onWindow 0x1000 0x13FF fill

/-- What one step on a word and its beats answers satisfies `ok`. -/
def runs (s : State) (w : CmdWord) (wd : List Page) (ok : State → Bool) : Bool :=
  match step { s with cmd := [w], wd := wd } with
  | .next t => ok t
  | .fault _ => false
  | .refused _ => false

def result (t : State) : Option Result := t.rsp.map (fun r => r.result)

/-- `n` SW of 95_test_vectors.md: the number of StatusWrite events. -/
def sw (t : State) : Nat := (t.log.filter fun e => match e with
  | .statusWrite _ => true
  | .checkModeWrite _ => false
  | .leafErase _ => false
  | .leafWrite _ _ => false
  | .leafRead _ _ => false).length

/-- The byte sequence `0x00, 0x01, …, 0xFF`. -/
def ramp : Page := packPage ((List.range 256).map (BitVec.ofNat 8))

/-- Failed at validation: Fail, an empty trace, no RD beat, no register or flash byte changed, nothing left on WD. -/
def failed (s t : State) : Bool :=
  result t == some .fail && t.trace == [] && t.rd == [] && t.wd == [] && t.status == s.status &&
    t.checkMode == s.checkMode && t.pbuf == s.pbuf && t.flash == s.flash && t.base == s.base

/-! ### WellFormed -/

theorem test_sector_of_15_beats_refused : (Instr.writeSector 0 (List.replicate 15 0)).wf = false := by decide
theorem test_sector_of_17_beats_refused : (Instr.writeSector 0 (List.replicate 17 0)).wf = false := by decide
theorem test_block_of_255_beats_refused : (Instr.writeBlock 0 (List.replicate 255 0)).wf = false := by decide +kernel
theorem test_window_upside_down_refused :
    ({ Params.example with startAddress := 0x1001, endAddress := 0x1000 } : Params).wf = false := by decide
theorem test_window_of_one_byte_accepted :
    ({ Params.example with startAddress := 0x0005, endAddress := 0x0005 } : Params).wf = true := by decide

/-! ### Decoding: `{op, addr}` of R45 with the opcodes of R46, written out -/

theorem test_decode_erase_page : decode 0x108000000 [] = .ok (.erasePage 0x08000000, []) := by decide
theorem test_decode_erase_sector : decode 0x208001000 [] = .ok (.eraseSector 0x08001000, []) := by decide
theorem test_decode_erase_block : decode 0x308010000 [] = .ok (.eraseBlock 0x08010000, []) := by decide
theorem test_decode_erase_full : decode 0x400000000 [] = .ok (.eraseFull 0, []) := by decide
theorem test_decode_write_page : decode 0x508000100 [1, 2] = .ok (.writePage 0x08000100 1, [2]) := by decide +kernel
theorem test_decode_write_sector : decode 0x608002000 (List.replicate 16 5 ++ [6]) =
    .ok (.writeSector 0x08002000 (List.replicate 16 5), [6]) := by decide +kernel
theorem test_decode_write_block : decode 0x708010000 (List.replicate 256 5) =
    .ok (.writeBlock 0x08010000 (List.replicate 256 5), []) := by decide +kernel
theorem test_decode_write_waits : decode 0x608002000 (List.replicate 15 5) = .error .writeDataMissing := by decide +kernel
theorem test_decode_get_page : decode 0x808000100 [9] = .ok (.getPage 0x08000100, [9]) := by decide +kernel
theorem test_decode_get_sector : decode 0x908001000 [] = .ok (.getSector 0x08001000, []) := by decide
theorem test_decode_get_block : decode 0xA08010000 [] = .ok (.getBlock 0x08010000, []) := by decide
theorem test_decode_get_page_crc16 : decode 0xB08001100 [] = .ok (.getPageCrc16 0x08001100, []) := by decide
theorem test_decode_enable_check_mode : decode 0xC00000000 [] = .ok (.enableCheckMode 0, []) := by decide
theorem test_decode_disable_check_mode : decode 0xD00000000 [] = .ok (.disableCheckMode 0, []) := by decide
theorem test_decode_reserved_0 : decode 0x012345678 [] = .ok (.reserved0 0x12345678, []) := by decide
theorem test_decode_reserved_e : decode 0xE08000000 [] = .ok (.reservedE 0x08000000, []) := by decide
theorem test_decode_reserved_f : decode 0xFFFFFFFFF [] = .ok (.reservedF 0xFFFFFFFF, []) := by decide
theorem test_number_above_36_bits_is_no_word : decodeTableWord 40 0x1108000000 = none := by decide +kernel

/-- R60: the text and the word of an example of its own. -/
theorem test_text_of_erase_page :
    (Instr.erasePage 0x08000000).text = "ERASE_PAGE 0x08000000" ∧ cmdWordText 0x108000000 = "0x108000000" := by
  decide +kernel

/-- R58: byte 0 in the least significant bits. -/
theorem test_byte_order_of_a_beat : pageByte (0x0201 : Page) 0 = 0x01 ∧ pageByte (0x0201 : Page) 1 = 0x02 := by
  decide +kernel

/-- R51: the codes of STATUS. -/
theorem test_status_codes : [Status.free, .erasingPage, .erasingSector, .erasingBlock, .erasingFull, .writingPage,
    .writingSector, .writingBlock, .readingPage, .readingSector, .readingBlock].map Status.code =
    [0, 1, 2, 3, 4, 5, 6, 7, 8, 9, 10] := by decide

/-- 95_test_vectors.md 2.1: for `a = 0x08010000`, the leaf address of (3, 5). -/
theorem test_leaf_address_of_sector_3_page_5 : pageStride (sectorStride 0x08010000 3) 5 = 0x08013500 := by decide

/-- 95_test_vectors.md 2.2: the table of N_FULL. -/
theorem test_n_full : [((0x08000000 : Addr), (0x08200000 : Addr)), (0x08000000, 0x081FFFFF), (0x1000, 0x13FF),
      (0x1000, 0x1400), (0x0005, 0x0005), (0x0010, 0x010F), (0x0010, 0x0110)].map
    (fun w => nFull { Params.example with startAddress := w.1, endAddress := w.2 }) =
    [8193, 8192, 4, 5, 1, 1, 2] := by decide

/-! ### One step each -/

/-- V3: END_ADDRESS is valid. -/
theorem test_erase_page_at_end : runs (wide 0x00) 0x108200000 [] (fun t =>
    result t == some .ok && t.trace == [.statusWrite .erasingPage, .leafErase 0x08200000, .statusWrite .free] &&
      t.flash.read 0x081FFFFF == 0x00 && t.flash.read 0x08200000 == 0xFF && t.flash.read 0x082000FF == 0xFF &&
      t.flash.read 0x08200100 == 0x00) = true := by decide +kernel

/-- V1, V4. -/
theorem test_erase_page_outside : (runs (wide 0x00) 0x107FFFFFF [] (failed (wide 0x00)) &&
    runs (wide 0x00) 0x108200001 [] (failed (wide 0x00))) = true := by decide +kernel

/-- E4. -/
theorem test_erase_sector_cut_by_the_window : runs (wide 0x00) 0x2081FF800 [] (fun t =>
    result t == some .fail && sw t == 20 && leafAddrs t.trace == (List.range 9).map (fun i => 0x081FF800 + 256 * i) &&
      t.flash.read 0x081FF7FF == 0x00 && t.flash.read 0x081FF800 == 0xFF && t.flash.read 0x082000FF == 0xFF &&
      t.flash.read 0x08200100 == 0x00) = true := by decide +kernel

/-- 95_test_vectors.md 2.1, no-wrap arithmetic. -/
theorem test_erase_sector_does_not_wrap : runs (onWindow 0 0xFFFFFFFF 0x00) 0x2FFFFFF00 [] (fun t =>
    result t == some .fail && t.trace == [.statusWrite .erasingSector, .statusWrite .erasingPage,
      .leafErase 0xFFFFFF00, .statusWrite .free, .statusWrite .free]) = true := by decide +kernel

/-- E3, E8: STATUS is not tested. -/
theorem test_erase_block_coverage : runs { wide 0x00 with status := 5 } 0x308010000 [] (fun t =>
    result t == some .ok && t.status == 0 && sw t == 34 &&
      leafAddrs t.trace == (List.range 16).map (fun j => 0x08010000 + 4096 * j) &&
      t.flash.read 0x080110FF == 0xFF && t.flash.read 0x08011100 == 0x00) = true := by decide +kernel

/-- E6. -/
theorem test_erase_block_cut_by_the_window : runs (wide 0x00) 0x3081FE000 [] (fun t =>
    result t == some .fail && sw t == 8 && leafAddrs t.trace == [0x081FE000, 0x081FF000, 0x08200000]) = true := by
  decide +kernel

/-- P4 step 2, E12. -/
theorem test_erase_full_trace : runs (small 0x12) 0x4DEADBEEF [] (fun t =>
    result t == some .ok && t.trace == [.statusWrite .erasingFull,
      .statusWrite .erasingPage, .leafErase 0x1000, .statusWrite .free,
      .statusWrite .erasingPage, .leafErase 0x1100, .statusWrite .free,
      .statusWrite .erasingPage, .leafErase 0x1200, .statusWrite .free,
      .statusWrite .erasingPage, .leafErase 0x1300, .statusWrite .free, .statusWrite .free] &&
      t.flash.read 0x0FFF == 0x12 && t.flash.read 0x1000 == 0xFF && t.flash.read 0x13FF == 0xFF &&
      t.flash.read 0x1400 == 0x12) = true := by decide +kernel

/-- E10, E11. -/
theorem test_erase_full_guard :
    (runs { small 0x12 with status := 5 } 0x400000000 [] (failed { small 0x12 with status := 5 }) &&
      runs { small 0x12 with status := 4 } 0x400000000 [] (failed { small 0x12 with status := 4 })) = true := by
  decide +kernel

/-- W2: `0xF0 & 0x3C = 0x30`. -/
theorem test_write_page_only_clears_bits : runs (wide 0xF0) 0x508000100 [repPage 0x3C] (fun t =>
    result t == some .ok && t.pbuf == repPage 0x3C &&
      t.trace == [.statusWrite .writingPage, .leafWrite 0x08000100 (repPage 0x3C), .statusWrite .free] &&
      t.flash.read 0x080000FF == 0xF0 && t.flash.read 0x08000100 == 0x30 && t.flash.read 0x080001FF == 0x30 &&
      t.flash.read 0x08000200 == 0xF0) = true := by decide +kernel

/-- V9: the beat is consumed. -/
theorem test_write_page_outside : runs (wide 0xFF) 0x508300000 [0] (failed (wide 0xFF)) = true := by decide +kernel

/-- W4: slice `i` lands in page `i`. -/
theorem test_write_sector_slices :
    runs (wide 0xFF) 0x608002000 ((List.range 16).map fun i => repPage (BitVec.ofNat 8 i)) (fun t =>
      result t == some .ok && sw t == 34 && t.flash.read 0x08001FFF == 0xFF && t.flash.read 0x08002000 == 0x00 &&
        t.flash.read 0x080027FF == 0x07 && t.flash.read 0x08002FFF == 0x0F && t.flash.read 0x08003000 == 0xFF) =
      true := by decide +kernel

/-- W8. -/
theorem test_write_sector_at_end : runs (wide 0xFF) 0x608200000 (List.replicate 16 0) (fun t =>
    result t == some .fail && sw t == 4 && leafAddrs t.trace == [0x08200000] && t.wd == [] &&
      t.flash.read 0x08200000 == 0x00 && t.flash.read 0x082000FF == 0x00 && t.flash.read 0x08200100 == 0xFF) =
    true := by decide +kernel

/-- W7. -/
theorem test_write_block_cut_by_the_window : runs (wide 0x00) 0x7081FE000 (List.replicate 256 0) (fun t =>
    result t == some .fail && sw t == 74 && (leafAddrs t.trace).length == 33 &&
      leafAddrs t.trace == (List.range 33).map (fun k => 0x081FE000 + 256 * k) && t.wd == []) = true := by decide +kernel

/-- V10: only the start is tested, and all 256 beats are dropped. -/
theorem test_write_block_below : runs (wide 0xFF) 0x707FF8000 (List.replicate 256 0) (failed (wide 0xFF)) = true := by
  decide +kernel

/-- The flash of W1: the page at `0x08000100` holds the ramp. -/
def ramped (a : Nat) (s : State) : State := { s with flash := s.flash.writePage a ramp }

/-- G1. -/
theorem test_get_page : runs (ramped 0x08000100 (wide 0xFF)) 0x808000100 [] (fun t =>
    result t == some .ok && t.rsp.map (fun r => r.rdata) == some [ramp] && t.pbuf == ramp && t.rd == [⟨0, ramp⟩] &&
      t.trace == [.statusWrite .readingPage, .leafRead 0x08000100 ramp, .statusWrite .free]) = true := by decide +kernel

/-- V11: Fail, no leaf read, no RD beat, and 256 unspecified bytes. -/
theorem test_get_page_outside : runs (wide 0xFF) 0x808300000 [] (fun t =>
    failed (wide 0xFF) t && t.rsp.map (fun r => r.rdata.length) == some 1) = true := by decide +kernel

/-- G2: `rep(0xFF, 256) ++ ramp ++ rep(0xFF, 3584)`. -/
theorem test_get_sector : runs (ramped 0x08001100 (wide 0xFF)) 0x908001000 [] (fun t =>
    result t == some .ok && sw t == 34 && (leafAddrs t.trace).length == 16 && t.rd.length == 16 &&
      t.rsp.map (fun r => r.rdata) == some ([repPage 0xFF, ramp] ++ List.replicate 14 (repPage 0xFF))) = true := by
  decide +kernel

/-- G4: nine pages read, seven unspecified, and no beat for those. -/
theorem test_get_sector_cut_by_the_window : runs (wide 0xAA) 0x9081FF800 [] (fun t =>
    result t == some .fail && sw t == 20 && (leafAddrs t.trace).length == 9 &&
      t.rd.map (fun b => b.index.toNat) == [8, 7, 6, 5, 4, 3, 2, 1, 0] &&
      t.rsp.map (fun r => r.rdata.take 9) == some (List.replicate 9 (repPage 0xAA)) &&
      t.rsp.map (fun r => r.rdata.length) == some 16) = true := by decide +kernel

/-- The read counterpart of W7 (R91): 33 leaf reads, beats 0 to 32, and 65536 bytes returned. -/
theorem test_get_block_cut_by_the_window : runs (wide 0xAA) 0xA081FE000 [] (fun t =>
    result t == some .fail && sw t == 74 && t.rd.map (fun b => b.index.toNat) == (List.range 33).reverse &&
      t.rsp.map (fun r => r.rdata.length) == some 256) = true := by decide +kernel

/-- G6. -/
theorem test_get_block_outside : runs (wide 0xFF) 0xA08300000 [] (failed (wide 0xFF)) = true := by decide +kernel

/-- K17: `RSP = 0x0DE6C`, and no RD beat. -/
theorem test_get_page_crc16 : runs (ramped 0x08001100 (wide 0xFF)) 0xB08001100 [] (fun t =>
    t.rsp.map (fun r => r.word) == some 0x0DE6C && t.rd == [] && t.crcHi == 0xDE && t.crcLo == 0x6C &&
      t.trace == [.statusWrite .readingPage, .leafRead 0x08001100 ramp, .statusWrite .free]) = true := by decide +kernel

/-- K19, and K18 with CRC_SWAP the other way: `0xFF30`. -/
theorem test_get_page_crc16_outside_and_swapped : (runs (wide 0xFF) 0xB08300000 [] (failed (wide 0xFF)) &&
    runs { wide 0xFF with params := { (wide 0xFF).params with crcSwap := true } } 0xB08001000 [] (fun t =>
      t.rsp.map (fun r => r.crc) == some 0xFF30)) = true := by decide +kernel

/-- M1, M5: the address field is ignored. -/
theorem test_enable_check_mode : (runs (wide 0xFF) 0xC00000000 [] (fun t =>
      result t == some .ok && t.checkModeO && t.trace == [.checkModeWrite true]) &&
    runs { wide 0xFF with checkMode := true } 0xCFFFFFFFF [] (fun t => result t == some .ok && t.checkMode)) = true := by
  decide +kernel

/-- M4: STATUS is neither tested nor written. -/
theorem test_disable_check_mode : runs { wide 0xFF with checkMode := true, status := 3 } 0xD00000000 [] (fun t =>
    result t == some .ok && !t.checkMode && t.statusO == 3 && t.trace == [.checkModeWrite false]) = true := by
  decide +kernel

/-- M7, M8, M9. -/
theorem test_reserved_opcodes : (runs (wide 0xFF) 0x012345678 [] (failed (wide 0xFF)) &&
    runs (wide 0xFF) 0xE08000000 [] (failed (wide 0xFF)) &&
    runs (wide 0xFF) 0xFFFFFFFFF [] (failed (wide 0xFF))) = true := by decide +kernel

/-- Z1. -/
theorem test_reset : (match step { ramped 0x08000100 (wide 0x00) with checkMode := true, rst := true } with
    | .next t => t.statusO == 0 && !t.checkModeO && !t.busyO && t.flash == (ramped 0x08000100 (wide 0x00)).flash
    | .fault _ => false
    | .refused _ => false) = true := by decide +kernel

/-- R136: a backend that answers one request and falls silent, in ERASE_SECTOR's second page. -/
theorem test_silent_backend : runs { wide 0x00 with answersLeft := some 1 } 0x208001000 [] (fun t =>
    t.busyO && t.rsp == none && t.pending == some (.erase 0x08001100) && t.statusO == 1 &&
      t.flash.read 0x080010FF == 0xFF && t.flash.read 0x08001100 == 0x00) = true := by decide +kernel

/-- The core as the host's interface has it: an idle step from reset. -/
theorem test_core_idles : Sys2Proof.core.step Sys2Proof.core.reset = .next State.reset := rfl

/-! ### The checksum -/

/-- K1 to K5, with CRC_SWAP false. -/
theorem test_crc_of_short_inputs : [[], [0x00], [0x01], [0x01, 0x02],
      [0x31, 0x32, 0x33, 0x34, 0x35, 0x36, 0x37, 0x38, 0x39]].map (crc16 false) =
    [0xFFFF, 0x40BF, 0x807E, 0xE181, 0x4B37] := by decide +kernel

/-- K8, K11, K12, K14 (a page of zeros with one byte changed) and K10 swapped. -/
theorem test_crc_of_pages : crc16 false (List.replicate 256 0xAA) = 0x033F ∧
    crc16 false (List.replicate 256 0xA5) = 0x79D5 ∧
    crc16 false (0x01 :: List.replicate 255 0x00) = 0x987E ∧
    crc16 false (List.replicate 128 0x00 ++ 0x10 :: List.replicate 127 0x00) = 0x64B2 ∧
    crc16 true (pageBytes ramp) = 0x6CDE := by decide +kernel

/-! ### Witnesses: for each obligation with hypotheses, a state and operands that meet all of them -/

/-- A state in the middle of ERASE_PAGE, WRITE_PAGE or GET_PAGE, waiting for the backend. -/
def midCommand (q : LeafReq) : State :=
  { State.reset with
    curOp := some 1
    status := (LeafReq.status q).code
    pending := some q
    rst := true }

theorem reset_is_ready : Ready State.reset ∧ OnReference State.reset := by decide

/-- Both ends of the window are valid, and their neighbours are not (R63). -/
theorem ends_of_the_window : valid State.reset.params 0x08000000 = true ∧ valid State.reset.params 0x08200000 = true ∧
    valid State.reset.params 0x07FFFFFF = false ∧ valid State.reset.params 0x08200001 = false := by decide

/-- Every addressed command has its hypotheses met at both ends of the window, on the reference backend. -/
theorem ready_and_valid_at_both_ends : Ready State.reset ∧ OnReference State.reset ∧
    valid State.reset.params (0x08000000 : Addr).toNat = true ∧ valid State.reset.params (0x08200000 : Addr).toNat = true := by
  decide

theorem witness_ResetPutsRegistersAtResetValues : ∃ s : State, s.rst = true ∧ s.pending = none ∧ s.checkMode = true :=
  ⟨{ State.reset with rst := true, checkMode := true }, rfl, rfl, rfl⟩

theorem witness_ResetInMidCommandAbandonsIt :
    ∀ q : LeafReq, (midCommand q).rst = true ∧ (midCommand q).busy = true ∧ (midCommand q).pending = some q ∧
      OnReference (midCommand q) := 
  fun _ => ⟨rfl, rfl, rfl, rfl, (by decide : State.reset.flash.wf)⟩

theorem witness_StepKeepsInvariant :
    State.Inv { State.reset with cmd := [0x108000000] } ∧ ∃ t, step { State.reset with cmd := [0x108000000] } = .next t :=
  ⟨{ params_wf := by decide
     flash_wf := by decide
     status_legal := ⟨.free, rfl⟩
     idle_free := fun _ => ⟨rfl, rfl⟩
     busy_waits := fun h => absurd rfl h }, _, rfl⟩

/-- A waiting core meets the invariant too. -/
theorem witness_invariant_in_mid_command : State.Inv (midCommand (.erase 0x08200000)) :=
  { params_wf := by decide
    flash_wf := by decide
    status_legal := ⟨.erasingPage, rfl⟩
    idle_free := fun h => by cases h
    busy_waits := fun _ => ⟨rfl, _, rfl, by decide, rfl⟩ }

theorem witness_StatusIsFreeAtEveryAcceptance : ∃ s : State, Reachable s ∧ s.busy = false ∧ s.cmd = [0xC00000000] :=
  ⟨_, .offer _ [0xC00000000] [] false none
    (.reset Params.example { fill := 0xFF, cells := [] } .reference none 0 (by decide) (by decide)), rfl, rfl⟩

theorem witness_StepKeepsConfiguration : ∃ t, step { State.reset with cmd := [0x400000000] } = .next t := ⟨_, rfl⟩

theorem witness_OnlyCheckModeCommandsChangeCheckMode :
    (∃ t, step { State.reset with cmd := [0xC00000000] } = .next t ∧ t.checkMode ≠ State.reset.checkMode) ∧
    ∃ t, step { State.reset with checkMode := true, rst := true } = .next t ∧ t.checkMode ≠ true :=
  ⟨⟨_, rfl, by decide⟩, _, rfl, by decide⟩

theorem witness_DecodeOfEncodeIsTheCommand : (Instr.writeSector 0xFFFFFFFF (List.replicate 16 0)).wf = true ∧
    (Instr.writeBlock 0 (List.replicate 256 0)).wf = true := by decide +kernel

theorem witness_EncodeOfDecodeIsTheWord :
    decode 0x508000100 [1, 2] = .ok (.writePage 0x08000100 1, [2]) := by decide +kernel

theorem witness_EveryWordIsExactlyOneRow :
    decode 0x000000000 [] = .ok (.reserved0 0, []) ∧ decode 0xFFFFFFFFF [] = .ok (.reservedF 0xFFFFFFFF, []) := by decide

theorem witness_LeafRequestWordHoldsOpAndAddress :
    valid State.reset.params (LeafReq.erase 0x08000000).addr = true ∧
    valid (onWindow 0 0xFFFFFFFF 0).params (LeafReq.write 0xFFFFFFFF 7).addr = true := by decide

theorem witness_BeatCarriesItsBytesInOrder :
    (List.replicate 256 (0xAA : Byte)).length = 256 ∧ 0 < (List.replicate 256 (0xAA : Byte)).length ∧
    255 < (List.replicate 256 (0xAA : Byte)).length ∧ 0 < 8 ∧ 7 < 8 := by decide +kernel

theorem witness_StepRunsTheDecodedCommand : ∃ s : State, s.rst = false ∧ s.busy = false ∧
    s.cmd = 0x508000100 :: [0xFFFFFFFFF] ∧ decode 0x508000100 s.wd = .ok (.writePage 0x08000100 7, [8]) :=
  ⟨{ State.reset with cmd := [0x508000100, 0xFFFFFFFFF], wd := [7, 8] }, rfl, rfl, rfl, by decide +kernel⟩

theorem witness_PlacedWordIsTheNextCommandRun : decodeTableWord 40 0 = some (.reserved0 0) ∧
    decodeTableWord 40 0x5FFFFFFFF = some (.writePage 0xFFFFFFFF 0) ∧
    decodeTableWord 40 0xFFFFFFFFF = some (.reservedF 0xFFFFFFFF) := by decide +kernel

theorem witness_IdleCoreHoldsItsState :
    (State.reset.rst = false ∧ State.reset.busy = false ∧ State.reset.cmd = []) ∧
    ∃ s : State, s.rst = false ∧ s.busy = false ∧ ∃ w rest, s.cmd = w :: rest ∧ s.wd.length < beatCount (cmdOp w) :=
  ⟨⟨rfl, rfl, rfl⟩, { State.reset with cmd := [0x608002000], wd := List.replicate 15 0 }, rfl, rfl, _, _, rfl, by decide⟩

theorem witness_ExecIsTotal :
    (Instr.writeSector 0 (List.replicate 16 0)).wf = true ∧ (small 0x12).params.wf = true := by decide

theorem witness_OnlyIllFormedCasesAreRefused :
    ((Instr.erasePage 0).wf = true ∧ (onWindow 1 0 0).params.wf = false) ∧
    (Instr.writeSector 0 []).wf = false ∧
    exec (.writeSector 0 []) State.reset = .refused .wrongDataLength ∧
    exec (.erasePage 0) (onWindow 1 0 0) = .refused .illFormedParams := ⟨by decide, by decide, rfl, rfl⟩

theorem witness_EveryCommandCompletes :
    (Instr.writeBlock 0 (List.replicate 256 0)).wf = true ∧ Ready State.reset := ⟨by decide +kernel, by decide⟩

/-- The ten commands, just below and just above the window. -/
theorem witness_AddressOutsideWindowFailsWithoutEffect : State.reset.params.wf = true ∧
    ∀ a : Addr, a = 0x07FFFFFF ∨ a = 0x08200001 →
      (a.toNat < State.reset.params.startAddress.toNat ∨ State.reset.params.endAddress.toNat < a.toNat) ∧
      [Instr.erasePage a, .eraseSector a, .eraseBlock a, .writePage a 0, .writeSector a (List.replicate 16 0),
        .writeBlock a (List.replicate 256 0), .getPage a, .getSector a, .getBlock a, .getPageCrc16 a].map
          (fun i => (i.wf, validatedPages i)) =
        [(true, some 0), (true, some 0), (true, some 0), (true, some 0), (true, some 0), (true, some 0),
          (true, some 1), (true, some 16), (true, some 256), (true, some 0)] := by
  refine ⟨by decide, ?_⟩
  rintro a (rfl | rfl) <;> exact ⟨by decide, by decide +kernel⟩

theorem witness_EraseFullFailsUnlessFree : ∀ v ∈ [(1 : BitVec 4), 5, 10, 15],
    ({ State.reset with status := v } : State).params.wf = true ∧
    ({ State.reset with status := v } : State).status ≠ Status.free.code := by decide

theorem witness_ReservedOpcodesFailWithoutEffect : State.reset.params.wf = true ∧
    ∀ i ∈ [Instr.reserved0 0, .reservedE 0, .reservedF 0], i = .reserved0 0 ∨ i = .reservedE 0 ∨ i = .reservedF 0 := by
  decide

theorem witness_ErasePageErasesItsPage : Ready State.reset ∧ OnReference State.reset ∧
    valid State.reset.params (0x08200000 : Addr).toNat = true := by decide

theorem witness_EraseSectorErasesItsValidPages : Ready State.reset ∧ OnReference State.reset ∧
    valid State.reset.params (0x081FF800 : Addr).toNat = true ∧ allValid State.reset.params 0x081FF800 256 = false ∧
    allValid State.reset.params 0x081FF100 256 = true := by decide +kernel

theorem witness_EraseBlockErasesOnePageInSixteen : Ready State.reset ∧ OnReference State.reset ∧
    valid State.reset.params (0x081FE000 : Addr).toNat = true ∧ allValid State.reset.params 0x081FE000 4096 = false ∧
    allValid State.reset.params 0x081F1000 4096 = true := by decide +kernel

theorem witness_EraseFullErasesTheWindow : Ready (small 0x12) ∧ OnReference (small 0x12) ∧
    (small 0x12).status = Status.free.code ∧ (0x1000 ≤ 0x13FF ∧ 0x13FF ≤ (small 0x12).params.endAddress.toNat) := by decide

theorem witness_WritePageAndsIntoItsPage : Ready (wide 0xF0) ∧ OnReference (wide 0xF0) ∧
    valid (wide 0xF0).params (0x08200000 : Addr).toNat = true := by decide

theorem witness_WriteSectorAndsItsValidChunks : Ready State.reset ∧ OnReference State.reset ∧
    (List.replicate 16 (0 : Page)).length = 16 ∧ valid State.reset.params (0x08200000 : Addr).toNat = true :=
  ⟨by decide, by decide, List.length_replicate, by decide⟩

theorem witness_WriteBlockAndsItsValidChunks : Ready State.reset ∧ OnReference State.reset ∧
    (List.replicate 256 (0 : Page)).length = 256 ∧ valid State.reset.params (0x081FE000 : Addr).toNat = true ∧
    blockValid State.reset.params 0x081FE000 = false ∧ blockValid State.reset.params 0x081F0100 = true :=
  ⟨by decide, by decide, List.length_replicate, by decide, by decide +kernel, by decide +kernel⟩

theorem witness_GetPageReturnsTheBackendsAnswer : Ready State.reset ∧ OnReference State.reset ∧
    Ready { State.reset with backend := .oracle } ∧ valid State.reset.params (0x08000000 : Addr).toNat = true ∧
    0 < 256 ∧ 255 < 256 := by decide

theorem witness_GetSectorReturnsItsValidPages : Ready State.reset ∧ OnReference State.reset ∧
    valid State.reset.params (0x081FF800 : Addr).toNat = true ∧
    valid State.reset.params (0x081FF800 + 256 * (2303 / 256)) = true ∧
    valid State.reset.params (0x081FF800 + 256 * (2304 / 256)) = false := by decide

theorem witness_GetBlockReturnsItsValidPages : Ready State.reset ∧ OnReference State.reset ∧
    valid State.reset.params (0x081FE000 : Addr).toNat = true ∧ pageRuns State.reset.params 0x081FE000 8447 = true ∧
    pageRuns State.reset.params 0x081FE000 8448 = false ∧ pageRuns State.reset.params 0x08000000 65535 = true := by decide

theorem witness_BlockRoundTripIsIdempotent : Ready (wide 0x00) ∧ OnReference (wide 0x00) ∧
    blockValid (wide 0x00).params (0x08000000 : Addr).toNat = true ∧
    blockValid (wide 0x00).params (0x081F0100 : Addr).toNat = true := by decide +kernel

theorem witness_GetPageCrc16AnswersTheChecksum : Ready State.reset ∧ OnReference State.reset ∧
    valid State.reset.params (0x08200000 : Addr).toNat = true ∧ 255 < 256 := by decide

theorem witness_SingleBitFlipChangesTheCrc : (0x00 : Byte) ≠ 0x01 ∧ 0 < 2048 ∧ 2047 < 2048 := by decide

theorem witness_CrcIsAffine : (List.replicate 256 (0x0F : Byte)).length = (List.replicate 256 (0xF0 : Byte)).length :=
  List.length_replicate.trans List.length_replicate.symm

theorem witness_EnableCheckModeSetsTheFlag : (small 0x12).params.wf = true := by decide

theorem witness_DisableCheckModeClearsTheFlag :
    ({ small 0x12 with checkMode := true, status := 3 } : State).params.wf = true := by decide

/-- A command in its next state, for the statements about every command and every next state. -/
theorem witness_FlashIsTheTraceReplayed :
    (small 0x12).backend = .reference ∧ ∃ t, exec (.eraseFull 0) (small 0x12) = .next t :=
  ⟨rfl, _, exec_next _ _ (by decide) (by decide)⟩

theorem witness_StatusIsTheLastStatusWrite : ∃ t, exec (.getSector 0x1000) (small 0x12) = .next t :=
  ⟨_, exec_next _ _ (by decide) (by decide)⟩

theorem witness_StatusAfterACommand :
    (∃ t, exec (.getPage 0x13FF) { small 0x12 with status := 5 } = .next t ∧ t.busy = false) ∧
    ∃ t, exec (.getPage 0x1400) { small 0x12 with status := 5 } = .next t ∧ t.busy = false :=
  ⟨⟨_, exec_next _ _ (by decide) (by decide), by decide +kernel⟩, _, exec_next _ _ (by decide) (by decide), by decide +kernel⟩

theorem witness_LeafRequestsAreValidAndAscending : ∃ t, exec (.eraseSector 0x1000) (small 0x12) = .next t ∧
    0x1300 ∈ leafAddrs t.trace :=
  ⟨_, exec_next _ _ (by decide) (by decide), by decide +kernel⟩

theorem witness_LeafRequestCountIsBounded :
    (∃ t, exec (.getSector 0x13FF) (small 0x12) = .next t ∧ t.busy = false ∧
      (validatedPages (.getSector 0x13FF)).isSome = true ∧ valid (small 0x12).params 0x13FF = true) ∧
    (∃ t, exec (.getSector 0x1400) (small 0x12) = .next t ∧ (validatedPages (.getSector 0x1400)).isSome = true ∧
      valid (small 0x12).params 0x1400 = false) ∧
    ∃ t, exec (.eraseFull 9) (small 0x12) = .next t ∧ t.busy = false ∧ (small 0x12).status = Status.free.code :=
  ⟨⟨_, exec_next _ _ (by decide) (by decide), by decide +kernel⟩, ⟨_, exec_next _ _ (by decide) (by decide), by decide⟩, _,
    exec_next _ _ (by decide) (by decide), by decide +kernel⟩

theorem witness_HiddenStateIsNeverObserved : ∃ t, exec (.getPageCrc16 0x1000) (small 0x12) = .next t :=
  ⟨_, exec_next _ _ (by decide) (by decide)⟩

theorem witness_PropagateSubfailChangesOnlyTheResult :
    (∃ t, exec (.eraseSector 0x1300) (small 0x12) = .next t) ∧
    ∃ u r, exec (.erasePage 0x1400) { small 0x12 with params := { (small 0x12).params with propagateSubfail := false } } =
      .next u ∧ u.rsp = some r ∧ r.result = .fail :=
  ⟨⟨_, exec_next _ _ (by decide) (by decide)⟩, _, _, exec_next _ _ (by decide) (by decide), rfl, rfl⟩

theorem witness_CrcSwapExchangesTheBytesOnly : ∃ t, exec (.getPageCrc16 0x13FF) (small 0x12) = .next t :=
  ⟨_, exec_next _ _ (by decide) (by decide)⟩

theorem witness_ReferenceBackendOperations : Memory.wf { fill := 0xFF, cells := [(0x08000000, 0x12), (0x08000001, 0x00)] } ∧
    0 < 256 ∧ 255 < 256 := by decide

theorem witness_EraseAndWriteAreIdempotent : Memory.wf { fill := 0x00, cells := [(0x0FFF, 0x12), (0x1000, 0xFF)] } := by
  decide

theorem witness_SilentBackendHangsTheCommand : ∃ s : State, (Instr.getBlock 0x13FF).wf = true ∧ s.params.wf = true ∧
    s.answersLeft = some 0 ∧ s.rst = false ∧ (validatedPages (.getBlock 0x13FF)).isSome = true ∧
    valid s.params (Instr.getBlock 0x13FF).addrField.toNat = true :=
  ⟨{ small 0x12 with answersLeft := some 0 }, rfl, rfl, rfl, rfl, rfl, rfl⟩

theorem witness_SilencedCommandIsAnInitialPart :
    (∃ t u, exec (.eraseFull 0) { small 0x12 with answersLeft := some 4 } = .next t ∧
      exec (.eraseFull 0) { small 0x12 with answersLeft := none } = .next u ∧ t.busy = false) ∧
    ∃ t u, exec (.eraseFull 0) { small 0x12 with answersLeft := some 3 } = .next t ∧
      exec (.eraseFull 0) { small 0x12 with answersLeft := none } = .next u ∧ t.busy = true :=
  ⟨⟨_, _, exec_next _ _ (by decide) (by decide), exec_next _ _ (by decide) (by decide), by decide +kernel⟩, _, _,
    exec_next _ _ (by decide) (by decide), exec_next _ _ (by decide) (by decide), by decide +kernel⟩

theorem witness_StridesAreBitFieldsWhenAligned : (0x08010000 : Addr).toNat % 65536 = 0 ∧
    (0xFFFF0000 : Addr).toNat % 65536 = 0 ∧ 15 < 16 ∧ 0 < 256 ∧ 255 < 256 := by decide

end Sys2Proof.Tests
end

/-! PROOFS. The scope of the model (00_scope.md): the configuration is constant (R3), which commands are refused (R4),
`exec` is total (R8), and over a backend that answers every command is answered (R9). -/

namespace Sys2Proof.Machine

open Sys2Proof

/-! ### The configuration is constant (R3, R14) -/

/-- `t` has the configuration and the kind of backend of `s`. -/
def SameConfiguration (s t : State) : Prop := t.params = s.params ∧ t.backend = s.backend

theorem sameConfiguration_stable (s : State) : Stable true (SameConfiguration s) where
  setStatus _ _ h := h
  setCheckMode _ _ _ h := h
  clearAgg _ _ h := by simpa [SameConfiguration] using h
  foldAgg _ _ _ h := by simpa [SameConfiguration] using h
  setIdx _ _ _ h := by simpa [SameConfiguration] using h
  loadPbuf _ _ h := h
  loadBase _ _ h := by simpa [SameConfiguration] using h
  erased _ _ _ h := h
  written _ _ _ _ h := h
  readInto _ _ _ h := h
  emitBeats _ _ _ h := by simpa [SameConfiguration] using h
  foldPbuf _ h := h
  answer _ _ h := h
  draw _ _ h := h

/-- A command keeps the configuration whether it is answered or left waiting for a silent backend. -/
theorem exec_sameConfiguration (i : Instr) (s t : State) (h : exec i s = .next t) : SameConfiguration s t := by
  rcases exec_stable (sameConfiguration_stable s) i (.inl rfl) s t h ⟨rfl, rfl⟩ with
    ⟨r, u, hu, rfl⟩ | ⟨u, q, hu, rfl, -, -⟩
  · exact hu
  · exact hu

/-- Settles O6: a reset and an idle step keep the configuration, and so does the command of any other step. -/
theorem stepKeepsConfiguration : Obligations.StepKeepsConfiguration := by
  intro s t h
  rcases step_cases s t h with ⟨-, rfl⟩ | ⟨-, -, -, rfl⟩ | ⟨-, -, i, u, hf, he⟩
  · exact ⟨rfl, rfl⟩
  · exact ⟨rfl, rfl⟩
  · obtain ⟨rest, wd, rfl⟩ := fetch_state s i u hf
    exact exec_sameConfiguration i { s with cmd := rest, wd := wd } t he

/-! ### What is refused, and totality (R4, R8, R48) -/

/-- Settles O19, by `exec_next`, which names the next state. -/
theorem execIsTotal : Obligations.ExecIsTotal :=
  fun i s hi hp => ⟨_, exec_next i s hi hp⟩

/-- An ill-formed configuration gives no well-formed command a meaning (R4). -/
theorem exec_illFormedParams (i : Instr) (s : State) (hi : i.wf = true) (hp : s.params.wf = false) :
    exec i s = .refused .illFormedParams := by
  rw [exec_eq i s hi, runCommand, if_neg (by simp [hp])]

/-- Nothing but an ill-formed command or configuration is refused (R8). -/
theorem illFormed_of_exec_refused (i : Instr) (s : State) (r : Refusal) (h : exec i s = .refused r) :
    i.wf = false ∨ s.params.wf = false := by
  by_contra hn
  obtain ⟨hi, hp⟩ : i.wf = true ∧ s.params.wf = true := by simpa using hn
  simp [exec_next i s hi hp] at h

/-- Settles O20, from what `exec` answers in each of the ill-formed cases. -/
theorem onlyIllFormedCasesAreRefused : Obligations.OnlyIllFormedCasesAreRefused :=
  fun i s => ⟨exec_illFormedParams i s, exec_illFormed i s, illFormed_of_exec_refused i s, exec_not_fault i s⟩

/-! ### Over a backend that answers, every procedure comes to its end (R9) -/

/-- The backend answers every leaf request, and the outstanding request is `p`. -/
def Answering (p : Option LeafReq) (s : State) : Prop := s.answersLeft = none ∧ s.pending = p

/-- The procedure comes to its end, and the backend goes on answering. -/
def Completes {α : Type} (p : Option LeafReq) (f : Flow α) : Prop := Ends (fun _ => Answering p) (fun _ => False) f

section Answering

variable {p : Option LeafReq} {s : State}

theorem Answering.of_frame {t : State} {ws : List Reg} (h : Answering p s) (hu : UnchangedBut ws s t) :
    Answering p t := ⟨hu.answersLeft.trans h.1, hu.pending.trans h.2⟩

theorem completes_andThen {α β : Type} {f : Flow α} {k : α → State → Flow β} (hf : Completes p f)
    (hk : ∀ v t, Answering p t → Completes p (k v t)) : Completes p (andThen f k) := ends_andThen hf hk

theorem completes_failWith (n : Nat) (h : Answering p s) : Completes p (failWith n s) := h

theorem completes_erasePage (a : Nat) (h : Answering p s) : Completes p (erasePage a s) := by
  obtain ⟨u, he, -, -, hu, -, -⟩ := erasePage_spec a s h.1
  rw [he]
  exact h.of_frame hu

theorem completes_writePage (a : Nat) (d : Page) (h : Answering p s) : Completes p (writePage a d s) := by
  obtain ⟨u, he, -, -, hu, -, -⟩ := writePage_spec a d s h.1
  rw [he]
  exact h.of_frame hu

theorem completes_getPage (a : Nat) (h : Answering p s) : Completes p (getPage a s) := by
  obtain ⟨d, u, he, -, -, hu, -, -, -⟩ := getPage_spec a s h.1
  rw [he]
  exact h.of_frame hu

theorem completes_getPageBeat (j i a : Nat) (h : Answering p s) : Completes p (getPageBeat j i a s) := by
  obtain ⟨d, u, he, -, -, hu, -, -, -⟩ := getPageBeat_spec j i a s h.1
  rw [he]
  exact h.of_frame hu

/-- A loop over sub-operations that each come to their end does so too. -/
theorem completes_subOps (l : Level) {body : Nat → State → Flow Ret}
    (hbody : ∀ k t, Answering p t → Completes p (body k t)) (n : Nat) (h : Answering p s) :
    Completes p (subOps l body n 0 [] s) :=
  subOps_ends l body (fun _ _ => Answering p) _ n
    (fun k _ _ t ht => ends_mono (hbody k _ (ht.of_frame (setIdx_frame l k t)))
      (fun r u hu => hu.of_frame (foldAgg_frame l r.result u)) fun _ => id)
    n 0 (Nat.zero_add n) [] s h

theorem completes_compound (l : Level) (v : Status) (lost a : Nat) {body : Nat → State → Flow Ret}
    (hbody : ∀ k t, Answering p t → Completes p (body k t)) (h : Answering p s) :
    Completes p (compound l v lost a body s) := by
  unfold compound
  split
  · have h0 : Answering p (clearAgg l (setStatus v s)) :=
      (h.of_frame (setStatus_frame v s)).of_frame (clearAgg_frame l _)
    exact completes_andThen (completes_subOps l hbody 16 h0) fun _ t ht => ht.of_frame (setStatus_frame .free t)
  · exact completes_failWith lost h

theorem completes_eraseFull (h : Answering p s) : Completes p (eraseFull s) := by
  unfold eraseFull
  split
  · have h0 : Answering p (setStatus .erasingFull s) := h.of_frame (setStatus_frame _ s)
    exact completes_andThen (completes_subOps .full (fun _ _ => completes_erasePage _) _ h0)
      fun _ t ht => ht.of_frame (setStatus_frame .free t)
  · exact completes_failWith 0 h

theorem completes_writeSector (a : Nat) (d : List Page) (h : Answering p s) : Completes p (writeSector a d s) :=
  completes_compound _ _ _ _ (fun _ _ => completes_writePage _ _) h

theorem completes_getSector (j a : Nat) (h : Answering p s) : Completes p (getSector j a s) :=
  completes_compound _ _ _ _ (fun _ _ => completes_getPageBeat _ _ _) h

theorem completes_getPageCrc16 (a : Nat) (h : Answering p s) : Completes p (getPageCrc16 a s) := by
  refine completes_andThen (completes_getPage a h) fun r t ht => ?_
  split
  · exact ht
  · exact ht

/-- Every command's procedure comes to its end. -/
theorem completes_procOf (i : Instr) (h : Answering p s) : Completes p (procOf i s) := by
  have hb (a : Addr) : Answering p (loadBase a s) := h.of_frame (loadBase_frame a s)
  cases i with
  | erasePage a => exact completes_erasePage _ (hb a)
  | eraseSector a => exact completes_compound _ _ _ _ (fun _ _ => completes_erasePage _) (hb a)
  | eraseBlock a => exact completes_compound _ _ _ _ (fun _ _ => completes_erasePage _) (hb a)
  | eraseFull _ => exact completes_eraseFull h
  | writePage a d => exact completes_writePage _ d (hb a)
  | writeSector a d => exact completes_writeSector _ d (hb a)
  | writeBlock a d => exact completes_compound _ _ _ _ (fun _ _ => completes_writeSector _ _) (hb a)
  | getPage a => exact completes_getPageBeat _ _ _ (hb a)
  | getSector a => exact completes_getSector _ _ (hb a)
  | getBlock a => exact completes_compound _ _ _ _ (fun _ _ => completes_getSector _ _) (hb a)
  | getPageCrc16 a => exact completes_getPageCrc16 _ (hb a)
  | enableCheckMode _ => exact h
  | disableCheckMode _ => exact h
  | reserved0 _ => exact completes_failWith 0 h
  | reservedE _ => exact completes_failWith 0 h
  | reservedF _ => exact completes_failWith 0 h

end Answering

/-- Settles O21: the procedure of the accepted command comes to its end, and its response makes the core idle. -/
theorem everyCommandCompletes : Obligations.EveryCommandCompletes := by
  rintro i s hi ⟨hp, hr⟩
  have hs : Answering s.pending (accept i.opcode s) := ⟨hr, rfl⟩
  obtain ⟨r, u, he, hu⟩ := ends_exists (completes_procOf i hs)
  refine ⟨respond r u, _, ?_, rfl, respond_rsp r u, hu.2, hu.1⟩
  rw [exec_next i s hi hp, he]
  rfl

end Sys2Proof.Machine
/-! PROOFS. The state (10_state.md): what reset leaves (R23), STATUS and its trace (R11, R12), CHECK_MODE (R13), the
invariant that every reachable state has, and the hidden state that no command observes (R15, R24). -/

namespace Sys2Proof.Machine

open Sys2Proof

/-! ### What reset leaves (R23, R122 to R125) -/

/-- With no leaf request outstanding, reset leaves the flash as it was (R125). -/
theorem abandonedFlash_of_not_pending (s : State) (h : s.pending = none) : abandonedFlash s = s.flash := by
  cases hb : s.backend <;> simp [abandonedFlash, h, hb]

/-- The flash after reset is in canonical form, whatever request was outstanding (R124). -/
theorem abandonedFlash_wf (s : State) (h : s.flash.wf) : (abandonedFlash s).wf := by
  unfold abandonedFlash
  split
  · exact scramblePage_wf _ h _ _
  · exact scramblePage_wf _ h _ _
  all_goals exact h

/-- Settles O1: every field but the flash is at its reset value by the definition of `applyReset`. -/
theorem resetPutsRegistersAtResetValues : Obligations.ResetPutsRegistersAtResetValues :=
  fun s h => ⟨applyReset s, step_reset s h, rfl, rfl, rfl, rfl, rfl, rfl, rfl, abandonedFlash_of_not_pending s⟩

/-! ### A predicate that survives acceptance, the operations and the end of a command -/

/-- A predicate that each operation, the response and the wait for a silent backend keep holds after a command. -/
theorem exec_keeps {c : Bool} {P : State → Prop} (h : Stable c P) (hrsp : ∀ r u, P u → P (respond r u))
    (hwait : ∀ q u, P u → P { u with pending := some q }) {i : Instr} (hi : c = true ∨ writesCheckMode i = false)
    {s t : State} (he : exec i s = .next t) (hs : P (accept i.opcode s)) : P t := by
  rcases exec_stable h i hi s t he hs with ⟨r, u, hu, rfl⟩ | ⟨u, q, hu, rfl, -, -⟩
  · exact hrsp r u hu
  · exact hwait q u hu

/-! ### CHECK_MODE (R13) -/

theorem checkMode_stable (b : Bool) : Stable false (fun s => s.checkMode = b) where
  setStatus _ _ h := h
  setCheckMode hc := nomatch hc
  clearAgg _ _ h := by simpa using h
  foldAgg _ _ _ h := by simpa using h
  setIdx _ _ _ h := by simpa using h
  loadPbuf _ _ h := h
  loadBase _ _ h := by simpa using h
  erased _ _ _ h := h
  written _ _ _ _ h := h
  readInto _ _ _ h := h
  emitBeats _ _ _ h := by simpa using h
  foldPbuf _ h := h
  answer _ _ h := h
  draw _ _ h := h

/-- A command that is not a check-mode command keeps CHECK_MODE, answered or waiting. -/
theorem exec_checkMode {i : Instr} {s t : State} (hi : writesCheckMode i = false) (he : exec i s = .next t) :
    t.checkMode = s.checkMode :=
  exec_keeps (checkMode_stable s.checkMode) (fun _ _ h => h) (fun _ _ h => h) (.inr hi) he rfl

/-- Settles O7: an idle step changes nothing, and a command that is not a check-mode command keeps CHECK_MODE. -/
theorem onlyCheckModeCommandsChangeCheckMode : Obligations.OnlyCheckModeCommandsChangeCheckMode := by
  intro s t h hne
  rcases step_cases s t h with ⟨hr, -⟩ | ⟨-, -, -, rfl⟩ | ⟨-, -, i, u, hf, he⟩
  · exact .inl hr
  · exact absurd rfl hne
  · obtain ⟨rest, wd, rfl⟩ := fetch_state s i u hf
    cases hi : writesCheckMode i with
    | true => exact .inr ⟨i, _, hf, hi⟩
    | false => exact absurd (exec_checkMode hi he) hne

/-! ### STATUS is what the trace wrote last (R11) -/

/-- STATUS is what the trace so far makes of `v`. -/
def StatusFromTrace (v : BitVec 4) (s : State) : Prop := s.status = lastStatus v s.trace

theorem statusFromTrace_setStatus (v : BitVec 4) (w : Status) (s : State) : StatusFromTrace v (setStatus w s) := by
  simp [StatusFromTrace, State.trace, lastStatus]

/-- An operation that leaves STATUS and the trace alone. -/
theorem StatusFromTrace.same {v : BitVec 4} {s t : State} (h : StatusFromTrace v s) (hst : t.status = s.status)
    (hl : t.log = s.log) : StatusFromTrace v t := by
  rw [StatusFromTrace, hst, State.trace, hl]
  exact h

/-- An operation whose one event is no StatusWrite. -/
theorem StatusFromTrace.event {v : BitVec 4} {s t : State} {e : Event} (h : StatusFromTrace v s)
    (hst : t.status = s.status) (hl : t.log = e :: s.log) (he : ∀ w, e ≠ .statusWrite w) : StatusFromTrace v t := by
  have hskip : lastStatus v t.trace = lastStatus v s.trace := by
    rw [State.trace, hl, List.reverse_cons, lastStatus, List.foldl_append]
    cases e with
    | statusWrite w => exact absurd rfl (he w)
    | _ => rfl
  rw [StatusFromTrace, hst, hskip]
  exact h

theorem statusFromTrace_stable (v : BitVec 4) : Stable true (StatusFromTrace v) where
  setStatus w s _ := statusFromTrace_setStatus v w s
  setCheckMode _ _ _ h := h.event rfl rfl (by simp)
  clearAgg _ _ h := h.same (by simp) (by simp)
  foldAgg _ _ _ h := h.same (by simp) (by simp)
  setIdx _ _ _ h := h.same (by simp) (by simp)
  loadPbuf _ _ h := h
  loadBase _ _ h := h.same (by simp) (by simp)
  erased _ _ _ h := h.event rfl rfl (by simp)
  written _ _ _ _ h := h.event rfl rfl (by simp)
  readInto _ _ _ h := h.event rfl rfl (by simp)
  emitBeats _ _ _ h := h.same (by simp) (by simp)
  foldPbuf _ h := h
  answer _ _ h := h
  draw _ _ h := h

/-- Settles O46: it holds of the empty trace at acceptance, and each operation keeps it. -/
theorem statusIsTheLastStatusWrite : Obligations.StatusIsTheLastStatusWrite :=
  fun _ s _ he => exec_keeps (statusFromTrace_stable s.status) (fun _ _ h => h) (fun _ _ h => h) (.inl rfl) he rfl

/-! ### STATUS at the end of a procedure (R12, R69, R73) -/

/-- If the procedure comes to its end, STATUS is `v` there. -/
def EndsWithStatus {α : Type} (v : BitVec 4) (f : Flow α) : Prop := Ends (fun _ t => t.status = v) (fun _ => True) f

theorem ends_true {α : Type} (f : Flow α) : Ends (fun _ _ => True) (fun _ => True) f := by
  cases f <;> trivial

/-- Whatever comes before it, a last write of Free leaves STATUS Free. -/
theorem andThen_free_status {α β : Type} (f : Flow α) (ret : α → State → β) :
    EndsWithStatus Status.free.code (andThen f fun v t => .done (ret v t) (setStatus .free t)) :=
  ends_andThen (ends_true f) fun _ _ _ => rfl

/-- STATUS after a procedure at `a` that was entered with STATUS at `v`. -/
def statusAfter (p : Params) (a : Nat) (v : BitVec 4) : BitVec 4 := if valid p a then Status.free.code else v

/-- The common shape of the procedures with an address: past validation they end with a write of Free, and otherwise
they fail. -/
theorem validated_status {α : Type} (a n : Nat) (s : State) (f : Flow α) (ret : α → State → Ret) :
    EndsWithStatus (statusAfter s.params a s.status)
      (if valid s.params a then andThen f fun v t => .done (ret v t) (setStatus .free t) else failWith n s) := by
  unfold statusAfter
  split
  · exact andThen_free_status f ret
  · rfl

theorem erasePage_status (a : Nat) (s : State) : EndsWithStatus (statusAfter s.params a s.status) (erasePage a s) :=
  validated_status a 0 s _ _

theorem writePage_status (a : Nat) (d : Page) (s : State) :
    EndsWithStatus (statusAfter s.params a s.status) (writePage a d s) := validated_status a 0 s _ _

theorem getPage_status (a : Nat) (s : State) : EndsWithStatus (statusAfter s.params a s.status) (getPage a s) :=
  validated_status a 1 s _ _

theorem compound_status (l : Level) (v : Status) (lost a : Nat) (body : Nat → State → Flow Ret) (s : State) :
    EndsWithStatus (statusAfter s.params a s.status) (compound l v lost a body s) := validated_status a lost s _ _

theorem getPageBeat_status (j i a : Nat) (s : State) :
    EndsWithStatus (statusAfter s.params a s.status) (getPageBeat j i a s) :=
  ends_andThen (getPage_status a s) fun r t ht => (emitBeats_status _ r t).trans ht

theorem getPageCrc16_status (a : Nat) (s : State) :
    EndsWithStatus (statusAfter s.params a s.status) (getPageCrc16 a s) := by
  refine ends_andThen (getPage_status a s) fun r t ht => ?_
  split
  · exact ht
  · exact ht

/-- ERASE_FULL runs only from Free and writes Free last (R83). -/
theorem eraseFull_status (s : State) : EndsWithStatus s.status (eraseFull s) := by
  unfold eraseFull
  split
  · next h =>
    rw [h]
    exact andThen_free_status _ _
  · rfl

/-- STATUS after a command that was accepted with STATUS at `s.status`. -/
def statusAfterCommand (i : Instr) (s : State) : BitVec 4 :=
  if (validatedPages i).isSome && valid s.params i.addrField.toNat then Status.free.code else s.status

theorem procOf_status (i : Instr) (s : State) : EndsWithStatus (statusAfterCommand i s) (procOf i s) := by
  have hbase (a : Addr) {f : Flow Ret} (h : EndsWithStatus
      (statusAfter (loadBase a s).params a.toNat (loadBase a s).status) f) :
      EndsWithStatus (statusAfter s.params a.toNat s.status) f := by
    simpa using h
  cases i with
  | erasePage a => exact hbase a (erasePage_status _ _)
  | eraseSector a => exact hbase a (compound_status _ _ _ _ _ _)
  | eraseBlock a => exact hbase a (compound_status _ _ _ _ _ _)
  | eraseFull _ => exact eraseFull_status s
  | writePage a d => exact hbase a (writePage_status _ d _)
  | writeSector a d => exact hbase a (compound_status _ _ _ _ _ _)
  | writeBlock a d => exact hbase a (compound_status _ _ _ _ _ _)
  | getPage a => exact hbase a (getPageBeat_status _ _ _ _)
  | getSector a => exact hbase a (compound_status _ _ _ _ _ _)
  | getBlock a => exact hbase a (compound_status _ _ _ _ _ _)
  | getPageCrc16 a => exact hbase a (getPageCrc16_status _ _)
  | enableCheckMode _ => rfl
  | disableCheckMode _ => rfl
  | reserved0 _ => rfl
  | reservedE _ => rfl
  | reservedF _ => rfl

/-- A procedure runs between acceptance and response: CUR_OP is `op`, nothing is answered, and the outstanding request
is still the one `p` from before it. -/
structure InCommand (op : Opcode) (p : Option LeafReq) (s : State) : Prop where
  curOp : s.curOp = some op
  rsp : s.rsp = none
  pending : s.pending = p

theorem InCommand.same {op : Opcode} {p : Option LeafReq} {s t : State} (h : InCommand op p s)
    (h1 : t.curOp = s.curOp) (h2 : t.rsp = s.rsp) (h3 : t.pending = s.pending) : InCommand op p t :=
  ⟨h1.trans h.curOp, h2.trans h.rsp, h3.trans h.pending⟩

theorem inCommand_stable (op : Opcode) (p : Option LeafReq) : Stable true (InCommand op p) where
  setStatus _ _ h := h.same rfl rfl rfl
  setCheckMode _ _ _ h := h.same rfl rfl rfl
  clearAgg _ _ h := h.same (by simp) (by simp) (by simp)
  foldAgg _ _ _ h := h.same (by simp) (by simp) (by simp)
  setIdx _ _ _ h := h.same (by simp) (by simp) (by simp)
  loadPbuf _ _ h := h.same rfl rfl rfl
  loadBase _ _ h := h.same (by simp) (by simp) (by simp)
  erased _ _ _ h := h.same rfl rfl rfl
  written _ _ _ _ h := h.same rfl rfl rfl
  readInto _ _ _ h := h.same rfl rfl rfl
  emitBeats _ _ _ h := h.same (by simp) (by simp) (by simp)
  foldPbuf _ h := h.same rfl rfl rfl
  answer _ _ h := h.same rfl rfl rfl
  draw _ _ h := h.same rfl rfl rfl

/-- The two ends of a command (R12, R136): answered, with STATUS as `statusAfterCommand` says and the outstanding
request as before, or waiting in mid-command at a page procedure's STATUS for a leaf request at a valid address. -/
theorem exec_ends {i : Instr} {s t : State} (he : exec i s = .next t) :
    (t.curOp = none ∧ t.pending = s.pending ∧ t.status = statusAfterCommand i s) ∨
      (t.curOp = some i.opcode ∧ t.rsp = none ∧
        ∃ q, t.pending = some q ∧ valid t.params q.addr = true ∧ t.status = (LeafReq.status q).code) := by
  obtain ⟨-, -, rfl⟩ := exec_next_inv i s t he
  have hin := procOf_stable (inCommand_stable i.opcode s.pending) i (.inl rfl) (accept i.opcode s) ⟨rfl, rfl, rfl⟩
  have hst := procOf_status i (accept i.opcode s)
  cases hf : procOf i (accept i.opcode s) with
  | done r u =>
    rw [hf] at hin hst
    exact .inl ⟨rfl, hin.pending, hst⟩
  | waiting u =>
    rw [hf] at hin
    obtain ⟨u, q, hu, rfl, hv, hq⟩ := hin
    exact .inr ⟨hu.curOp, hu.rsp, q, rfl, hv, hq⟩

/-- Settles O47: of the two ends of a command, only the answered one has BUSY 0. -/
theorem statusAfterACommand : Obligations.StatusAfterACommand := by
  intro i s t he hb
  rcases exec_ends he with ⟨-, -, hst⟩ | ⟨hop, -⟩
  · exact hst
  · simp [State.busy, hop] at hb

/-! ### The invariant -/

/-- What makes the invariant of an idle core. -/
theorem State.Inv.of_idle {s : State} (hp : s.params.wf = true) (hm : s.flash.wf)
    (hst : s.status = Status.free.code) (hop : s.curOp = none) (hq : s.pending = none) : s.Inv where
  params_wf := hp
  flash_wf := hm
  status_legal := ⟨.free, hst⟩
  idle_free _ := ⟨hst, hq⟩
  busy_waits h := absurd hop h

/-- What makes the invariant of a core in mid-command. -/
theorem State.Inv.of_waiting {s : State} {op : Opcode} {q : LeafReq} (hp : s.params.wf = true) (hm : s.flash.wf)
    (hop : s.curOp = some op) (hrsp : s.rsp = none) (hq : s.pending = some q) (hv : valid s.params q.addr = true)
    (hst : s.status = (LeafReq.status q).code) : s.Inv where
  params_wf := hp
  flash_wf := hm
  status_legal := ⟨_, hst⟩
  idle_free h := by simp [hop] at h
  busy_waits _ := ⟨hrsp, q, hq, hv, hst⟩

/-- The flash stays in canonical form (log 19). -/
theorem flashWf_stable : Stable true (fun s => s.flash.wf) where
  setStatus _ _ h := h
  setCheckMode _ _ _ h := h
  clearAgg _ _ h := by simpa using h
  foldAgg _ _ _ h := by simpa using h
  setIdx _ _ _ h := by simpa using h
  loadPbuf _ _ h := h
  loadBase _ _ h := by simpa using h
  erased a s _ h := by
    cases hb : s.backend with
    | reference => simpa [erased, hb] using erasePage_wf s.flash h a
    | oracle => simpa [erased, hb] using h
  written a d s _ h := by
    cases hb : s.backend with
    | reference => simpa [written, hb] using writePage_wf s.flash h a d
    | oracle => simpa [written, hb] using h
  readInto _ _ _ h := h
  emitBeats _ _ _ h := by simpa using h
  foldPbuf _ h := h
  answer _ _ h := h
  draw _ _ h := h

theorem exec_flash_wf {i : Instr} {s t : State} (he : exec i s = .next t) (hm : s.flash.wf) : t.flash.wf :=
  exec_keeps flashWf_stable (fun _ _ h => h) (fun _ _ h => h) (.inl rfl) he hm

/-- STATUS Free before a command is STATUS Free after it. -/
theorem statusAfterCommand_of_free {s : State} (h : s.status = Status.free.code) (i : Instr) :
    statusAfterCommand i s = Status.free.code := by
  rw [statusAfterCommand, h, ite_self]

/-- A command accepted with STATUS Free and no request outstanding ends in a state with the invariant. -/
theorem exec_inv {i : Instr} {s t : State} (he : exec i s = .next t) (hm : s.flash.wf)
    (hst : s.status = Status.free.code) (hq : s.pending = none) : t.Inv := by
  have hp : t.params.wf = true := by
    rw [(exec_sameConfiguration i s t he).1]
    exact (exec_next_inv i s t he).2.1
  have hm' := exec_flash_wf he hm
  rcases exec_ends he with ⟨hop, hpend, hst'⟩ | ⟨hop, hrsp, q, hpend, hv, hst'⟩
  · exact .of_idle hp hm' (hst'.trans (statusAfterCommand_of_free hst i)) hop (hpend.trans hq)
  · exact .of_waiting hp hm' hop hrsp hpend hv hst'

/-- Settles O3: the reset state is idle, with STATUS Free and an empty flash. -/
theorem invariantHoldsAtReset : Obligations.InvariantHoldsAtReset :=
  .of_idle (by decide) ⟨.nil, by simp [State.reset]⟩ rfl rfl rfl

/-- `rst` leaves a state with the invariant: an idle core (R23), its flash canonical whatever request it cut off. -/
theorem applyReset_inv {s : State} (h : s.Inv) : (applyReset s).Inv :=
  .of_idle h.params_wf (abandonedFlash_wf s h.flash_wf) rfl rfl rfl

/-- Settles O4: a reset leaves an idle core, an idle step changes nothing, and a command is accepted only by an idle
core, which has STATUS Free and no request outstanding. -/
theorem stepKeepsInvariant : Obligations.StepKeepsInvariant := by
  intro s t hs h
  rcases step_cases s t h with ⟨-, rfl⟩ | ⟨-, -, -, rfl⟩ | ⟨-, hb, i, u, hf, he⟩
  · exact applyReset_inv hs
  · exact hs
  · obtain ⟨rest, wd, rfl⟩ := fetch_state s i u hf
    obtain ⟨hst, hq⟩ := hs.idle_free (by simpa [State.busy] using hb)
    exact exec_inv he hs.flash_wf hst hq

/-- Every reachable state has the invariant: reset has it, the host's offers touch nothing it speaks of, and every step
keeps it. -/
theorem Reachable.inv {s : State} (h : Reachable s) : s.Inv := by
  induction h with
  | reset p m b n c hp hm => exact .of_idle hp hm rfl rfl rfl
  | offer s cmd wd r n _ ih =>
    exact ⟨ih.params_wf, ih.flash_wf, ih.status_legal, ih.idle_free, ih.busy_waits⟩
  | step s t _ h ih => exact stepKeepsInvariant s t ih h

/-- Settles O5: the invariant of a reachable state says what STATUS is in an idle core. -/
theorem statusIsFreeAtEveryAcceptance : Obligations.StatusIsFreeAtEveryAcceptance :=
  fun _ h => ⟨h.inv, fun hb => (h.inv.idle_free (by simpa [State.busy] using hb)).1⟩

/-! ### Hidden state (R15, R24) -/

/-- The state with its hidden registers blanked: what can be seen of it. -/
def visible (s : State) : State := withHidden State.reset s

/-- States that look alike differ in hidden registers only. -/
theorem eq_withHidden_of_visible {s t : State} (h : visible s = visible t) : t = withHidden t s :=
  calc t = withHidden t (visible t) := rfl
    _ = withHidden t (visible s) := by rw [h]
    _ = withHidden t s := rfl

/-- The two states look alike; AGG agrees where `b`, and AGG2 where `c`. -/
structure Alike (b c : Bool) (s t : State) : Prop where
  visible : visible s = visible t
  agg : b = true → s.agg = t.agg
  agg2 : c = true → s.agg2 = t.agg2

/-- What can be seen after the operation depends only on what could be seen before it. -/
def Blind (f : State → State) : Prop := ∀ s, visible (f s) = visible (f (visible s))

theorem Blind.congr {f : State → State} (hf : Blind f) {s t : State} (h : visible s = visible t) :
    visible (f s) = visible (f t) := by
  rw [hf s, h, ← hf t]

section Alike

variable {b c : Bool} {s t : State}

/-- States that look alike agree in whatever is read from the visible part. -/
theorem Alike.read (h : Alike b c s t) {α : Type} (g : State → α) (hg : ∀ s, g s = g (Machine.visible s)) :
    g s = g t := by
  rw [hg s, h.visible, ← hg t]

/-- A blind operation that leaves AGG and AGG2 alone keeps states alike. -/
theorem Alike.map (h : Alike b c s t) {f : State → State} (hf : Blind f) (ha : ∀ s, (f s).agg = s.agg)
    (ha2 : ∀ s, (f s).agg2 = s.agg2) : Alike b c (f s) (f t) where
  visible := hf.congr h.visible
  agg hb := by rw [ha, ha, h.agg hb]
  agg2 hc := by rw [ha2, ha2, h.agg2 hc]

/-- Where AGG of its level agrees, what a compound procedure reports does. -/
theorem Alike.report (h : Alike b c s t) (l : Level) (ha : aggOf l s = aggOf l t) : report l s = report l t := by
  have hp := h.read State.params fun _ => rfl
  rw [Machine.report, Machine.report, hp, ha]

/-- Two runs that wait together end in states that look alike. -/
abbrev AlikeWaiting (s t : State) : Prop := visible s = visible t

/-- Two runs from states that look alike never part, so nothing is asked of one that waits alone. -/
abbrev NeverApart (_ _ : State) : Prop := False

/-- An exchange followed by the effect `f` of its answer: it is enough that `f` takes states alike to `P`. -/
theorem Alike.exchange (h : Alike b c s t) (q : LeafReq) {f : State → State} {P : Unit → State → Unit → State → Prop}
    (hf : ∀ s t, Alike b c s t → P () (f s) () (f t)) :
    Both P AlikeWaiting NeverApart (andThen (leafExchange q s) fun _ u => .done () (f u))
      (andThen (leafExchange q t) fun _ u => .done () (f u)) := by
  have hx : Both (fun _ s _ t => Alike b c s t) AlikeWaiting NeverApart (leafExchange q s) (leafExchange q t) :=
    leafExchange_both (R := Alike b c)
      (fun _ _ q h => Blind.congr (f := fun s => { s with pending := some q }) (fun _ => rfl) h.visible)
      (fun _ _ h => h.read State.answersLeft fun _ => rfl)
      (fun _ _ n h => h.map (f := fun s => { s with answersLeft := n }) (fun _ => rfl) (fun _ => rfl) fun _ => rfl)
      NeverApart q s t h
  exact both_andThen hx (fun _ _ _ _ h => hf _ _ h) fun _ _ _ hd => hd.elim

end Alike

theorem blind_loadBase (a : Addr) : Blind (loadBase a) := by
  intro s
  have hv : valid (visible s).params a.toNat = valid s.params a.toNat := rfl
  cases h : valid s.params a.toNat with
  | true => rw [loadBase_of_valid a s h, loadBase_of_valid a _ (hv.trans h)]; rfl
  | false => rw [loadBase_of_invalid a s h, loadBase_of_invalid a _ (hv.trans h)]; rfl

theorem blind_emitBeats (x : BitVec 8) (r : Ret) : Blind (emitBeats x r) := by
  intro s
  unfold emitBeats
  split <;> rfl

theorem blind_clearAgg (l : Level) : Blind (clearAgg l) := by intro s; cases l <;> rfl
theorem blind_foldAgg (l : Level) (r : Result) : Blind (foldAgg l r) := by intro s; cases l <;> rfl
theorem blind_setIdx (l : Level) (n : Nat) : Blind (setIdx l n) := by intro s; cases l <;> rfl

/-- Each operation of a page procedure is blind; PBUF is read only by a checksum, after a page read that loaded it. -/
theorem alike_kept (b c : Bool) : Kept (Alike b c) AlikeWaiting NeverApart where
  goesOn := .never _
  valid _ _ a h := h.read (fun s => valid s.params a) fun _ => rfl
  draws _ _ h := h.read State.draws fun _ => rfl
  erase _ _ a h := h.exchange _ fun _ _ h => h.map (f := erased a) (fun _ => rfl) (fun _ => rfl) fun _ => rfl
  write _ _ a d h _ := h.exchange _ fun _ _ h => h.map (f := written a d) (fun _ => rfl) (fun _ => rfl) fun _ => rfl
  read _ _ a h := h.exchange _ fun _ _ h =>
    ⟨h.map (f := readInto a) (fun _ => rfl) (fun _ => rfl) fun _ => rfl, h.read (readAnswer a) fun _ => rfl⟩
  setStatus _ _ v h := h.map (f := setStatus v) (fun _ => rfl) (fun _ => rfl) fun _ => rfl
  loadPbuf _ _ d h := h.map (f := loadPbuf d) (fun _ => rfl) (fun _ => rfl) fun _ => rfl
  loadBase _ _ a h := h.map (blind_loadBase a) (by simp) (by simp)
  foldPbuf _ _ h _ := h.map (f := foldPbuf) (fun _ => rfl) (fun _ => rfl) fun _ => rfl
  emitBeats _ _ x r h := h.map (blind_emitBeats x r) (by simp) (by simp)
  draw _ _ n h := h.map (f := fun s => { s with draws := n }) (fun _ => rfl) (fun _ => rfl) fun _ => rfl

/-- A compound procedure clears the AGG bit it later reports, so it agrees from there on, whatever it held before. -/
theorem alike_commandRel : CommandRel Alike Eq AlikeWaiting NeverApart where
  kept := alike_kept
  setCheckMode _ _ v h := h.map (f := setCheckMode v) (fun _ => rfl) (fun _ => rfl) fun _ => rfl
  dropAgg _ _ _ _ h := ⟨h.visible, nofun, h.agg2⟩
  dropAgg2 _ _ _ _ h := ⟨h.visible, h.agg, nofun⟩
  ret _ := rfl
  pages _ _ := congrArg Ret.pages
  clearAgg _ _ _ h := ⟨(blind_clearAgg .sector).congr h.visible, fun _ => rfl, h.agg2⟩
  clearAgg2 _ _ _ h := ⟨(blind_clearAgg .block).congr h.visible, h.agg, fun _ => rfl⟩
  setIdx _ _ _ _ l n h := h.map (blind_setIdx l n) (by simp) (by simp)
  foldAgg b c s t l r _ hr h := by
    subst hr
    have hv := (blind_foldAgg l r.result).congr h.visible
    cases l with
    | sector => exact ⟨hv, fun hb => by simp [h.agg hb], h.agg2⟩
    | block => exact ⟨hv, h.agg, fun hc => by simp [h.agg2 hc]⟩
    | full => exact ⟨hv, h.agg, h.agg2⟩
  report _ _ _ _ h := by rw [h.report .sector (h.agg rfl)]
  report2 _ _ _ _ h := by rw [h.report .block (h.agg2 rfl)]

/-- Two runs of a command's procedure from states that look alike return the same and end in states that look alike. -/
theorem procOf_alike (i : Instr) (s t : State) (h : Alike false false s t) :
    Both (SameRet (Alike false false)) AlikeWaiting NeverApart (procOf i s) (procOf i t) := by
  have hp := h.read State.params fun _ => rfl
  by_cases hi : ∃ a, i = .getPageCrc16 a
  · obtain ⟨a, rfl⟩ := hi
    refine both_mono (getPageCrc16_both alike_commandRel a s t h) ?_
    rintro r _ w _ ⟨⟨rfl, -⟩ | ⟨c, rfl, rfl⟩, h'⟩
    · exact ⟨rfl, h'⟩
    · exact ⟨by rw [h'.read State.params fun _ => rfl], h'⟩
  · exact procOf_both alike_commandRel i (fun a ha => hi ⟨a, ha⟩) s t h (h.read State.status fun _ => rfl)
      (by rw [hp]) (by rw [hp])

/-- Runs that end together alike leave, answered or waiting, states that look alike. -/
theorem visible_finish {f g : Flow Ret} (h : Both (SameRet (Alike false false)) AlikeWaiting NeverApart f g) :
    visible (finish f) = visible (finish g) := by
  cases f with
  | done r u =>
    cases g with
    | done w v =>
      obtain ⟨rfl, h⟩ := h
      exact Blind.congr (f := respond r) (fun _ => rfl) h.visible
    | waiting v => exact h.elim
  | waiting u =>
    cases g with
    | done w v => exact h.elim
    | waiting v => exact h

/-- Settles O50: `s` and `s` over other hidden state look alike, so the two runs of the command end alike. -/
theorem hiddenStateIsNeverObserved : Obligations.HiddenStateIsNeverObserved := by
  intro i h s t he
  obtain ⟨hi, hp, rfl⟩ := exec_next_inv i s t he
  have hs : Alike false false (accept i.opcode s) (accept i.opcode (withHidden h s)) := ⟨rfl, nofun, nofun⟩
  exact ⟨_, exec_next i (withHidden h s) hi hp, eq_withHidden_of_visible (visible_finish (procOf_alike i _ _ hs))⟩

end Sys2Proof.Machine
/-! PROOFS. The flash and the leaf requests (20_memory.md): the operations of the reference backend (R41, R36), the
flash as the replay of the trace (R39), the order and the number of leaf requests (R25, R74), and a command that a
backend cuts short by falling silent (R35, R136). -/

namespace Sys2Proof.Machine

open Sys2Proof

/-! ### The operations of the reference backend (R36, R41) -/

/-- Settles O53, from what each operation makes of each byte and of the canonical form. -/
theorem referenceBackendOperations : Obligations.ReferenceBackendOperations :=
  fun m a d h => ⟨erasePage_read m h a, writePage_read m h a d, page_byte m h a, erasePage_wf m h a,
    writePage_wf m h a d⟩

/-- Rewriting a run of bytes twice is rewriting it once, where doing `g` twice to a byte is doing it once. -/
theorem rewrite_rewrite (m : Memory) (h : m.wf) (a n : Nat) (g : Nat → Byte → Byte)
    (hg : ∀ k v, g k (g k v) = g k v) : (m.rewrite a n g).rewrite a n g = m.rewrite a n g := by
  have hw := rewrite_wf m h a n g
  refine memory_ext _ _ rfl (rewrite_wf _ hw a n g) hw fun x => ?_
  rw [rewrite_read _ hw, rewrite_read m h]
  split
  · exact hg _ _
  · rfl

/-- Settles O54: setting a byte to 0xFF, or ANDing it with the same data, twice is doing so once. -/
theorem eraseAndWriteAreIdempotent : Obligations.EraseAndWriteAreIdempotent :=
  fun m a d h => ⟨rewrite_rewrite m h a _ _ fun _ _ => rfl,
    rewrite_rewrite m h a _ _ fun k v => by rw [BitVec.and_assoc, BitVec.and_self]⟩

/-! ### The flash is the trace replayed (R39, R41) -/

/-- The flash is what the trace so far makes of `m`, on the reference backend. -/
structure FlashFromTrace (m : Memory) (s : State) : Prop where
  backend : s.backend = .reference
  flash : s.flash = replay m s.trace

theorem replay_log_cons {m : Memory} {s t : State} {e : Event} (hl : t.log = e :: s.log) :
    replay m t.trace = applyEvent (replay m s.trace) e := by
  rw [State.trace, hl, List.reverse_cons, replay, List.foldl_append]
  rfl

/-- An operation that leaves the flash and the trace alone. -/
theorem FlashFromTrace.same {m : Memory} {s t : State} (h : FlashFromTrace m s) (hb : t.backend = s.backend)
    (hf : t.flash = s.flash) (hl : t.log = s.log) : FlashFromTrace m t where
  backend := hb.trans h.backend
  flash := by
    rw [hf, h.flash, State.trace, State.trace, hl]

/-- An operation that does to the flash what its event does. -/
theorem FlashFromTrace.event {m : Memory} {s t : State} {e : Event} (h : FlashFromTrace m s)
    (hb : t.backend = s.backend) (hl : t.log = e :: s.log) (hf : t.flash = applyEvent s.flash e) :
    FlashFromTrace m t where
  backend := hb.trans h.backend
  flash := by rw [hf, h.flash, replay_log_cons hl]

theorem flashFromTrace_stable (m : Memory) : Stable true (FlashFromTrace m) where
  setStatus _ _ h := h.event rfl rfl rfl
  setCheckMode _ _ _ h := h.event rfl rfl rfl
  clearAgg _ _ h := h.same (by simp) (by simp) (by simp)
  foldAgg _ _ _ h := h.same (by simp) (by simp) (by simp)
  setIdx _ _ _ h := h.same (by simp) (by simp) (by simp)
  loadPbuf _ _ h := h.same rfl rfl rfl
  loadBase _ _ h := h.same (by simp) (by simp) (by simp)
  erased a s _ h := h.event rfl rfl (erased_flash_reference a s h.backend)
  written a d s _ h := h.event rfl rfl (written_flash_reference a d s h.backend)
  readInto _ _ _ h := h.event rfl rfl rfl
  emitBeats _ _ _ h := h.same (by simp) (by simp) (by simp)
  foldPbuf _ h := h.same rfl rfl rfl
  answer _ _ h := h.same rfl rfl rfl
  draw _ _ h := h.same rfl rfl rfl

/-- Settles O45: it holds of the empty trace at acceptance, and each operation keeps it. -/
theorem flashIsTheTraceReplayed : Obligations.FlashIsTheTraceReplayed := fun _ s _ hb he =>
  (exec_keeps (flashFromTrace_stable s.flash) (fun _ _ h => h.same rfl rfl rfl) (fun _ _ h => h.same rfl rfl rfl)
    (.inl rfl) he ⟨hb, rfl⟩).flash

/-! ### The leaf requests of a command (R25, R39, R74) -/

section CommandRequests

variable {p : Params} {b lo hi : Nat} {s : State}

theorem eraseSector_requests (a : Nat) (h : Requests p b lo hi s) (hb : b ≤ a) :
    Ends (fun _ => Requests p (a + 4096) (lo + oneIfValid p a) (hi + 16)) (Requests p (a + 4096) lo (hi + 16))
      (eraseSector a s) :=
  compound_requests .sector .erasingSector 0 a 256 1 1 _ h hb (by decide) fun _ _ _ _ _ _ => erasePage_requests _

theorem eraseBlock_requests (a : Nat) (h : Requests p b lo hi s) (hb : b ≤ a) :
    Ends (fun _ => Requests p (a + 65536) (lo + oneIfValid p a) (hi + 16)) (Requests p (a + 65536) lo (hi + 16))
      (eraseBlock a s) :=
  compound_requests .sector .erasingBlock 0 a 4096 1 1 _ h hb (by decide) fun _ _ _ _ _ _ => erasePage_requests _

theorem writeSector_requests (a : Nat) (d : List Page) (h : Requests p b lo hi s) (hb : b ≤ a) :
    Ends (fun _ => Requests p (a + 4096) (lo + oneIfValid p a) (hi + 16)) (Requests p (a + 4096) lo (hi + 16))
      (writeSector a d s) :=
  compound_requests .sector .writingSector 0 a 256 1 1 _ h hb (by decide) fun _ _ _ _ _ _ => writePage_requests _ _

theorem writeBlock_requests (a : Nat) (d : List Page) (h : Requests p b lo hi s) (hb : b ≤ a) :
    Ends (fun _ => Requests p (a + 65536) (lo + oneIfValid p a) (hi + 256)) (Requests p (a + 65536) lo (hi + 256))
      (writeBlock a d s) :=
  compound_requests .block .writingBlock 0 a 4096 16 4096 _ h hb (by decide) fun _ _ _ _ _ _ => writeSector_requests _ _

theorem getSector_requests (j a : Nat) (h : Requests p b lo hi s) (hb : b ≤ a) :
    Ends (fun _ => Requests p (a + 4096) (lo + oneIfValid p a) (hi + 16)) (Requests p (a + 4096) lo (hi + 16))
      (getSector j a s) :=
  compound_requests .sector .readingSector 16 a 256 1 1 _ h hb (by decide) fun _ _ _ _ _ _ => getPageBeat_requests _ _ _

theorem getBlock_requests (a : Nat) (h : Requests p b lo hi s) (hb : b ≤ a) :
    Ends (fun _ => Requests p (a + 65536) (lo + oneIfValid p a) (hi + 256)) (Requests p (a + 65536) lo (hi + 256))
      (getBlock a s) :=
  compound_requests .block .readingBlock 256 a 4096 16 4096 _ h hb (by decide) fun _ _ _ _ _ _ => getSector_requests _ _

theorem getPageCrc16_requests (a : Nat) (h : Requests p b lo hi s) (hb : b ≤ a) :
    Ends (fun _ => Requests p (a + 1) (lo + oneIfValid p a) (hi + 1)) (Requests p (a + 1) lo (hi + 1))
      (getPageCrc16 a s) := by
  refine ends_andThen (getPage_requests a h hb) fun r t ht => ?_
  split
  · exact ht
  · exact ht.same rfl rfl

/-- `valid` says that the address lies between the two ends of the window (R63). -/
theorem valid_iff (p : Params) (a : Nat) :
    valid p a = true ↔ p.startAddress.toNat ≤ a ∧ a ≤ p.endAddress.toNat := by
  simp [valid]

/-- Every page start of ERASE_FULL is in the window (R83). -/
theorem valid_of_lt_nFull {k : Nat} (hp : p.wf = true) (hk : k < nFull p) :
    valid p (pageStride p.startAddress.toNat k) = true := by
  have hw : p.startAddress.toNat ≤ p.endAddress.toNat := by simpa [Params.wf] using hp
  rw [valid_iff]
  simp only [nFull, pageStride, pageSize] at hk ⊢
  omega

theorem pageStride_lt_pageStride (a : Nat) {j k : Nat} (h : j < k) : pageStride a j < pageStride a k := by
  simp only [pageStride, pageSize]
  omega

/-- The procedure, entered with an empty trace, issues its leaf requests at valid addresses in ascending order, `most`
of them at the most, and `least` at the least where it comes to its end. -/
def Issues (p : Params) (least most : Nat) (f : Flow Ret) : Prop :=
  ∃ b, Ends (fun _ => Requests p b least most) (Requests p b 0 most) f

theorem issues_of_ends {least most : Nat} {f : Flow Ret}
    (h : Ends (fun _ => Requests p b (0 + least) (0 + most)) (Requests p b 0 (0 + most)) f) :
    Issues p least most f := by
  rw [Nat.zero_add, Nat.zero_add] at h
  exact ⟨b, h⟩

/-- ERASE_FULL, entered with STATUS Free, issues one request for each of its `N_FULL` pages (R83). -/
theorem eraseFull_issues (hp : p.wf = true) (h : Requests p 0 0 0 s) :
    Issues p (if s.status = Status.free.code then nFull p else 0) (nFull p) (eraseFull s) := by
  refine ⟨pageStride p.startAddress.toNat (nFull p), ?_⟩
  unfold eraseFull
  rw [h.params]
  split
  · refine ends_andThen (subOps_ends .full _ (fun k _ => Requests p (pageStride p.startAddress.toNat k) k k) _
        (nFull p) ?_ _ 0 (Nat.zero_add _) [] _ ((h.setStatus _).mono (Nat.zero_le _) (Nat.le_refl _) (Nat.le_refl _)))
      fun _ _ ht => ht.setStatus .free
    intro k hk out t ht
    have hone : oneIfValid p (pageStride p.startAddress.toNat k) = 1 := if_pos (valid_of_lt_nFull hp hk)
    have hnext := pageStride_lt_pageStride p.startAddress.toNat (Nat.lt_succ_self k)
    have hlast := pageStride_lt_pageStride p.startAddress.toNat hk
    refine ends_mono (erasePage_requests _ (ht.same rfl rfl) (Nat.le_refl _)) (fun _ u hu => ?_)
      fun u hu => hu.mono hlast (Nat.zero_le _) hk
    rw [hone] at hu
    exact hu.mono hnext (Nat.le_refl _) (Nat.le_refl _)
  · exact (h.same (u := { s with draws := s.draws + 0 }) rfl rfl).mono (Nat.zero_le _) (Nat.le_refl _) (Nat.zero_le _)

/-- The fewest leaf requests of a command that is answered, accepted with STATUS at `v` (R64, R79, R83). -/
def leafLeast (p : Params) (v : BitVec 4) : Instr → Nat
  | .eraseFull _ => if v = Status.free.code then nFull p else 0
  | i => if (validatedPages i).isSome then oneIfValid p i.addrField.toNat else 0

/-- Every command's procedure issues its leaf requests in ascending order, `leafLeast` to `leafBound` of them. -/
theorem procOf_issues (i : Instr) (hp : p.wf = true) (h : Requests p 0 0 0 s) :
    Issues p (leafLeast p s.status i) (leafBound p i) (procOf i s) := by
  have hL (a : Addr) : Requests p 0 0 0 (loadBase a s) := h.same (by simp) (leafAddrs_same _ _ (by simp))
  cases i with
  | erasePage a => exact issues_of_ends (erasePage_requests _ (hL a) (Nat.zero_le _))
  | eraseSector a => exact issues_of_ends (eraseSector_requests _ (hL a) (Nat.zero_le _))
  | eraseBlock a => exact issues_of_ends (eraseBlock_requests _ (hL a) (Nat.zero_le _))
  | eraseFull _ => exact eraseFull_issues hp h
  | writePage a d => exact issues_of_ends (writePage_requests _ d (hL a) (Nat.zero_le _))
  | writeSector a d => exact issues_of_ends (writeSector_requests _ d (hL a) (Nat.zero_le _))
  | writeBlock a d => exact issues_of_ends (writeBlock_requests _ d (hL a) (Nat.zero_le _))
  | getPage a => exact issues_of_ends (getPageBeat_requests _ _ _ (hL a) (Nat.zero_le _))
  | getSector a => exact issues_of_ends (getSector_requests _ _ (hL a) (Nat.zero_le _))
  | getBlock a => exact issues_of_ends (getBlock_requests _ (hL a) (Nat.zero_le _))
  | getPageCrc16 a => exact issues_of_ends (getPageCrc16_requests _ (hL a) (Nat.zero_le _))
  | enableCheckMode _ => exact ⟨0, h.same rfl (leafAddrs_other _ _ _ rfl rfl)⟩
  | disableCheckMode _ => exact ⟨0, h.same rfl (leafAddrs_other _ _ _ rfl rfl)⟩
  | reserved0 _ => exact ⟨0, h.same rfl rfl⟩
  | reservedE _ => exact ⟨0, h.same rfl rfl⟩
  | reservedF _ => exact ⟨0, h.same rfl rfl⟩

end CommandRequests

/-- A command whose backend does not answer is still in progress (R136). -/
theorem waiting_busy {i : Instr} {s u : State} (h : procOf i (accept i.opcode s) = .waiting u) : u.busy = true := by
  have hin := procOf_stable (inCommand_stable i.opcode s.pending) i (.inl rfl) (accept i.opcode s) ⟨rfl, rfl, rfl⟩
  rw [h] at hin
  obtain ⟨u, q, hu, rfl, -, -⟩ := hin
  simp [State.busy, hu.curOp]

/-- At acceptance the trace is empty. -/
theorem accept_requests (op : Opcode) (s : State) : Requests s.params 0 0 0 (accept op s) :=
  ⟨rfl, .nil, fun _ hx => absurd hx List.not_mem_nil, Nat.le_refl _, Nat.le_refl _⟩

/-- The leaf requests of a command that answers a next state, and their number where that state is an idle one. -/
theorem exec_requests {i : Instr} {s t : State} (he : exec i s = .next t) :
    ∃ b, Requests s.params b (if t.busy then 0 else leafLeast s.params s.status i) (leafBound s.params i) t := by
  obtain ⟨-, hp, rfl⟩ := exec_next_inv i s t he
  obtain ⟨b, h⟩ := procOf_issues i hp (accept_requests i.opcode s)
  refine ⟨b, ?_⟩
  cases hf : procOf i (accept i.opcode s) with
  | done r u =>
    rw [hf] at h
    exact Requests.same h rfl rfl
  | waiting u =>
    rw [hf] at h
    rw [finish, waiting_busy hf, if_pos rfl]
    exact h

/-- Settles O48: `Requests`, which every procedure carries to its end or to where it waits, says both. -/
theorem leafRequestsAreValidAndAscending : Obligations.LeafRequestsAreValidAndAscending := by
  intro i s t he
  obtain ⟨b, h⟩ := exec_requests he
  exact ⟨h.ascending, fun a ha => (h.below a ha).2⟩

/-! ### A backend that falls silent (R35, R136) -/

/-- `t` runs over a backend that answers all; `s` is the same state over one that answers `n` requests in all, of which
the trace holds those answered so far. -/
def Limited (n : Nat) (s t : State) : Prop :=
  t.answersLeft = none ∧ ∃ k, s = { t with answersLeft := some k } ∧ (leafAddrs t.trace).length + k = n

/-- `s` has stopped after `n` requests, and `t` has gone on past them. -/
structure CutShort (n : Nat) (s t : State) : Prop where
  initial : s.trace <+: t.trace
  stopped : (leafAddrs s.trace).length = n
  further : n < (leafAddrs t.trace).length

/-- The operation has nothing to do with the count of answers. -/
def IgnoresAnswers (f : State → State) : Prop :=
  ∀ s k, f { s with answersLeft := k } = { f s with answersLeft := k }

section Silenced

variable {n : Nat} {s t : State}

theorem IgnoresAnswers.answering {f : State → State} (hf : IgnoresAnswers f) (h : t.answersLeft = none) :
    (f t).answersLeft = none :=
  calc (f t).answersLeft = (f { t with answersLeft := none }).answersLeft := by rw [← h]
    _ = none := by rw [hf t none]

theorem Limited.read (h : Limited n s t) {α : Type} (g : State → α)
    (hg : ∀ s k, g { s with answersLeft := k } = g s) : g s = g t := by
  obtain ⟨-, k, rfl, -⟩ := h
  exact hg t _

/-- An operation that issues no request and has nothing to do with the count of answers. -/
theorem Limited.map (h : Limited n s t) {f : State → State} (hf : IgnoresAnswers f)
    (hl : ∀ s, leafAddrs (f s).trace = leafAddrs s.trace) : Limited n (f s) (f t) := by
  obtain ⟨hn, k, rfl, hk⟩ := h
  exact ⟨hf.answering hn, k, hf t _, by rw [hl, hk]⟩

/-- Where one backend does not answer a request and the other does, with the event `e`, the first run is cut short. -/
theorem CutShort.of_request {u v : State} {e : Event} {a : Nat} (hs : (leafAddrs t.trace).length = n)
    (hu : u.log = t.log) (hv : v.log = e :: t.log) (he : leafAddr e = some a) : CutShort n u v where
  initial := by simp [State.trace, hu, hv]
  stopped := by rw [leafAddrs_same t u hu, hs]
  further := by simp [leafAddrs_request t v e a hv he, hs]

theorem CutShort.same {u : State} (h : CutShort n s t) (hl : u.log = t.log) : CutShort n s u := by
  have he : u.trace = t.trace := by rw [State.trace, hl, State.trace]
  exact ⟨he ▸ h.initial, h.stopped, he ▸ h.further⟩

theorem CutShort.event {u : State} {e : Event} (h : CutShort n s t) (hl : u.log = e :: t.log) : CutShort n s u := by
  have he : u.trace = t.trace ++ [e] := by simp [State.trace, hl]
  refine ⟨?_, h.stopped, ?_⟩
  · rw [he]
    exact h.initial.trans ⟨_, rfl⟩
  · rw [he, leafAddrs, List.filterMap_append, List.length_append]
    exact Nat.lt_add_right _ h.further

theorem cutShort_stable (n : Nat) (s : State) : Stable true (CutShort n s) where
  setStatus _ _ h := h.event rfl
  setCheckMode _ _ _ h := h.event rfl
  clearAgg _ _ h := h.same (by simp)
  foldAgg _ _ _ h := h.same (by simp)
  setIdx _ _ _ h := h.same (by simp)
  loadPbuf _ _ h := h.same rfl
  loadBase _ _ h := h.same (by simp)
  erased _ _ _ h := h.event rfl
  written _ _ _ _ h := h.event rfl
  readInto _ _ _ h := h.event rfl
  emitBeats _ _ _ h := h.same (by simp)
  foldPbuf _ h := h.same rfl
  answer _ _ h := h.same rfl
  draw _ _ h := h.same rfl

theorem cutShort_goesOn (n : Nat) : GoesOn (CutShort n) (CutShort n) where
  stable := cutShort_stable n
  hung := by
    rintro s t ⟨u, q, h, rfl, -, -⟩
    exact h.same rfl

/-- One exchange whose answer has the effect `f`: either both backends answer, or this is where the first falls
silent. -/
theorem Limited.exchange (h : Limited n s t) (q : LeafReq) {f : State → State} {e : State → Event} {a : Nat}
    (hf : IgnoresAnswers f) (hl : ∀ s, (f s).log = e s :: s.log) (he : ∀ s, leafAddr (e s) = some a) :
    Both (fun _ s _ t => Limited n s t) (CutShort n) (CutShort n) (andThen (leafExchange q s) fun _ u => .done () (f u))
      (andThen (leafExchange q t) fun _ u => .done () (f u)) := by
  obtain ⟨hn, k, rfl, hk⟩ := h
  rw [leafExchange_answered q t hn, andThen_done]
  cases k with
  | zero =>
    rw [leafExchange_silent q _ rfl, andThen_waiting]
    exact CutShort.of_request hk rfl (hl t) (he t)
  | succ k =>
    rw [leafExchange_counted q _ k rfl, andThen_done]
    refine ⟨hf.answering hn, k, hf t _, ?_⟩
    rw [leafAddrs_request t (f t) (e t) a (hl t) (he t), List.length_append, List.length_singleton]
    omega

end Silenced

theorem limited_kept (n : Nat) : Kept (Limited n) (CutShort n) (CutShort n) where
  goesOn := cutShort_goesOn n
  valid _ _ a h := h.read (fun s => valid s.params a) fun _ _ => rfl
  draws _ _ h := h.read State.draws fun _ _ => rfl
  erase _ _ a h := h.exchange _ (f := erased a) (fun _ _ => rfl) (fun _ => rfl) fun _ => rfl
  write _ _ a d h _ := h.exchange _ (f := written a d) (fun _ _ => rfl) (fun _ => rfl) fun _ => rfl
  read _ _ a h := both_mono (h.exchange _ (f := readInto a) (fun _ _ => rfl) (fun _ => rfl) fun _ => rfl)
    fun _ _ _ _ h => ⟨h, h.read State.pbuf fun _ _ => rfl⟩
  setStatus _ _ v h := h.map (f := setStatus v) (fun _ _ => rfl) fun _ => leafAddrs_other _ _ _ rfl rfl
  loadPbuf _ _ d h := h.map (f := loadPbuf d) (fun _ _ => rfl) fun _ => rfl
  loadBase _ _ a h := h.map (f := loadBase a) (fun s k => by unfold loadBase; split <;> rfl) fun _ =>
    leafAddrs_same _ _ (by simp)
  foldPbuf _ _ h _ := h.map (f := foldPbuf) (fun _ _ => rfl) fun _ => rfl
  emitBeats _ _ x r h := h.map (f := emitBeats x r) (fun s k => by unfold emitBeats; split <;> rfl) fun _ =>
    leafAddrs_same _ _ (by simp)
  draw _ _ m h := h.map (f := fun s => { s with draws := m }) (fun _ _ => rfl) fun _ => rfl

/-- AGG and AGG2 agree throughout, so it is one relation for all of a command. -/
theorem limited_commandRel (n : Nat) : CommandRel (fun _ _ => Limited n) Eq (CutShort n) (CutShort n) where
  kept _ _ := limited_kept n
  setCheckMode _ _ v h := h.map (f := setCheckMode v) (fun _ _ => rfl) fun _ => leafAddrs_other _ _ _ rfl rfl
  dropAgg _ _ _ _ h := h
  dropAgg2 _ _ _ _ h := h
  ret _ := rfl
  pages _ _ := congrArg Ret.pages
  clearAgg _ _ _ h := h.map (f := clearAgg .sector) (fun _ _ => rfl) fun _ => rfl
  clearAgg2 _ _ _ h := h.map (f := clearAgg .block) (fun _ _ => rfl) fun _ => rfl
  setIdx _ _ _ _ l m h := h.map (f := setIdx l m) (fun _ _ => by cases l <;> rfl) fun _ =>
    leafAddrs_same _ _ (by simp)
  foldAgg _ _ _ _ l r _ hr h := hr ▸ h.map (f := foldAgg l r.result) (fun _ _ => by cases l <;> rfl) fun _ =>
    leafAddrs_same _ _ (by simp)
  report _ _ _ _ h := by rw [h.read (report .sector) fun _ _ => rfl]
  report2 _ _ _ _ h := by rw [h.read (report .block) fun _ _ => rfl]

/-- A command's procedure over the two backends: it ends alike, or it is cut short over the one that falls silent. -/
theorem procOf_limited (i : Instr) {n : Nat} {s t : State} (h : Limited n s t) :
    Both (SameRet (Limited n)) (CutShort n) (CutShort n) (procOf i s) (procOf i t) := by
  have hp := h.read State.params fun _ _ => rfl
  by_cases hi : ∃ a, i = .getPageCrc16 a
  · obtain ⟨a, rfl⟩ := hi
    refine both_mono (getPageCrc16_both (limited_commandRel n) a s t h) ?_
    rintro r _ w _ ⟨⟨rfl, -⟩ | ⟨c, rfl, rfl⟩, h'⟩
    · exact ⟨rfl, h'⟩
    · exact ⟨by rw [h'.read State.params fun _ _ => rfl], h'⟩
  · exact procOf_both (limited_commandRel n) i (fun a ha => hi ⟨a, ha⟩) s t h (h.read State.status fun _ _ => rfl)
      (by rw [hp]) (by rw [hp])

/-- Runs that end together: an answered one leaves the same state but for the count of answers, and one that waits has
been cut short. -/
theorem finish_limited {n : Nat} {f g : Flow Ret} (h : Both (SameRet (Limited n)) (CutShort n) (CutShort n) f g) :
    Ends (fun r v => respond r v = { finish g with answersLeft := v.answersLeft }) (fun v => CutShort n v (finish g))
      f := by
  cases f with
  | done r v =>
    cases g with
    | done w x =>
      obtain ⟨rfl, -, k, rfl, -⟩ := h
      rfl
    | waiting x => exact h.elim
  | waiting v =>
    cases g with
    | done w x => exact CutShort.same h rfl
    | waiting x => exact h

/-- Settles O56: an answered command has BUSY 0, and there the two runs differ in the count of answers alone; a waiting
one has BUSY 1, and has been cut short. -/
theorem silencedCommandIsAnInitialPart : Obligations.SilencedCommandIsAnInitialPart := by
  intro i s t u n hn he hu
  obtain ⟨-, -, rfl⟩ := exec_next_inv i s t he
  obtain ⟨-, -, rfl⟩ := exec_next_inv i _ u hu
  have h0 : Limited n (accept i.opcode s) (accept i.opcode { s with answersLeft := none }) :=
    ⟨rfl, n, by rw [← hn]; rfl, Nat.zero_add n⟩
  have h := finish_limited (procOf_limited i h0)
  cases hf : procOf i (accept i.opcode s) with
  | done r v =>
    rw [hf] at h
    exact ⟨fun _ => h, nofun⟩
  | waiting v =>
    rw [hf] at h
    exact ⟨fun hb => absurd (hb.symm.trans (waiting_busy hf)) Bool.false_ne_true,
      fun _ => ⟨h.initial, h.stopped, h.further⟩⟩

end Sys2Proof.Machine
/-! PROOFS. The encodings (30_encoding.md): the decoder and the encoder are inverse to each other (R45, R46, R58), every
word has one row of the opcode table (R46, R62), the layout of beats, responses and leaf requests (R50, R52, R58), and
the step that takes a command from the channels (R57, R75). -/

namespace Sys2Proof

/-! ### A command, its fields and its beats (R45, R46, R48, R58) -/

/-- A command is well formed exactly when it has as many beats as its opcode calls for (R48, R58). -/
theorem wf_iff_beats_length (i : Instr) : i.wf = true ↔ i.beats.length = beatCount i.opcode := by
  cases i with
  | writeSector _ _ => exact beq_iff_eq
  | writeBlock _ _ => exact beq_iff_eq
  | _ => exact iff_of_true rfl rfl

/-- A command is what its opcode, its address field and its beats select. -/
theorem selectCommand_of_fields (i : Instr) : selectCommand i.opcode i.addrField i.beats = i := by
  cases i <;> rfl

@[simp] theorem selectCommand_opcode (op : Opcode) (addr : Addr) (d : List Page) :
    (selectCommand op addr d).opcode = op := by
  -- The 16 opcodes one by one, each a literal on which the match of `selectCommand` reduces.
  obtain ⟨n, hn⟩ := op
  interval_cases n <;> rfl

@[simp] theorem selectCommand_addrField (op : Opcode) (addr : Addr) (d : List Page) :
    (selectCommand op addr d).addrField = addr := by
  unfold selectCommand
  split <;> rfl

/-- Every opcode and every address are the fields of some command (R62). -/
theorem exists_instr_of_fields (op : Opcode) (addr : Addr) : ∃ i : Instr, i.opcode = op ∧ i.addrField = addr :=
  ⟨selectCommand op addr [], selectCommand_opcode op addr [], selectCommand_addrField op addr []⟩

/-- The command selected with as many beats as its opcode calls for carries exactly those. -/
theorem selectCommand_beats (op : Opcode) (addr : Addr) (d : List Page) (h : d.length = beatCount op) :
    (selectCommand op addr d).beats = d := by
  obtain ⟨i, rfl, rfl⟩ := exists_instr_of_fields op addr
  cases i with
  | writePage _ _ =>
    obtain ⟨p, rfl⟩ := List.length_eq_one_iff.mp h
    rfl
  | writeSector _ _ => rfl
  | writeBlock _ _ => rfl
  | _ => exact (List.eq_nil_of_length_eq_zero h).symm

theorem selectCommand_wf (op : Opcode) (addr : Addr) (d : List Page) (h : d.length = beatCount op) :
    (selectCommand op addr d).wf = true := by
  rw [wf_iff_beats_length, selectCommand_beats op addr d h, selectCommand_opcode, h]

/-! ### The decoder and the encoder (R45, R46, R58) -/

/-- Everything `decode` can take: the beats that the opcode calls for, from the front of the queue. -/
theorem decode_eq_ok_iff (w : CmdWord) (wd rest : List Page) (i : Instr) :
    decode w wd = .ok (i, rest) ↔
      ∃ d, d.length = beatCount (cmdOp w) ∧ d ++ rest = wd ∧ selectCommand (cmdOp w) (cmdAddr w) d = i := by
  constructor
  · intro h
    simp only [decode] at h
    split at h
    · next hn =>
      cases h
      exact ⟨_, List.length_take_of_le hn, List.take_append_drop _ _, rfl⟩
    · cases h
  · rintro ⟨d, hd, rfl, rfl⟩
    simp [decode, ← hd]

/-- Beats behind those a command takes stay behind. -/
theorem decode_append {w : CmdWord} {wd rest : List Page} {i : Instr} (h : decode w wd = .ok (i, rest))
    (more : List Page) : decode w (wd ++ more) = .ok (i, rest ++ more) := by
  obtain ⟨d, hd, rfl, hi⟩ := (decode_eq_ok_iff w wd rest i).mp h
  exact (decode_eq_ok_iff ..).mpr ⟨d, hd, (List.append_assoc ..).symm, hi⟩

/-- Settles O8: the fields of the encoded word are the command's, and its beats are as many as its opcode calls for. -/
theorem decodeOfEncodeIsTheCommand : Obligations.DecodeOfEncodeIsTheCommand := by
  intro i rest hi
  refine (decode_eq_ok_iff ..).mpr ⟨i.beats, ?_, rfl, ?_⟩
  · rw [encode, cmdOp_cmdWord]
    exact (wf_iff_beats_length i).mp hi
  · rw [encode, cmdOp_cmdWord, cmdAddr_cmdWord]
    exact selectCommand_of_fields i

/-- Settles O9: the selected command has the word's two fields, and the beats taken for it. -/
theorem encodeOfDecodeIsTheWord : Obligations.EncodeOfDecodeIsTheWord := by
  intro w wd rest i h
  obtain ⟨d, hd, rfl, rfl⟩ := (decode_eq_ok_iff w wd rest i).mp h
  refine ⟨selectCommand_wf _ _ d hd, ?_, ?_⟩
  · rw [encode, selectCommand_opcode, selectCommand_addrField, cmdWord_fields]
  · rw [encode, selectCommand_beats _ _ d hd]

/-- Settles O11: each word is one the decoder computes. -/
theorem specWordsDecodeToTheirCommands : Obligations.SpecWordsDecodeToTheirCommands :=
  ⟨rfl, rfl, rfl, rfl, rfl, rfl, rfl, rfl, rfl, rfl⟩

/-! ### The opcode table (R46, R62) -/

/-- The row of an opcode: its mnemonic, and the opcode alone under the mask of R46. -/
def opcodeRow (op : Opcode) : OpcodeRow := ⟨(selectCommand op 0 []).mnemonic, 0xF00000000, cmdWord op 0⟩

/-- The opcode table has the row of each opcode, and no other. -/
theorem mem_opcodeTable_iff (r : OpcodeRow) : r ∈ opcodeTable ↔ ∃ op, r = opcodeRow op := by
  have hrows : ∀ r ∈ opcodeTable, ∃ op, r = opcodeRow op := by decide
  have hops : ∀ op, opcodeRow op ∈ opcodeTable := by decide
  exact ⟨hrows r, fun ⟨op, h⟩ => h ▸ hops op⟩

/-- The mnemonic of a command is that of its opcode's row. -/
theorem opcodeRow_mnemonic (i : Instr) : (opcodeRow i.opcode).mnemonic = i.mnemonic := by
  cases i <;> rfl

/-- The mask of R46 keeps a word's opcode and clears its address. -/
theorem and_mask (w : CmdWord) : w &&& 0xF00000000 = cmdWord (cmdOp w) 0 := by
  calc w &&& 0xF00000000
    _ = cmdWord (cmdOp w) (cmdAddr w) &&& cmdWord (BitVec.allOnes 4) 0 := by rw [cmdWord_fields]; rfl
    _ = cmdWord (cmdOp w &&& BitVec.allOnes 4) (cmdAddr w &&& 0) := BitVec.and_append
    _ = cmdWord (cmdOp w) 0 := by rw [BitVec.and_allOnes, show cmdAddr w &&& 0 = 0 from BitVec.and_zero]

/-- A word matches the row of its own opcode and no other. -/
theorem opcodeRow_matches_iff (w : CmdWord) (op : Opcode) :
    w &&& (opcodeRow op).mask = (opcodeRow op).pattern ↔ cmdOp w = op := by
  rw [opcodeRow, and_mask]
  exact ⟨fun h => by simpa using congrArg cmdOp h, fun h => by rw [h]⟩

theorem opcodeRow_inj {op op' : Opcode} : opcodeRow op = opcodeRow op' ↔ op = op' :=
  ⟨fun h => by simpa [opcodeRow] using congrArg (cmdOp ∘ OpcodeRow.pattern) h, congrArg opcodeRow⟩

/-- Settles O10: the one row is that of the word's opcode, which is also the opcode of what it decodes to. -/
theorem everyWordIsExactlyOneRow : Obligations.EveryWordIsExactlyOneRow := by
  intro w
  refine ⟨opcodeRow (cmdOp w), (mem_opcodeTable_iff _).mpr ⟨_, rfl⟩, ?_, ?_⟩
  · intro r' hr'
    obtain ⟨op, rfl⟩ := (mem_opcodeTable_iff r').mp hr'
    rw [opcodeRow_matches_iff, opcodeRow_inj, eq_comm]
  · intro wd i rest h
    obtain ⟨d, -, -, rfl⟩ := (decode_eq_ok_iff w wd rest i).mp h
    rw [← opcodeRow_mnemonic, selectCommand_opcode]

/-! ### Beats, responses and leaf requests (R27, R50, R52, R58) -/

theorem pageByte_getLsbD (p : Page) (k b : Nat) (hb : b < 8) : (pageByte p k).getLsbD b = p.getLsbD (8 * k + b) := by
  rw [pageByte, BitVec.getLsbD_extractLsb', decide_eq_true hb, Bool.true_and]

/-- A beat is the packing of its own bytes. -/
theorem packPage_pageBytes (p : Page) : packPage (pageBytes p) = p := by
  refine page_ext _ _ fun k hk => ?_
  rw [pageByte_packPage _ (pageBytes_length p) k hk 0]
  simp [pageBytes, hk]

/-- Settles O14, from the bytes of a packed beat and the bits of a byte. -/
theorem beatCarriesItsBytesInOrder : Obligations.BeatCarriesItsBytesInOrder := by
  refine ⟨fun bs k h hl => ?_, packPage_pageBytes, pageByte_getLsbD⟩
  rw [pageByte_packPage bs hl k (hl ▸ h) 0, List.getD_eq_getElem bs 0 h]

/-- A word of two fields as a number: the high field above the low one. -/
theorem append_toNat {m n : Nat} (x : BitVec m) (y : BitVec n) : (x ++ y).toNat = x.toNat * 2 ^ n + y.toNat := by
  rw [BitVec.toNat_append, ← Nat.shiftLeft_add_eq_or_of_lt y.isLt, Nat.shiftLeft_eq]

/-- Settles O12: the result stands above the 16 bits of the crc. -/
theorem responseWordHoldsResultAndCrc : Obligations.ResponseWordHoldsResultAndCrc := by
  intro r
  rw [Response.word, append_toNat]
  cases r.result <;> rfl

/-- Settles O13: a valid address is at most END_ADDRESS, so that 32 bits hold it. -/
theorem leafRequestWordHoldsOpAndAddress : Obligations.LeafRequestWordHoldsOpAndAddress := by
  intro p q h
  have hle : q.addr ≤ p.endAddress.toNat := by
    simp only [Machine.valid, Bool.and_eq_true, decide_eq_true_eq] at h
    exact h.2
  rw [LeafReq.word, append_toNat, BitVec.toNat_ofNat, Nat.mod_eq_of_lt (hle.trans_lt p.endAddress.isLt)]

end Sys2Proof

namespace Sys2Proof.Machine

open Sys2Proof

/-! ### The address field that is ignored (R47, R104) -/

/-- Well-formed commands of one opcode and one procedure do the same. -/
theorem exec_congr {i i' : Instr} (s : State) (hi : i.wf = true) (hi' : i'.wf = true) (ho : i.opcode = i'.opcode)
    (hp : procOf i = procOf i') : exec i s = exec i' s := by
  rw [exec_eq i s hi, exec_eq i' s hi', ho, hp]

/-- Settles O15: with either address these commands have the same procedure. -/
theorem ignoredAddressFieldIsIgnored : Obligations.IgnoredAddressFieldIsIgnored := fun _ _ s =>
  ⟨exec_congr s rfl rfl rfl rfl, exec_congr s rfl rfl rfl rfl, exec_congr s rfl rfl rfl rfl,
    exec_congr s rfl rfl rfl rfl, exec_congr s rfl rfl rfl rfl, exec_congr s rfl rfl rfl rfl⟩

/-! ### The step that takes a command from the channels (R57, R58, R75) -/

/-- What `fetch` takes where a whole command is offered. -/
theorem fetch_of_decode {s : State} {w : CmdWord} {rest : List CmdWord} {i : Instr} {wd : List Page}
    (hc : s.cmd = w :: rest) (hd : decode w s.wd = .ok (i, wd)) :
    fetch s = some (i, { s with cmd := rest, wd := wd }) := by
  simp only [fetch, hc, hd]

/-- Settles O16: the command that `fetch` takes is the one the step runs. -/
theorem stepRunsTheDecodedCommand : Obligations.StepRunsTheDecodedCommand :=
  fun s _ _ i _ hr hb hc hd => step_command s hr hb i _ (fetch_of_decode hc hd)

/-- The command of a numbered word is what the word decodes to with its write data of zeros, all of which it takes. -/
theorem decode_of_decodeTableWord {nbits w : Nat} {i : Instr} (h : decodeTableWord nbits w = some i) :
    decode (BitVec.ofNat 36 w) (zeroBeats (BitVec.ofNat 36 w)) = .ok (i, []) := by
  simp only [decodeTableWord] at h
  split at h
  · split at h
    · next j rest hd =>
      cases h
      obtain ⟨d, hlen, happ, -⟩ := (decode_eq_ok_iff ..).mp hd
      have hrest : rest = [] := by
        have := congrArg List.length happ
        rw [List.length_append, List.length_replicate] at this
        exact List.eq_nil_of_length_eq_zero (by omega)
      exact hrest ▸ hd
    · cases h
  · cases h

/-- Settles O17: with the placed word's zeros taken, what the channels offered before is what is left on them. -/
theorem placedWordIsTheNextCommandRun : Obligations.PlacedWordIsTheNextCommandRun := fun s nbits w i h =>
  stepRunsTheDecodedCommand (s.withFetchWord nbits w) _ s.cmd i s.wd rfl rfl rfl
    (decode_append (decode_of_decodeTableWord h) s.wd)

end Sys2Proof.Machine
/-! PROOFS. Common sequencing (40_common_sequencing.md): an address outside the window (R64), the strides as bit fields
(R68), PROPAGATE_SUBFAIL (R70), and how many leaf requests a command issues (R79). -/

namespace Sys2Proof.Machine

open Sys2Proof

/-! ### The strides as bit fields (R68) -/

theorem blockField_eq (a : Addr) : blockField a = a.toNat / 65536 % 65536 := by
  rw [blockField, BitVec.extractLsb'_toNat, Nat.shiftRight_eq_div_pow]

theorem sectorField_eq (a : Addr) : sectorField a = a.toNat / 4096 % 16 := by
  rw [sectorField, BitVec.extractLsb'_toNat, Nat.shiftRight_eq_div_pow]

theorem pageField_eq (a : Addr) : pageField a = a.toNat / 256 % 16 := by
  rw [pageField, BitVec.extractLsb'_toNat, Nat.shiftRight_eq_div_pow]

theorem byteField_eq (a : Addr) : byteField a = a.toNat % 256 := by
  rw [byteField, BitVec.extractLsb'_toNat, Nat.shiftRight_zero]

/-- Settles O57: the offset of the byte is below the block size, so it adds to an aligned address without a carry into
the block field, and its digits are `j`, `i` and `k`. -/
theorem stridesAreBitFieldsWhenAligned : Obligations.StridesAreBitFieldsWhenAligned := by
  intro addr j i k haligned hj hi hk
  have hlt := addr.isLt
  have hstride : pageStride (sectorStride addr.toNat j) i + k = addr.toNat + (4096 * j + 256 * i + k) := by
    simp only [pageStride, sectorStride, pageSize, sectorSize]
    omega
  have hfits : addr.toNat + (4096 * j + 256 * i + k) < 2 ^ 32 := by omega
  refine ⟨BitVec.ofNat 32 (addr.toNat + (4096 * j + 256 * i + k)), ?_, ?_, ?_, ?_, ?_⟩
  · rw [hstride, BitVec.toNat_ofNat, Nat.mod_eq_of_lt hfits]
  · rw [blockField_eq, blockField_eq, BitVec.toNat_ofNat, Nat.mod_eq_of_lt hfits]
    omega
  · rw [sectorField_eq, BitVec.toNat_ofNat, Nat.mod_eq_of_lt hfits]
    omega
  · rw [pageField_eq, BitVec.toNat_ofNat, Nat.mod_eq_of_lt hfits]
    omega
  · rw [byteField_eq, BitVec.toNat_ofNat, Nat.mod_eq_of_lt hfits]
    omega

/-! ### An address outside the window (R64, R108, R113) -/

/-- The procedure fails with `n` pages of unspecified data, and nothing but the count of free values moves. -/
def FailsUntouched (n : Nat) (s : State) (f : Flow Ret) : Prop :=
  ∃ pages c, f = .done { result := .fail, pages := pages } { s with draws := c } ∧ pages.length = n

theorem failWith_failsUntouched (n : Nat) (s : State) : FailsUntouched n s (failWith n s) :=
  ⟨freePages n s.draws, s.draws + n, rfl, by simp [freePages]⟩

theorem compound_failsUntouched (l : Level) (v : Status) (lost a : Nat) (body : Nat → State → Flow Ret) {s : State}
    (hv : valid s.params a = false) : FailsUntouched lost s (compound l v lost a body s) := by
  rw [compound_invalid l v lost a body s hv]
  exact failWith_failsUntouched lost s

theorem getPageBeat_failsUntouched (j i a : Nat) {s : State} (hv : valid s.params a = false) :
    FailsUntouched 1 s (getPageBeat j i a s) := by
  rw [getPageBeat, getPage_invalid a s hv]
  exact failWith_failsUntouched 1 s

theorem erasePage_failsUntouched (a : Nat) {s : State} (hv : valid s.params a = false) :
    FailsUntouched 0 s (erasePage a s) := by
  rw [erasePage_invalid a s hv]
  exact failWith_failsUntouched 0 s

theorem writePage_failsUntouched (a : Nat) (d : Page) {s : State} (hv : valid s.params a = false) :
    FailsUntouched 0 s (writePage a d s) := by
  rw [writePage_invalid a d s hv]
  exact failWith_failsUntouched 0 s

/-- The checksum command reads no page, and has none to return. -/
theorem getPageCrc16_failsUntouched (a : Nat) {s : State} (hv : valid s.params a = false) :
    FailsUntouched 0 s (getPageCrc16 a s) := by
  rw [getPageCrc16, getPage_invalid a s hv]
  exact ⟨[], s.draws + 1, rfl, rfl⟩

/-- Each of the ten commands with an address fails untouched on an address that is not valid (R64). -/
theorem procOf_failsUntouched {i : Instr} {s : State} {n : Nat} (hi : validatedPages i = some n)
    (hv : valid s.params i.addrField.toNat = false) : FailsUntouched n s (procOf i s) := by
  have hbase {a : Addr} {m : Nat} (ha : valid s.params a.toNat = false) {proc : State → Flow Ret}
      (h : FailsUntouched m s (proc s)) : FailsUntouched m s (proc (loadBase a s)) := by
    rw [loadBase_of_invalid a s ha]
    exact h
  cases i <;> cases hi
  case erasePage a => exact hbase hv (erasePage_failsUntouched _ hv)
  case eraseSector a => exact hbase hv (compound_failsUntouched _ _ _ _ _ hv)
  case eraseBlock a => exact hbase hv (compound_failsUntouched _ _ _ _ _ hv)
  case writePage a d => exact hbase hv (writePage_failsUntouched _ _ hv)
  case writeSector a d => exact hbase hv (compound_failsUntouched _ _ _ _ _ hv)
  case writeBlock a d => exact hbase hv (compound_failsUntouched _ _ _ _ _ hv)
  case getPage a => exact hbase hv (getPageBeat_failsUntouched _ _ _ hv)
  case getSector a => exact hbase hv (compound_failsUntouched _ _ _ _ _ hv)
  case getBlock a => exact hbase hv (compound_failsUntouched _ _ _ _ _ hv)
  case getPageCrc16 a => exact hbase hv (getPageCrc16_failsUntouched _ hv)

/-- An address below the window or above it is not valid (R63). -/
theorem valid_eq_false_iff (p : Params) (a : Nat) :
    valid p a = false ↔ a < p.startAddress.toNat ∨ p.endAddress.toNat < a := by
  rw [← Bool.not_eq_true, valid_iff]
  omega

/-- Settles O22: the procedure fails untouched from the state at acceptance, where trace and RD beats are empty. -/
theorem addressOutsideWindowFailsWithoutEffect : Obligations.AddressOutsideWindowFailsWithoutEffect := by
  intro i s n hi hp hn hout
  obtain ⟨pages, c, hproc, hlen⟩ := procOf_failsUntouched (s := accept i.opcode s) hn ((valid_eq_false_iff _ _).2 hout)
  have hframe : UnchangedBut [] (accept i.opcode s) { accept i.opcode s with draws := c } := by
    constructor <;> intros <;> rfl
  obtain ⟨he, ha, hu⟩ := exec_answers i s _ _ [] [] hi hp hproc rfl hframe
  exact ⟨_, pages, he, ha, hlen, rfl, hu⟩

/-! ### How many leaf requests a command issues (R79) -/

/-- An answered command at a valid address issued at least the request of its first page. -/
theorem leafLeast_of_valid {i : Instr} {p : Params} (v : BitVec 4) (hi : (validatedPages i).isSome = true)
    (hv : valid p i.addrField.toNat = true) : leafLeast p v i = 1 := by
  unfold leafLeast
  split
  · cases hi
  · rw [if_pos hi]
    exact if_pos hv

/-- At an address that is not valid a command answers at once, with an empty trace (R64). -/
theorem exec_trace_of_invalid {i : Instr} {s t : State} (he : exec i s = .next t)
    (hi : (validatedPages i).isSome = true) (hv : valid s.params i.addrField.toNat = false) : t.trace = [] := by
  obtain ⟨-, -, rfl⟩ := exec_next_inv i s t he
  obtain ⟨n, hn⟩ := Option.isSome_iff_exists.1 hi
  obtain ⟨pages, c, hproc, -⟩ := procOf_failsUntouched (s := accept i.opcode s) hn hv
  rw [hproc]
  rfl

/-- Settles O49: `exec_requests` bounds the number from both sides; for an answered ERASE_FULL from Free the two bounds
meet, and at an invalid address the whole trace is empty. -/
theorem leafRequestCountIsBounded : Obligations.LeafRequestCountIsBounded := by
  intro i s t he
  obtain ⟨b, h⟩ := exec_requests he
  refine ⟨h.upper, fun hb hi hv => ?_, fun hi hv => ?_, ?_⟩
  · have hlow := h.lower
    rwa [if_neg (by simp [hb]), leafLeast_of_valid s.status hi hv] at hlow
  · rw [exec_trace_of_invalid he hi hv]
    rfl
  · rintro hb x rfl hst
    have hlow := h.lower
    rw [if_neg (by simp [hb]), leafLeast, if_pos hst] at hlow
    exact Nat.le_antisymm h.upper hlow

/-! ### What PROPAGATE_SUBFAIL changes (R70) -/

/-- The state with what PROPAGATE_SUBFAIL bears on blanked: the parameter itself, and the AGG bits, for AGG2 folds what
the sector procedures report. -/
def withoutReport (s : State) : State :=
  { s with params := { s.params with propagateSubfail := false }, agg := .ok, agg2 := .ok }

/-- The two states agree in all that PROPAGATE_SUBFAIL does not bear on. -/
def SameButReport (s t : State) : Prop := withoutReport s = withoutReport t

/-- The operation reads nothing that PROPAGATE_SUBFAIL bears on. -/
def IgnoresReport (f : State → State) : Prop := ∀ s, withoutReport (f s) = withoutReport (f (withoutReport s))

section SameButReport

variable {s t : State}

theorem SameButReport.map (h : SameButReport s t) {f : State → State} (hf : IgnoresReport f) :
    SameButReport (f s) (f t) := by
  rw [SameButReport, hf s, h, ← hf t]

theorem SameButReport.read (h : SameButReport s t) {α : Type} (g : State → α) (hg : ∀ s, g s = g (withoutReport s)) :
    g s = g t := by
  rw [hg s, h, ← hg t]

/-- An exchange followed by the effect `f` of its answer: it is enough that `f` takes such states to `P`. -/
theorem SameButReport.exchange (h : SameButReport s t) (q : LeafReq) {f : State → State}
    {P : Unit → State → Unit → State → Prop} (hf : ∀ s t, SameButReport s t → P () (f s) () (f t)) :
    Both P SameButReport NeverApart (andThen (leafExchange q s) fun _ u => .done () (f u))
      (andThen (leafExchange q t) fun _ u => .done () (f u)) := by
  have hx : Both (fun _ s _ t => SameButReport s t) SameButReport NeverApart (leafExchange q s) (leafExchange q t) :=
    leafExchange_both
      (fun _ _ q h => h.map (f := fun s => { s with pending := some q }) fun _ => rfl)
      (fun _ _ h => h.read State.answersLeft fun _ => rfl)
      (fun _ _ n h => h.map (f := fun s => { s with answersLeft := n }) fun _ => rfl) NeverApart q s t h
  exact both_andThen hx (fun _ _ _ _ h => hf _ _ h) fun _ _ _ hd => hd.elim

end SameButReport

theorem ignoresReport_loadBase (a : Addr) : IgnoresReport (loadBase a) := by
  intro s
  have hv : valid (withoutReport s).params a.toNat = valid s.params a.toNat := rfl
  cases h : valid s.params a.toNat with
  | true => rw [loadBase_of_valid a s h, loadBase_of_valid a _ (hv.trans h)]; rfl
  | false => rw [loadBase_of_invalid a s h, loadBase_of_invalid a _ (hv.trans h)]; rfl

theorem ignoresReport_emitBeats (x : BitVec 8) (r : Ret) : IgnoresReport (emitBeats x r) := by
  intro s
  unfold emitBeats
  split <;> rfl

theorem ignoresReport_setIdx (l : Level) (n : Nat) : IgnoresReport (setIdx l n) := by intro s; cases l <;> rfl

/-- The AGG bits, and so what is folded into them, are blanked. -/
theorem withoutReport_foldAgg (l : Level) (r : Result) (s : State) :
    withoutReport (foldAgg l r s) = withoutReport s := by
  cases l <;> rfl

theorem withoutReport_clearAgg (l : Level) (s : State) : withoutReport (clearAgg l s) = withoutReport s := by
  cases l <;> rfl

/-- The two returns carry the same data and the same checksum. -/
def SameData (r w : Ret) : Prop := r.pages = w.pages ∧ r.crc = w.crc

theorem sameButReport_kept : Kept SameButReport SameButReport NeverApart where
  goesOn := .never _
  valid _ _ a h := h.read (fun s => valid s.params a) fun _ => rfl
  draws _ _ h := h.read State.draws fun _ => rfl
  erase _ _ a h := h.exchange _ fun _ _ h => h.map (f := erased a) fun _ => rfl
  write _ _ a d h _ := h.exchange _ fun _ _ h => h.map (f := written a d) fun _ => rfl
  read _ _ a h := h.exchange _ fun _ _ h => ⟨h.map (f := readInto a) fun _ => rfl, h.read (readAnswer a) fun _ => rfl⟩
  setStatus _ _ v h := h.map (f := setStatus v) fun _ => rfl
  loadPbuf _ _ d h := h.map (f := loadPbuf d) fun _ => rfl
  loadBase _ _ a h := h.map (ignoresReport_loadBase a)
  foldPbuf _ _ h _ := h.map (f := foldPbuf) fun _ => rfl
  emitBeats _ _ x r h := h.map (ignoresReport_emitBeats x r)
  draw _ _ n h := h.map (f := fun s => { s with draws := n }) fun _ => rfl

/-- Nothing but the result that a procedure returns, and the AGG bits it is folded into, depends on PROPAGATE_SUBFAIL,
so it is one relation for all of a command. -/
theorem sameButReport_commandRel : CommandRel (fun _ _ => SameButReport) SameData SameButReport NeverApart where
  kept _ _ := sameButReport_kept
  setCheckMode _ _ v h := h.map (f := setCheckMode v) fun _ => rfl
  dropAgg _ _ _ _ h := h
  dropAgg2 _ _ _ _ h := h
  ret _ := ⟨rfl, rfl⟩
  pages _ _ h := h.1
  clearAgg _ _ _ h := by simpa only [SameButReport, withoutReport_clearAgg] using h
  clearAgg2 _ _ _ h := by simpa only [SameButReport, withoutReport_clearAgg] using h
  setIdx _ _ _ _ l n h := h.map (ignoresReport_setIdx l n)
  foldAgg _ _ _ _ _ _ _ _ h := by simpa only [SameButReport, withoutReport_foldAgg] using h
  report _ _ _ _ _ := ⟨rfl, rfl⟩
  report2 _ _ _ _ _ := ⟨rfl, rfl⟩

/-- Two runs of a command's procedure under the two values of PROPAGATE_SUBFAIL. -/
theorem procOf_sameButReport (i : Instr) (s t : State) (h : SameButReport s t) :
    Both (fun r s w t => SameData r w ∧ SameButReport s t) SameButReport NeverApart (procOf i s) (procOf i t) := by
  by_cases hi : ∃ a, i = .getPageCrc16 a
  · obtain ⟨a, rfl⟩ := hi
    refine both_mono (getPageCrc16_both sameButReport_commandRel a s t h) ?_
    rintro r u w v ⟨⟨rfl, -⟩ | ⟨c, rfl, rfl⟩, h'⟩
    · exact ⟨⟨rfl, rfl⟩, h'⟩
    · exact ⟨⟨rfl, by rw [h'.read (fun s => s.params.crcSwap) fun _ => rfl]⟩, h'⟩
  · exact procOf_both sameButReport_commandRel i (fun a ha => hi ⟨a, ha⟩) s t h (h.read State.status fun _ => rfl)
      (h.read (fun s => s.params.startAddress) fun _ => rfl) (h.read (fun s => nFull s.params) fun _ => rfl)

/-- The response without its result. -/
def responseData (s : State) : Option (BitVec 16 × List Page) := s.rsp.map fun r => (r.crc, r.rdata)

/-- The two commands ended alike but for what PROPAGATE_SUBFAIL bears on, the result of the response included. -/
structure SameOutcome (s t : State) : Prop where
  state : SameButReport { s with rsp := none } { t with rsp := none }
  data : responseData s = responseData t

theorem SameOutcome.read {s t : State} (h : SameOutcome s t) {α : Type} (g : State → α)
    (hg : ∀ s, g s = g (withoutReport { s with rsp := none })) : g s = g t := by
  rw [hg s, h.state, ← hg t]

theorem finish_sameOutcome {f g : Flow Ret}
    (h : Both (fun r s w t => SameData r w ∧ SameButReport s t) SameButReport NeverApart f g) :
    SameOutcome (finish f) (finish g) := by
  cases f with
  | done r u =>
    cases g with
    | done w v =>
      obtain ⟨⟨hpages, hcrc⟩, h⟩ := h
      refine ⟨h.map (f := fun s => { respond r s with rsp := none }) fun _ => rfl, ?_⟩
      have hdraws : u.draws = v.draws := h.read State.draws fun _ => rfl
      simp [responseData, finish, hpages, hcrc, hdraws]
    | waiting v => exact h.elim
  | waiting u =>
    cases g with
    | done w v => exact h.elim
    | waiting v =>
      exact ⟨h.map (f := fun s => { s with rsp := none }) fun _ => rfl, h.read responseData fun _ => rfl⟩

/-! ### A command that fails although failures are not propagated (R70, R71) -/

/-- Where the procedure fails, it has added nothing to the trace that `s` has. -/
def FailsWithoutEvents (s : State) (f : Flow Ret) : Prop :=
  Ends (fun r t => r.result = .fail → t.log = s.log) (fun _ => True) f

theorem failWith_failsWithoutEvents (n : Nat) (s : State) : FailsWithoutEvents s (failWith n s) := fun _ => rfl

/-- The common shape of the procedures that validate first: where they get past it, and to their end, they return Ok. -/
theorem validated_failsWithoutEvents {α : Type} (c : Prop) [Decidable c] (n : Nat) (s : State) {f : Flow α}
    {ret : α → State → Ret} {P : α → State → Prop} {Q : State → Prop} (hf : Ends P Q f)
    (hok : ∀ v t, P v t → (ret v t).result = .ok) :
    FailsWithoutEvents s (if c then andThen f fun v t => .done (ret v t) (setStatus .free t) else failWith n s) := by
  split
  · refine ends_andThen (ends_mono hf (fun _ _ => id) fun _ _ => trivial) fun v t ht hfail => ?_
    rw [hok v t ht] at hfail
    cases hfail
  · exact failWith_failsWithoutEvents n s

theorem erasePage_failsWithoutEvents (a : Nat) (s : State) : FailsWithoutEvents s (erasePage a s) :=
  validated_failsWithoutEvents _ 0 s (ends_true _) fun _ _ _ => rfl

theorem writePage_failsWithoutEvents (a : Nat) (d : Page) (s : State) : FailsWithoutEvents s (writePage a d s) :=
  validated_failsWithoutEvents _ 0 s (ends_true _) fun _ _ _ => rfl

theorem getPage_failsWithoutEvents (a : Nat) (s : State) : FailsWithoutEvents s (getPage a s) :=
  validated_failsWithoutEvents _ 1 s (ends_true _) fun _ _ _ => rfl

theorem eraseFull_failsWithoutEvents (s : State) : FailsWithoutEvents s (eraseFull s) :=
  validated_failsWithoutEvents _ 0 s (ends_true _) fun _ _ _ => rfl

theorem getPageBeat_failsWithoutEvents (j i a : Nat) (s : State) : FailsWithoutEvents s (getPageBeat j i a s) :=
  ends_andThen (getPage_failsWithoutEvents a s) fun r t ht => by
    rw [ends_done, emitBeats_log]
    exact ht

theorem getPageCrc16_failsWithoutEvents (a : Nat) (s : State) : FailsWithoutEvents s (getPageCrc16 a s) := by
  refine ends_andThen (getPage_failsWithoutEvents a s) fun r t ht => ?_
  split
  · next hr => exact fun _ => ht hr
  · exact nofun

/-- Where failures are not propagated, a compound procedure past its validation reports Ok, whatever its sub-operations
did (R70). -/
theorem compound_failsWithoutEvents (l : Level) (v : Status) (lost a : Nat) (body : Nat → State → Flow Ret) (s : State)
    (hs : s.params.propagateSubfail = false)
    (hbody : ∀ k t, SameConfiguration s t → Ends (fun _ => SameConfiguration s) (Hung (SameConfiguration s)) (body k t)) :
    FailsWithoutEvents s (compound l v lost a body s) := by
  have h0 : SameConfiguration s (clearAgg l (setStatus v s)) := by simp [SameConfiguration]
  refine validated_failsWithoutEvents _ lost s (subOps_stable (sameConfiguration_stable s) l body hbody 16 0 [] _ h0)
    fun ps t ht => ?_
  rw [report, ht.1, hs]
  rfl

/-- Where failures are not propagated, every command's procedure that fails has done nothing. -/
theorem procOf_failsWithoutEvents (i : Instr) (s : State) (hs : s.params.propagateSubfail = false) :
    FailsWithoutEvents s (procOf i s) := by
  have hbase (a : Addr) {f : Flow Ret} (h : FailsWithoutEvents (loadBase a s) f) : FailsWithoutEvents s f := by
    simpa [FailsWithoutEvents] using h
  have hL (a : Addr) : (loadBase a s).params.propagateSubfail = false := by simpa using hs
  have hc (t : State) := sameConfiguration_stable t
  cases i with
  | erasePage a => exact hbase a (erasePage_failsWithoutEvents _ _)
  | eraseSector a =>
    exact hbase a (compound_failsWithoutEvents _ _ _ _ _ _ (hL a) fun _ t ht => erasePage_stable (hc _) _ t ht)
  | eraseBlock a =>
    exact hbase a (compound_failsWithoutEvents _ _ _ _ _ _ (hL a) fun _ t ht => erasePage_stable (hc _) _ t ht)
  | eraseFull _ => exact eraseFull_failsWithoutEvents s
  | writePage a d => exact hbase a (writePage_failsWithoutEvents _ d _)
  | writeSector a d =>
    exact hbase a (compound_failsWithoutEvents _ _ _ _ _ _ (hL a) fun _ t ht => writePage_stable (hc _) _ _ t ht)
  | writeBlock a d =>
    exact hbase a (compound_failsWithoutEvents _ _ _ _ _ _ (hL a) fun _ t ht => writeSector_stable (hc _) _ _ t ht)
  | getPage a => exact hbase a (getPageBeat_failsWithoutEvents _ _ _ _)
  | getSector a =>
    exact hbase a (compound_failsWithoutEvents _ _ _ _ _ _ (hL a) fun _ t ht => getPageBeat_stable (hc _) _ _ _ t ht)
  | getBlock a =>
    exact hbase a (compound_failsWithoutEvents _ _ _ _ _ _ (hL a) fun _ t ht => getSector_stable (hc _) _ _ t ht)
  | getPageCrc16 a => exact hbase a (getPageCrc16_failsWithoutEvents _ _)
  | enableCheckMode _ => exact nofun
  | disableCheckMode _ => exact nofun
  | reserved0 _ => exact failWith_failsWithoutEvents 0 s
  | reservedE _ => exact failWith_failsWithoutEvents 0 s
  | reservedF _ => exact failWith_failsWithoutEvents 0 s

/-- A command whose backend does not answer has no response (R136). -/
theorem waiting_rsp {i : Instr} {s u : State} (h : procOf i (accept i.opcode s) = .waiting u) : u.rsp = none := by
  have hin := procOf_stable (inCommand_stable i.opcode s.pending) i (.inl rfl) (accept i.opcode s) ⟨rfl, rfl, rfl⟩
  rw [h] at hin
  obtain ⟨u, q, hu, rfl, -, -⟩ := hin
  exact hu.rsp

/-- With PROPAGATE_SUBFAIL false a response Fail comes with an empty trace only. -/
theorem exec_trace_of_fail {i : Instr} {s t : State} {r : Response} (he : exec i s = .next t)
    (hs : s.params.propagateSubfail = false) (hr : t.rsp = some r) (hfail : r.result = .fail) : t.trace = [] := by
  obtain ⟨-, -, rfl⟩ := exec_next_inv i s t he
  have h := procOf_failsWithoutEvents i (accept i.opcode s) hs
  cases hf : procOf i (accept i.opcode s) with
  | done w u =>
    rw [hf] at h hr
    cases hr
    have hlog : u.log = [] := h hfail
    rw [finish, State.trace, respond_log, hlog, List.reverse_nil]
  | waiting u =>
    rw [hf] at hr
    cases (waiting_rsp hf).symm.trans hr

/-- Settles O51: the two runs end alike but for the result of the response, and where the parameter is false only a
command that has done nothing fails. -/
theorem propagateSubfailChangesOnlyTheResult : Obligations.PropagateSubfailChangesOnlyTheResult := by
  intro i s t b he
  obtain ⟨hi, hp, rfl⟩ := exec_next_inv i s t he
  have hu := exec_next i { s with params := { s.params with propagateSubfail := b } } hi hp
  have hsame := finish_sameOutcome (procOf_sameButReport i
    (accept i.opcode { s with params := { s.params with propagateSubfail := b } }) (accept i.opcode s) rfl)
  have htrace := hsame.read State.trace fun _ => rfl
  refine ⟨_, hu, htrace, hsame.read State.rd fun _ => rfl, hsame.read State.flash fun _ => rfl,
    hsame.read State.status fun _ => rfl, hsame.read State.checkMode fun _ => rfl,
    hsame.read State.curOp fun _ => rfl, hsame.read State.pending fun _ => rfl, hsame.data, ?_⟩
  intro hb r hr hfail
  rw [← htrace]
  exact exec_trace_of_fail hu hb hr hfail

end Sys2Proof.Machine
/-! PROOFS. The erase commands (41_erase.md). Each obligation is the spec lemma of its procedure, read at the state in
which the command is accepted; the response then touches neither STATUS nor the flash. -/

namespace Sys2Proof.Machine

open Sys2Proof

/-! ### Frames -/

/-- The frame of a command with an address: what its procedure may change, and BASE (R19). -/
theorem frame_of_loadBase {op : Opcode} {addr : Addr} {s u : State} {ws vs : List Reg}
    (h : UnchangedBut ws (loadBase addr (accept op s)) u) (hb : Reg.base ∈ vs) (hs : ∀ r ∈ ws, r ∈ vs) :
    UnchangedBut vs (accept op s) u :=
  ((loadBase_frame addr _).mono (by simpa using hb)).trans (h.mono hs)

/-- A STATUS that ends as it began need not be named in a frame. -/
theorem UnchangedBut.of_status_eq {ws : List Reg} {s t : State} (h : UnchangedBut (.status :: ws) s t)
    (hs : t.status = s.status) : UnchangedBut ws s t := by
  have key {r : Reg} (hr : r ≠ .status) (hw : r ∉ ws) : r ∉ Reg.status :: ws := List.not_mem_cons_of_ne_of_not_mem hr hw
  exact { h with
    status := fun _ => hs
    checkMode := fun hw => h.checkMode (key (by decide) hw)
    pbuf := fun hw => h.pbuf (key (by decide) hw)
    crcHi := fun hw => h.crcHi (key (by decide) hw)
    crcLo := fun hw => h.crcLo (key (by decide) hw)
    agg := fun hw => h.agg (key (by decide) hw)
    agg2 := fun hw => h.agg2 (key (by decide) hw)
    base := fun hw => h.base (key (by decide) hw)
    idxJ := fun hw => h.idxJ (key (by decide) hw)
    idxI := fun hw => h.idxI (key (by decide) hw)
    idxK := fun hw => h.idxK (key (by decide) hw)
    flash := fun hw => h.flash (key (by decide) hw) }

/-! ### ERASE_PAGE (R80) -/

/-- `erase_page` past validation: Ok, its trace, STATUS Free, and one page erased. -/
theorem erasePage_of_valid (a : Nat) (s : State) (hr : s.answersLeft = none) (hv : valid s.params a = true) :
    ∃ u, erasePage a s = .done { result := .ok } u ∧
      u.log = [.statusWrite .free, .leafErase a, .statusWrite .erasingPage] ++ s.log ∧ u.status = Status.free.code ∧
      UnchangedBut [.status, .flash] s u ∧ (s.backend = .reference → u.flash = s.flash.erasePage a) := by
  obtain ⟨u, he, hl, -, hu, -, hf⟩ := erasePage_spec a s hr
  have hst := erasePage_status a s
  simp only [pageResult, pageEvents, statusAfter, hv, if_true] at he hl hst hf
  rw [he] at hst
  exact ⟨u, he, hl, hst, hu, hf⟩

/-- Settles O25: past validation `erase_page` erases its one page and writes Free last. -/
theorem erasePageErasesItsPage : Obligations.ErasePageErasesItsPage := by
  intro addr s ⟨hp, hr⟩ hv
  obtain ⟨u, hproc, hl, hst, hu, hf⟩ := erasePage_of_valid addr.toNat (loadBase addr (accept 0x1 s)) (by simpa using hr)
    (by simpa using hv)
  obtain ⟨he, ha, hus⟩ := exec_answers (.erasePage addr) s u _
    [.statusWrite .erasingPage, .leafErase addr.toNat, .statusWrite .free] [.status, .base, .flash] rfl hp hproc
    (by simpa using hl) (frame_of_loadBase hu (by simp) (by simp))
  refine ⟨_, he, ha, hst, hus, fun ⟨hb, hwf⟩ => ?_⟩
  have hflash : u.flash = s.flash.erasePage addr.toNat := by simpa [hb] using hf
  rw [respond_flash, hflash]
  exact ⟨erasePage_wf _ hwf _, erasePage_read _ hwf _⟩

/-! ### ERASE_SECTOR and ERASE_BLOCK (R81, R82) -/

/-- A command that runs 16 page erases at stride `m` from a valid address. -/
theorem exec_eraseRun {i : Instr} {addr : Addr} {v : Status} {m : Nat} {s : State} (hm : m = 256 ∨ m = 4096)
    (hi : i.wf = true) (hs : Ready s) (hv : valid s.params addr.toNat = true)
    (hproc : ∀ t, procOf i t =
      compound .sector v 0 addr.toNat (fun k => erasePage (addr.toNat + m * k)) (loadBase addr t)) :
    ∃ t, exec i s = .next t ∧
      Answered t (compoundResult s.params (allValid s.params addr.toNat m)) [] (eraseEvents s.params v addr.toNat m) ∧
      t.status = Status.free.code ∧ UnchangedBut [.status, .agg, .base, .idxI, .flash] s t ∧
      (OnReference s → t.flash.wf ∧ ∀ x, t.flash.read x =
        if addr.toNat ≤ x ∧ x < addr.toNat + m * 16 ∧ (x - addr.toNat) % m < 256 ∧
            valid s.params (addr.toNat + m * ((x - addr.toNat) / m)) = true
        then 0xFF else s.flash.read x) := by
  obtain ⟨hp, hr⟩ := hs
  obtain ⟨u, hrun, hl, -, hst, hu, -, hf⟩ := eraseRun_spec v addr.toNat m hm (loadBase addr (accept i.opcode s))
    (by simpa using hr) (by simpa using hv)
  simp only [OnReference, loadBase_params, accept_params, loadBase_log, accept_log, List.append_nil, loadBase_backend,
    accept_backend, loadBase_flash, accept_flash] at hrun hl hf
  obtain ⟨he, ha, hus⟩ := exec_answers i s u _ _ [.status, .agg, .base, .idxI, .flash] hi hp ((hproc _).trans hrun) hl
    (frame_of_loadBase hu (by simp) (by simp))
  exact ⟨_, he, ha, hst, hus, hf⟩

/-- Settles O26: the 16 pages at stride 256 lie side by side, so every byte of the sector is in one of them. -/
theorem eraseSectorErasesItsValidPages : Obligations.EraseSectorErasesItsValidPages := by
  intro addr s hs hv
  obtain ⟨t, he, ha, hst, hu, hf⟩ := exec_eraseRun (i := .eraseSector addr) (.inl rfl) rfl hs hv fun _ => rfl
  refine ⟨t, he, ha, hst, hu, fun ho => ⟨(hf ho).1, fun x => ((hf ho).2 x).trans (if_congr ?_ rfl rfl)⟩⟩
  have hmod : (x - addr.toNat) % 256 < 256 := Nat.mod_lt _ (by decide)
  simp only [hmod, true_and]

/-- Settles O27: page erases at stride 4096. -/
theorem eraseBlockErasesOnePageInSixteen : Obligations.EraseBlockErasesOnePageInSixteen := fun addr _ hs hv =>
  exec_eraseRun (i := .eraseBlock addr) (.inr rfl) rfl hs hv fun _ => rfl

/-! ### ERASE_FULL (R83) -/

/-- The pages of ERASE_FULL cover the window up to its last byte (R84). -/
theorem lt_of_le_endAddress {p : Params} {y : Nat} (h : y ≤ p.endAddress.toNat) :
    y < p.startAddress.toNat + 256 * nFull p := by
  simp only [nFull, pageSize]
  omega

/-- Settles O28: from Free all `N_FULL` page erases take place, and STATUS is Free again at the end. -/
theorem eraseFullErasesTheWindow : Obligations.EraseFullErasesTheWindow := by
  intro x s ⟨hp, hr⟩ hfree
  obtain ⟨u, hproc, hl, -, hst, hu, -, hf⟩ := eraseFull_free (accept 0x4 s) hp hr hfree
  rw [accept_log, List.append_nil] at hl
  obtain ⟨he, ha, hus⟩ := exec_answers (.eraseFull x) s u _ _ [.idxK, .flash] rfl hp hproc hl
    (hu.of_status_eq (hst.trans hfree.symm))
  refine ⟨_, he, ha, hst, hus, fun ho => ?_⟩
  obtain ⟨hwf, hread⟩ := hf ho
  exact ⟨hwf, hread, fun y hlo hhi => (hread y).trans (if_pos ⟨hlo, lt_of_le_endAddress hhi⟩)⟩

/-- `erase_full` fails at once unless STATUS is Free (R83). -/
theorem eraseFull_not_free {s : State} (h : s.status ≠ Status.free.code) : eraseFull s = .done { result := .fail } s := by
  rw [eraseFull, if_neg h, failWith_zero]

/-- Settles O23: the procedure fails in the state at acceptance, where trace and RD beats are empty. -/
theorem eraseFullFailsUnlessFree : Obligations.EraseFullFailsUnlessFree := by
  intro x s hp hst
  obtain ⟨he, ha, hu⟩ := exec_answers (.eraseFull x) s (accept 0x4 s) { result := .fail } [] [] rfl hp
    (eraseFull_not_free hst) rfl (.refl _ _)
  exact ⟨_, he, ha, rfl, hu⟩

end Sys2Proof.Machine
/-! PROOFS. The write commands (42_write.md). Each obligation is the spec lemma of its procedure, read at the state in
which the command is accepted and BASE is loaded. -/

namespace Sys2Proof.Machine

open Sys2Proof

/-! ### From the state that an addressed command's procedure is entered in -/

/-- Acceptance and the load of BASE touch neither the backend nor the flash. -/
theorem onReference_loadBase_accept (addr : Addr) (op : Opcode) (s : State) :
    OnReference (loadBase addr (accept op s)) ↔ OnReference s := by
  simp only [OnReference, loadBase_backend, accept_backend, loadBase_flash, accept_flash]

/-- An addressed command answers with what its procedure, entered with BASE loaded and an empty trace, returned; it may
change what the procedure may, and BASE (R19). -/
theorem exec_answers_addressed {i : Instr} {addr : Addr} {s u : State} {r : Ret} {tr : List Event} {ws : List Reg}
    (vs : List Reg) (hi : i.wf = true) (hp : s.params.wf = true) (h : procOf i (accept i.opcode s) = .done r u)
    (hl : u.log = tr.reverse ++ (loadBase addr (accept i.opcode s)).log)
    (hu : UnchangedBut ws (loadBase addr (accept i.opcode s)) u) (hb : Reg.base ∈ vs) (hs : ∀ r ∈ ws, r ∈ vs) :
    exec i s = .next (respond r u) ∧ Answered (respond r u) r.result r.pages tr ∧ UnchangedBut vs s (respond r u) := by
  rw [loadBase_log, accept_log, List.append_nil] at hl
  exact exec_answers i s u r tr vs hi hp h hl (frame_of_loadBase hu hb hs)

/-! ### WRITE_PAGE (R85) -/

/-- `write_page` past validation: Ok, its trace, STATUS Free, the data in PBUF, and one page written. -/
theorem writePage_of_valid (a : Nat) (d : Page) (s : State) (hr : s.answersLeft = none)
    (hv : valid s.params a = true) :
    ∃ u, writePage a d s = .done { result := .ok } u ∧
      u.log = [.statusWrite .writingPage, .leafWrite a d, .statusWrite .free].reverse ++ s.log ∧
      u.status = Status.free.code ∧ u.pbuf = d ∧ UnchangedBut [.status, .pbuf, .flash] s u ∧
      (s.backend = .reference → u.flash = s.flash.writePage a d) := by
  obtain ⟨u, he, hl, -, hu, -, hf⟩ := writePage_spec a d s hr
  have hstate := (writePage_valid a d s hv hr).symm.trans he
  simp only [pageResult, pageEvents, hv, if_true] at he hl hf
  injection hstate with _ hu'
  exact ⟨u, he, hl, hu' ▸ rfl, hu' ▸ rfl, hu, hf⟩

/-- Settles O29: past validation `write_page` loads PBUF, writes its one page and writes Free last. -/
theorem writePageAndsIntoItsPage : Obligations.WritePageAndsIntoItsPage := by
  intro addr d s ⟨hp, hr⟩ hv
  obtain ⟨u, hproc, hl, hst, hpbuf, hu, hf⟩ := writePage_of_valid addr.toNat d (loadBase addr (accept 0x5 s))
    (by simpa using hr) (by simpa using hv)
  obtain ⟨he, ha, hus⟩ := exec_answers_addressed (i := .writePage addr d) [.status, .pbuf, .base, .flash] rfl hp hproc
    hl hu (by simp) (by simp)
  refine ⟨_, he, ha, hst, hpbuf, hus, fun ⟨hb, hwf⟩ => ?_⟩
  have hflash : u.flash = s.flash.writePage addr.toNat d := by simpa [hb] using hf
  rw [respond_flash, hflash]
  exact ⟨writePage_wf _ hwf _ _, writePage_read _ hwf _ _⟩

/-! ### WRITE_SECTOR and WRITE_BLOCK (R86, R87) -/

/-- Settles O30: 16 page writes at stride 256, those past the window skipped and reported. -/
theorem writeSectorAndsItsValidChunks : Obligations.WriteSectorAndsItsValidChunks := by
  intro addr d s ⟨hp, hr⟩ hd hv
  obtain ⟨u, hproc, hl, -, hst, hu, -, hf⟩ := writeSector_valid addr.toNat d (loadBase addr (accept 0x6 s))
    (by simpa using hr) (by simpa using hv)
  simp only [onReference_loadBase_accept, loadBase_params, accept_params, loadBase_flash, accept_flash] at hproc hl hf
  obtain ⟨he, ha, hus⟩ := exec_answers_addressed (i := .writeSector addr d) [.status, .pbuf, .agg, .base, .idxI, .flash]
    (beq_iff_eq.2 hd) hp hproc hl hu (by simp) (by simp)
  exact ⟨_, he, ha, hst, hus, hf⟩

/-- Settles O31: 16 sector writes at stride 4096, of which those at a valid start run their own page writes. -/
theorem writeBlockAndsItsValidChunks : Obligations.WriteBlockAndsItsValidChunks := by
  intro addr d s ⟨hp, hr⟩ hd hv
  obtain ⟨u, hproc, hl, -, hst, hu, -, hf⟩ := writeBlock_valid addr.toNat d (loadBase addr (accept 0x7 s))
    (by simpa using hr) (by simpa using hv)
  simp only [onReference_loadBase_accept, loadBase_params, accept_params, loadBase_flash, accept_flash] at hproc hl hf
  obtain ⟨he, ha, hus⟩ := exec_answers_addressed (i := .writeBlock addr d)
    [.status, .pbuf, .agg, .agg2, .base, .idxI, .idxJ, .flash] (beq_iff_eq.2 hd) hp hproc hl hu (by simp) (by simp)
  exact ⟨_, he, ha, hst, hus, hf⟩

end Sys2Proof.Machine
/-! PROOFS. The read commands (43_read.md). The three read obligations are the spec lemma of their procedure, read at the
state in which the command is accepted and BASE is loaded; the round trip of R92 is then put together from the
obligations of GET_BLOCK and WRITE_BLOCK. -/

namespace Sys2Proof.Machine

open Sys2Proof

/-! ### GET_PAGE (R89) -/

/-- `get_page` past validation, as a read command runs it: Ok, its trace, its one RD beat, STATUS Free, and the answer
in PBUF. -/
theorem getPageBeat_of_valid (j i a : Nat) (s : State) (hr : s.answersLeft = none) (hv : valid s.params a = true) :
    ∃ d u, getPageBeat j i a s = .done { result := .ok, pages := [d] } u ∧
      u.log = [.statusWrite .readingPage, .leafRead a d, .statusWrite .free].reverse ++ s.log ∧
      u.rd = [⟨rdIndex j i, d⟩] ++ s.rd ∧ u.status = Status.free.code ∧ u.pbuf = d ∧
      UnchangedBut [.status, .pbuf] s u ∧ (s.backend = .reference → d = s.flash.page a) := by
  obtain ⟨d, u, he, hl, hrd, hu, -, hpbuf, hd⟩ := getPageBeat_spec j i a s hr
  have hst := getPageBeat_status j i a s
  rw [he] at hst
  simp only [pageResult, pageEvents, statusAfter, hv, if_true] at he hl hrd hst
  exact ⟨d, u, he, hl, hrd, hst, hpbuf hv, hu, hd hv⟩

/-- Settles O32: past validation `get_page` keeps the leaf read's answer in PBUF, sends it and returns it. -/
theorem getPageReturnsTheBackendsAnswer : Obligations.GetPageReturnsTheBackendsAnswer := by
  intro addr s ⟨hp, hr⟩ hv
  obtain ⟨d, u, hproc, hl, hrd, hst, hpbuf, hu, hd⟩ := getPageBeat_of_valid 0 0 addr.toNat
    (loadBase addr (accept 0x8 s)) (by simpa using hr) (by simpa using hv)
  obtain ⟨he, ha, hus⟩ := exec_answers_addressed (i := .getPage addr) [.status, .pbuf, .base] rfl hp hproc hl hu
    (by simp) (by simp)
  refine ⟨_, d, he, ha, hst, hpbuf, by simpa [rdIndex] using hrd, hus, fun ⟨hb, hwf⟩ k hk => ?_⟩
  have hpage : d = s.flash.page addr.toNat := by simpa [hb] using hd
  rw [hpage, page_byte s.flash hwf _ k hk]

/-! ### GET_SECTOR and GET_BLOCK (R90, R91) -/

/-- Byte `n` of a buffer whose page `n / 256` is the flash's page at that offset. -/
theorem bufferByte_of_page {m : Memory} (hm : m.wf) (d : List Page) (a n : Nat)
    (h : d.getD (n / 256) 0 = m.page (a + 256 * (n / 256))) : bufferByte d n = m.read (a + n) := by
  rw [bufferByte, h, page_byte m hm _ _ (Nat.mod_lt n (by decide)), Nat.add_assoc, Nat.div_add_mod]

/-- The RD beats of a sector read on its own are numbered by page. -/
theorem sectorBeats_zero (p : Params) (a : Nat) (pages : List Page) :
    sectorBeats p 0 a pages = (List.range 16).filterMap fun i =>
      if valid p (a + 256 * i) then some ⟨BitVec.ofNat 8 i, pages.getD i 0⟩ else none := by
  simp only [sectorBeats, rdIndex, Nat.mul_zero, Nat.zero_add]

/-- Settles O33: 16 page reads at stride 256, those past the window skipped and reported. -/
theorem getSectorReturnsItsValidPages : Obligations.GetSectorReturnsItsValidPages := by
  intro addr s ⟨hp, hr⟩ hv
  obtain ⟨pages, u, hproc, hlen, hl, hrd, hst, hu, -, hf⟩ := getSector_valid 0 addr.toNat (loadBase addr (accept 0x9 s))
    (by simpa using hr) (by simpa using hv)
  simp only [loadBase_params, accept_params, loadBase_backend, accept_backend, loadBase_flash, accept_flash,
    sectorBeats_zero, loadBase_rd, accept_rd, List.append_nil] at hproc hl hrd hf
  obtain ⟨he, ha, hus⟩ := exec_answers_addressed (i := .getSector addr) [.status, .pbuf, .agg, .base, .idxI] rfl hp hproc
    hl hu (by simp) (by simp)
  refine ⟨_, pages, he, hlen, ha, hst, List.reverse_eq_iff.2 hrd, hus, fun ⟨hb, hwf⟩ n hn hvn => ?_⟩
  exact bufferByte_of_page hwf pages _ n (hf hb (n / 256) (by omega) hvn)

/-- Settles O34: 16 sector reads at stride 4096, of which those at a valid start run their own page reads. -/
theorem getBlockReturnsItsValidPages : Obligations.GetBlockReturnsItsValidPages := by
  intro addr s ⟨hp, hr⟩ hv
  obtain ⟨pages, u, hproc, hlen, hl, hrd, hst, hu, -, hf⟩ := getBlock_valid addr.toNat (loadBase addr (accept 0xA s))
    (by simpa using hr) (by simpa using hv)
  simp only [loadBase_params, accept_params, loadBase_backend, accept_backend, loadBase_flash, accept_flash, loadBase_rd,
    accept_rd, List.append_nil] at hproc hl hrd hf
  obtain ⟨he, ha, hus⟩ := exec_answers_addressed (i := .getBlock addr)
    [.status, .pbuf, .agg, .agg2, .base, .idxI, .idxJ] rfl hp hproc hl hu (by simp) (by simp)
  refine ⟨_, pages, he, hlen, ha, hst, List.reverse_eq_iff.2 hrd, hus, fun ⟨hb, hwf⟩ n hn hrun => ?_⟩
  obtain ⟨hvj, hvi⟩ := Bool.and_eq_true_iff.1 hrun
  have hpage : 16 * (n / 4096) + n / 256 % 16 = n / 256 := by omega
  have haddr : addr.toNat + 4096 * (n / 4096) + 256 * (n / 256 % 16) = addr.toNat + 256 * (n / 256) := by omega
  have hread := hf hb (n / 4096) (by omega) (n / 256 % 16) (by omega) hvj (haddr ▸ hvi)
  rw [hpage, haddr] at hread
  exact bufferByte_of_page hwf pages _ n hread

/-! ### The round trip (R92) -/

theorem pageRuns_of_blockValid {p : Params} {a n : Nat} (h : blockValid p a = true) (hn : n < 65536) :
    pageRuns p a n = true := by
  have hpage : ∀ j < 16, ∀ i < 16, valid p (a + 4096 * j + 256 * i) = true := by
    simpa [blockValid, allValid] using h
  have hj := hpage (n / 4096) (by omega) 0 (by decide)
  have hi := hpage (n / 4096) (by omega) (n / 256 % 16) (by omega)
  have haddr : a + 4096 * (n / 4096) + 256 * (n / 256 % 16) = a + 256 * (n / 256) := by omega
  exact Bool.and_eq_true_iff.2 ⟨hj, haddr ▸ hi⟩

theorem valid_of_blockValid {p : Params} {a : Nat} (h : blockValid p a = true) : valid p a = true :=
  (Bool.and_eq_true_iff.1 (pageRuns_of_blockValid (n := 0) h (by decide))).1

theorem compoundResult_true (p : Params) : compoundResult p true = .ok := by
  simp [compoundResult]

/-- An address that no cell lists reads as `fill`. -/
theorem read_of_notMem (m : Memory) (x : Nat) (h : x ∉ m.cells.map Prod.fst) : m.read x = m.fill := by
  have hnone : m.cells.lookup x = none := List.lookup_eq_none_iff.2 fun c hc =>
    bne_iff_ne.2 fun hx => h (List.mem_map.2 ⟨c, hc, hx.symm⟩)
  rw [Memory.read, hnone, Option.getD_none]

/-- Canonical memories that read alike everywhere have the same fill byte too, since each lists finitely many cells. -/
theorem memory_ext_read {m k : Memory} (hm : m.wf) (hk : k.wf) (h : ∀ x, m.read x = k.read x) : m = k := by
  obtain ⟨x, hx⟩ := Infinite.exists_notMem_finset (m.cells.map Prod.fst ++ k.cells.map Prod.fst).toFinset
  simp only [List.mem_toFinset, List.mem_append, not_or] at hx
  refine memory_ext m k ?_ hm hk h
  rw [← read_of_notMem m x hx.1, h, read_of_notMem k x hx.2]

/-- A block buffer is determined by its bytes. -/
theorem blockBuffer_ext {d e : List Page} (hd : d.length = 256) (he : e.length = 256)
    (h : ∀ n < 65536, bufferByte d n = bufferByte e n) : d = e := by
  refine List.ext_getElem (hd.trans he.symm) fun q hq hq' => page_ext _ _ fun k hk => ?_
  have hb := h (256 * q + k) (by omega)
  rwa [bufferByte_eq d q _ (by omega) (by omega), bufferByte_eq e q _ (by omega) (by omega), Nat.add_sub_cancel_left,
    List.getD_eq_getElem _ _ hq, List.getD_eq_getElem _ _ hq'] at hb

/-- The premises of R92, which each of the three commands hands on to the next: a backend that answers, the reference
flash, and a block all of whose page starts are valid. -/
structure RoundTrip (addr : Addr) (s : State) : Prop where
  ready : Ready s
  onReference : OnReference s
  block_valid : blockValid s.params addr.toNat = true

theorem RoundTrip.of_unchanged {addr : Addr} {ws : List Reg} {s t : State} (h : RoundTrip addr s)
    (hu : UnchangedBut ws s t) (hf : t.flash = s.flash) : RoundTrip addr t where
  ready := ⟨hu.params ▸ h.ready.1, hu.answersLeft.trans h.ready.2⟩
  onReference := ⟨hu.backend.trans h.onReference.1, hf ▸ h.onReference.2⟩
  block_valid := hu.params ▸ h.block_valid

/-- GET_BLOCK where every page start is valid: Ok, with the 65536 bytes of the block, and the flash as it was. -/
theorem exec_getBlock_of_roundTrip {addr : Addr} {s : State} (h : RoundTrip addr s) :
    ∃ t d, exec (.getBlock addr) s = .next t ∧ d.length = 256 ∧ (∃ tr, Answered t .ok d tr) ∧ t.flash = s.flash ∧
      RoundTrip addr t ∧ ∀ n < 65536, bufferByte d n = s.flash.read (addr.toNat + n) := by
  obtain ⟨t, d, he, hlen, ha, -, -, hu, hd⟩ :=
    getBlockReturnsItsValidPages addr s h.ready (valid_of_blockValid h.block_valid)
  rw [h.block_valid, compoundResult_true] at ha
  have hf : t.flash = s.flash := hu.flash (by simp)
  exact ⟨t, d, he, hlen, ⟨_, ha⟩, hf, h.of_unchanged hu hf,
    fun n hn => hd h.onReference n hn (pageRuns_of_blockValid h.block_valid hn)⟩

/-- WRITE_BLOCK of the bytes that the flash already holds there: Ok, and the flash as it was, since `x & x = x`. -/
theorem exec_writeBlock_of_roundTrip {addr : Addr} {d : List Page} {s : State} (h : RoundTrip addr s)
    (hlen : d.length = 256) (hd : ∀ n < 65536, bufferByte d n = s.flash.read (addr.toNat + n)) :
    ∃ t, exec (.writeBlock addr d) s = .next t ∧ (∃ tr, Answered t .ok [] tr) ∧ t.flash = s.flash ∧
      RoundTrip addr t := by
  obtain ⟨t, he, ha, -, hu, hf⟩ :=
    writeBlockAndsItsValidChunks addr d s h.ready hlen (valid_of_blockValid h.block_valid)
  rw [h.block_valid, compoundResult_true] at ha
  obtain ⟨hwf, hread⟩ := hf h.onReference
  have hsame : t.flash = s.flash := memory_ext_read hwf h.onReference.2 fun x => by
    rw [hread x]
    split
    · next hx =>
      obtain ⟨hlo, hhi, -⟩ := hx
      rw [hd _ (by omega), Nat.add_sub_cancel' hlo, BitVec.and_self]
    · rfl
  exact ⟨t, he, ⟨_, ha⟩, hsame, h.of_unchanged hu hsame⟩

/-- Settles O35: the bytes written are those present, so the flash stays, and both reads return its bytes. -/
theorem blockRoundTripIsIdempotent : Obligations.BlockRoundTripIsIdempotent := by
  intro addr s hs ho hv
  obtain ⟨t, d, het, hlen, hat, hft, ht, hd⟩ := exec_getBlock_of_roundTrip (addr := addr) ⟨hs, ho, hv⟩
  obtain ⟨u, heu, hau, hfu, hu⟩ := exec_writeBlock_of_roundTrip ht hlen (hft ▸ hd)
  have hus : u.flash = s.flash := hfu.trans hft
  obtain ⟨v, e, hev, hlen', hav, -, -, he⟩ := exec_getBlock_of_roundTrip hu
  have hde : e = d := blockBuffer_ext hlen' hlen fun n hn => by rw [he n hn, hd n hn, hus]
  exact ⟨t, u, v, d, het, hat, heu, hau, hus, hev, hde ▸ hav⟩

end Sys2Proof.Machine
/-! PROOFS. The CRC-16 engine and the checksum command (44_checksum_crc16.md). The bit-serial step is linear over GF(2)
and injective; the table-driven fold is its eight-bit form (R98), so both facts carry over to `crc16` (R101). The two
statements about commands are the spec lemma of `get_page_crc16` (R93) and two runs side by side (R99). -/

namespace Sys2Proof.Machine

open Sys2Proof

/-! ### Words of two bytes

The library's facts about `++`, at width 16: there `8 + 8`, the width of an append, is written `16`. -/

theorem word_getLsbD (x y : Byte) (i : Nat) :
    BitVec.getLsbD (w := 16) (x ++ y) i = if i < 8 then y.getLsbD i else x.getLsbD (i - 8) :=
  BitVec.getLsbD_append

theorem word_xor (x y u v : Byte) : (x ++ u : BitVec 16) ^^^ (y ++ v : BitVec 16) = (x ^^^ y) ++ (u ^^^ v) :=
  BitVec.xor_append

theorem setWidth_eq_word (x : Byte) : x.setWidth 16 = 0#8 ++ x := BitVec.setWidth_eq_append (by decide)

theorem word_of_bytes (c : BitVec 16) : c.extractLsb' 8 8 ++ c.extractLsb' 0 8 = c := by
  refine BitVec.eq_of_getLsbD_eq fun i hi => ?_
  rw [word_getLsbD, BitVec.getLsbD_extractLsb', BitVec.getLsbD_extractLsb']
  split
  · next h => rw [decide_eq_true h, Bool.true_and, Nat.zero_add]
  · next h => rw [decide_eq_true (by omega), Bool.true_and, Nat.add_sub_cancel' (by omega)]

/-! ### The bit-serial step (R95, R98) -/

theorem crcShift_xor (c d : BitVec 16) : crcShift (c ^^^ d) = crcShift c ^^^ crcShift d := by
  have hpoly : (if (c ^^^ d).getLsbD 0 then 0xA001 else 0 : BitVec 16) =
      (if c.getLsbD 0 then 0xA001 else 0) ^^^ (if d.getLsbD 0 then 0xA001 else 0) := by
    rw [BitVec.getLsbD_xor]
    cases c.getLsbD 0 <;> cases d.getLsbD 0 <;> rfl
  unfold crcShift
  rw [BitVec.ushiftRight_xor_distrib, hpoly]
  ac_rfl

theorem crcShift8_xor (c d : BitVec 16) : crcShift8 (c ^^^ d) = crcShift8 c ^^^ crcShift8 d := by
  simp only [crcShift8, crcShift_xor]

/-- The bit shifted out is kept in bit 15, the top bit of the polynomial. -/
theorem crcShift_getLsbD_15 (c : BitVec 16) : (crcShift c).getLsbD 15 = c.getLsbD 0 := by
  rw [crcShift, BitVec.getLsbD_xor, BitVec.getLsbD_ushiftRight, BitVec.getLsbD_of_ge c _ (by decide), Bool.false_xor]
  cases c.getLsbD 0 <;> rfl

/-- Where a zero is shifted out, the step is a plain shift. -/
theorem crcShift_of_getLsbD_zero {c : BitVec 16} (h : c.getLsbD 0 = false) : crcShift c = c >>> 1 := by
  rw [crcShift, h, if_neg Bool.false_ne_true, BitVec.ofNat_eq_ofNat, BitVec.xor_zero]

theorem eq_zero_of_crcShift_eq_zero {c : BitVec 16} (h : crcShift c = 0#16) : c = 0#16 := by
  have hlow : c.getLsbD 0 = false := by rw [← crcShift_getLsbD_15, h, BitVec.getLsbD_zero]
  rw [crcShift_of_getLsbD_zero hlow] at h
  refine BitVec.eq_of_getLsbD_eq fun i _ => ?_
  rw [BitVec.getLsbD_zero]
  cases i with
  | zero => exact hlow
  | succ i =>
    have hi := congrArg (BitVec.getLsbD · i) h
    rwa [BitVec.getLsbD_ushiftRight, BitVec.getLsbD_zero, Nat.add_comm] at hi

theorem crcShift_injective : Function.Injective crcShift := fun c d h =>
  BitVec.xor_eq_zero_iff.1 (eq_zero_of_crcShift_eq_zero (by rw [crcShift_xor, h, BitVec.xor_self]))

theorem crcShift8_injective : Function.Injective crcShift8 := crcShift_injective.iterate 8

/-- Zeros shifted out leave the high byte, moved down. -/
theorem iterate_crcShift_append_zero (x : Byte) (k : Nat) (hk : k ≤ 8) :
    crcShift^[k] (x ++ 0#8) = (x ++ 0#8 : BitVec 16) >>> k := by
  induction k with
  | zero => rw [BitVec.ushiftRight_zero]; rfl
  | succ k ih =>
    have hlow : ((x ++ 0#8 : BitVec 16) >>> k).getLsbD 0 = false := by
      rw [BitVec.getLsbD_ushiftRight, word_getLsbD, if_pos (by omega), BitVec.getLsbD_zero]
    rw [Function.iterate_succ_apply', ih (Nat.le_of_lt hk), crcShift_of_getLsbD_zero hlow, BitVec.shiftRight_add]

theorem crcShift8_append_zero (x : Byte) : crcShift8 (x ++ 0#8) = x.setWidth 16 := by
  refine (iterate_crcShift_append_zero x 8 (le_refl 8)).trans (BitVec.eq_of_getLsbD_eq fun i hi => ?_)
  rw [BitVec.getLsbD_ushiftRight, word_getLsbD, if_neg (by omega), Nat.add_sub_cancel_left, BitVec.getLsbD_setWidth,
    decide_eq_true hi, Bool.true_and]

/-- The step of the bit-serial form for one byte. -/
def crcUpdate (c : BitVec 16) (b : Byte) : BitVec 16 := crcShift8 (c ^^^ b.setWidth 16)

theorem crcBitSerial_eq_foldl (ds : List Byte) : crcBitSerial ds = ds.foldl crcUpdate 0xFFFF := rfl

theorem crcUpdate_xor (c d : BitVec 16) (x y : Byte) :
    crcUpdate (c ^^^ d) (x ^^^ y) = crcUpdate c x ^^^ crcUpdate d y := by
  rw [crcUpdate, crcUpdate, crcUpdate, ← crcShift8_xor, BitVec.setWidth_xor]
  congr 1
  ac_rfl

theorem crcUpdate_left_injective (b : Byte) : Function.Injective (crcUpdate · b) := fun _ _ h =>
  (BitVec.xor_left_inj _).1 (crcShift8_injective h)

theorem crcUpdate_right_injective (c : BitVec 16) : Function.Injective (crcUpdate c) := fun x y h => by
  have hw : x.setWidth 16 = y.setWidth 16 := (BitVec.xor_right_inj _).1 (crcShift8_injective h)
  simpa using congrArg (BitVec.setWidth 8) hw

/-! ### The tables (R95 to R97) and the table-driven form (R98, R100) -/

/-- Settles O37, by evaluating the formula at each of the 256 indices. -/
theorem crcTablesFollowTheFormula : Obligations.CrcTablesFollowTheFormula := by
  unfold Obligations.CrcTablesFollowTheFormula
  decide +kernel

/-- Settles O39, by running the table-driven fold on the three inputs. -/
theorem crcReferenceValues : Obligations.CrcReferenceValues := by
  unfold Obligations.CrcReferenceValues
  decide +kernel

theorem t16_eq_append (i : Byte) : t16 i = tableEntry tableLo i ++ tableEntry tableHi i := by
  obtain ⟨hhi, hlo⟩ := crcTablesFollowTheFormula i
  rw [hhi, hlo, word_of_bytes]

/-- A byte of the table-driven fold is eight steps of the bit-serial form: the low byte is looked up, the high byte
moves down. -/
theorem crcAssemble_crcStep (c : Byte × Byte) (d : Byte) :
    crcAssemble false (crcStep c d) = crcUpdate (crcAssemble false c) d := by
  obtain ⟨hi, lo⟩ := c
  have hsplit : (hi ++ lo) ^^^ d.setWidth 16 = (hi ++ 0#8) ^^^ (lo ^^^ d).setWidth 16 := by
    rw [setWidth_eq_word, setWidth_eq_word, word_xor, word_xor, BitVec.xor_zero, BitVec.zero_xor]
  calc crcAssemble false (crcStep (hi, lo) d)
      = tableEntry tableLo (lo ^^^ d) ++ (hi ^^^ tableEntry tableHi (lo ^^^ d)) := rfl
    _ = hi.setWidth 16 ^^^ t16 (lo ^^^ d) := by
      rw [t16_eq_append, setWidth_eq_word, word_xor, BitVec.zero_xor]
    _ = crcUpdate (hi ++ lo) d := by rw [crcUpdate, hsplit, crcShift8_xor, crcShift8_append_zero, t16]

/-- Settles O38: the assembled accumulators go through the states of the bit-serial form, byte by byte. -/
theorem tableCrcEqualsBitSerialCrc : Obligations.TableCrcEqualsBitSerialCrc := fun _ =>
  (List.foldl_hom (crcAssemble false) fun c d => (crcAssemble_crcStep c d).symm).symm

/-! ### The order of the two bytes (R99) -/

theorem swapBytes_append (x y : Byte) : swapBytes (x ++ y) = y ++ x := by
  rw [swapBytes, BitVec.extractLsb'_append_eq_left, BitVec.extractLsb'_append_eq_right]

theorem swapBytes_swapBytes (c : BitVec 16) : swapBytes (swapBytes c) = c := by
  rw [swapBytes.eq_def c, swapBytes_append, word_of_bytes]

theorem swapBytes_xor (c d : BitVec 16) : swapBytes (c ^^^ d) = swapBytes c ^^^ swapBytes d := by
  simp only [swapBytes, BitVec.extractLsb'_xor, word_xor]

theorem swapBytes_injective : Function.Injective swapBytes := Function.LeftInverse.injective swapBytes_swapBytes

theorem crcAssemble_not (swap : Bool) (c : Byte × Byte) : crcAssemble (!swap) c = swapBytes (crcAssemble swap c) := by
  cases swap <;> exact (swapBytes_append _ _).symm

theorem crc16_true (ds : List Byte) : crc16 true ds = swapBytes (crcBitSerial ds) := by
  rw [← tableCrcEqualsBitSerialCrc ds]
  exact crcAssemble_not false _

theorem crc16_eq_iff (swap : Bool) (xs ys : List Byte) :
    crc16 swap xs = crc16 swap ys ↔ crcBitSerial xs = crcBitSerial ys := by
  cases swap with
  | false => rw [tableCrcEqualsBitSerialCrc, tableCrcEqualsBitSerialCrc]
  | true => rw [crc16_true, crc16_true, swapBytes_injective.eq_iff]

/-! ### The checksum is affine (R101) -/

theorem foldl_crcUpdate_xor (xs ys : List Byte) (c d : BitVec 16) (h : xs.length = ys.length) :
    (List.zipWith (· ^^^ ·) xs ys).foldl crcUpdate (c ^^^ d) = xs.foldl crcUpdate c ^^^ ys.foldl crcUpdate d := by
  induction xs generalizing ys c d with
  | nil => rw [List.eq_nil_of_length_eq_zero h.symm]; rfl
  | cons x xs ih =>
    cases ys with
    | nil => cases h
    | cons y ys =>
      rw [List.zipWith_cons_cons, List.foldl_cons, crcUpdate_xor, ih ys _ _ (Nat.succ.inj h)]
      rfl

/-- XORed with each of them once more, the XOR of two sequences is all zeros. -/
theorem zipWith_xor_cancel (xs ys : List Byte) (h : xs.length = ys.length) :
    List.zipWith (· ^^^ ·) (List.zipWith (· ^^^ ·) (List.zipWith (· ^^^ ·) xs ys) xs) ys =
      List.replicate xs.length (0 : Byte) := by
  refine List.ext_getElem (by simp [h]) fun i _ _ => ?_
  simp only [List.getElem_zipWith, List.getElem_replicate]
  rw [BitVec.xor_assoc, BitVec.xor_self, BitVec.ofNat_eq_ofNat]

/-- The seed, XORed with itself twice, is the seed again. -/
theorem crcBitSerial_affine (xs ys : List Byte) (h : xs.length = ys.length) :
    crcBitSerial (List.zipWith (· ^^^ ·) xs ys) ^^^ crcBitSerial xs ^^^ crcBitSerial ys =
      crcBitSerial (List.replicate xs.length 0) := by
  simp only [crcBitSerial_eq_foldl]
  rw [← foldl_crcUpdate_xor _ _ _ _ (by simp [h]), ← foldl_crcUpdate_xor _ _ _ _ (by simp [h]),
    zipWith_xor_cancel xs ys h, BitVec.xor_self, BitVec.zero_xor]

/-- Settles O41: it holds of the bit-serial form, and exchanging bytes commutes with XOR. -/
theorem crcIsAffine : Obligations.CrcIsAffine := by
  intro swap xs ys h
  have haffine := crcBitSerial_affine xs ys h
  cases swap with
  | false => simpa only [tableCrcEqualsBitSerialCrc _] using haffine
  | true => simpa only [crc16_true, swapBytes_xor] using congrArg swapBytes haffine

/-! ### Sequences that differ in one byte, and pages that differ in one bit (R101) -/

theorem foldl_crcUpdate_injective (ds : List Byte) : Function.Injective (ds.foldl crcUpdate) := by
  induction ds with
  | nil => exact fun _ _ h => h
  | cons d ds ih => exact ih.comp (crcUpdate_left_injective d)

theorem crcBitSerial_append_cons (xs ys : List Byte) (b : Byte) :
    crcBitSerial (xs ++ b :: ys) = ys.foldl crcUpdate (crcUpdate (crcBitSerial xs) b) := by
  rw [crcBitSerial_eq_foldl, List.foldl_append, List.foldl_cons, crcBitSerial_eq_foldl]

theorem crc16_ne_of_byte_ne (swap : Bool) (xs ys : List Byte) {b c : Byte} (h : b ≠ c) :
    crc16 swap (xs ++ b :: ys) ≠ crc16 swap (xs ++ c :: ys) := by
  rw [Ne, crc16_eq_iff, crcBitSerial_append_cons, crcBitSerial_append_cons, (foldl_crcUpdate_injective ys).eq_iff,
    (crcUpdate_right_injective _).eq_iff]
  exact h

theorem crc16_set_ne (swap : Bool) (ds : List Byte) (k : Nat) (hk : k < ds.length) {b : Byte} (h : b ≠ ds[k]) :
    crc16 swap (ds.set k b) ≠ crc16 swap ds := by
  have hne := crc16_ne_of_byte_ne swap (ds.take k) (ds.drop (k + 1)) h
  rw [List.getElem_cons_drop, List.take_append_drop] at hne
  rwa [List.set_eq_take_append_cons_drop, if_pos hk]

theorem twoPow_ne_zero {w n : Nat} (h : n < w) : BitVec.twoPow w n ≠ 0#w := fun he => by
  simpa [BitVec.getLsbD_twoPow, h] using congrArg (BitVec.getLsbD · n) he

theorem pageBytes_getElem (p : Page) (k : Nat) (hk : k < (pageBytes p).length) : (pageBytes p)[k] = pageByte p k := by
  simp [pageBytes]

/-- A flipped bit of a beat is a flipped bit of one of its bytes. -/
theorem pageByte_xor_twoPow (p : Page) (n k : Nat) (hn : n < 2048) :
    pageByte (p ^^^ BitVec.twoPow 2048 n) k =
      if n / 8 = k then pageByte p k ^^^ BitVec.twoPow 8 (n % 8) else pageByte p k := by
  refine BitVec.eq_of_getLsbD_eq fun b hb => ?_
  have hplace : n = 8 * k + b ↔ n / 8 = k ∧ n % 8 = b := by omega
  rw [pageByte_getLsbD _ _ _ hb, BitVec.getLsbD_xor, BitVec.getLsbD_twoPow]
  split
  · next h =>
    rw [BitVec.getLsbD_xor, pageByte_getLsbD _ _ _ hb, BitVec.getLsbD_twoPow]
    simp [hplace, h, hn, Nat.mod_lt]
  · next h =>
    rw [pageByte_getLsbD _ _ _ hb]
    simp [hplace, h]

theorem pageBytes_xor_twoPow (p : Page) (n : Nat) (hn : n < 2048) :
    pageBytes (p ^^^ BitVec.twoPow 2048 n) =
      (pageBytes p).set (n / 8) (pageByte p (n / 8) ^^^ BitVec.twoPow 8 (n % 8)) := by
  refine List.ext_getElem (by simp) fun k hk _ => ?_
  rw [List.getElem_set]
  rw [pageBytes_getElem, pageBytes_getElem, pageByte_xor_twoPow p n k hn]
  split
  · next h => rw [h]
  · rfl

/-- Settles O40: each step of the bit-serial form is injective, in its state and in its byte. -/
theorem singleBitFlipChangesTheCrc : Obligations.SingleBitFlipChangesTheCrc := by
  refine ⟨fun swap xs ys b c h => crc16_ne_of_byte_ne swap xs ys h, fun swap p n hn => ?_⟩
  rw [pageBytes_xor_twoPow p n hn]
  refine crc16_set_ne swap (pageBytes p) (n / 8) (by rw [pageBytes_length]; omega) fun h => ?_
  rw [pageBytes_getElem] at h
  exact twoPow_ne_zero (Nat.mod_lt n (by decide)) ((BitVec.xor_right_inj _).1 (h.trans BitVec.xor_zero.symm))

/-! ### GET_PAGE_CRC16 (R93) -/

theorem foldPbuf_frame (s : State) : UnchangedBut [.crcHi, .crcLo] s (foldPbuf s) := by
  constructor <;> intros <;> simp_all

theorem crcAssemble_foldPbuf (swap : Bool) (s : State) :
    crcAssemble swap ((foldPbuf s).crcHi, (foldPbuf s).crcLo) = crc16 swap (pageBytes s.pbuf) := by
  rw [foldPbuf_crcHi, foldPbuf_crcLo, crc16]

/-- `get_page_crc16` past validation: Ok with the checksum of the page read, `get_page`'s trace, and no RD beat. -/
theorem getPageCrc16_of_valid (a : Nat) (s : State) (hr : s.answersLeft = none) (hv : valid s.params a = true) :
    ∃ d u, getPageCrc16 a s = .done { result := .ok, crc := some (crc16 s.params.crcSwap (pageBytes d)) } u ∧
      u.log = [.statusWrite .readingPage, .leafRead a d, .statusWrite .free].reverse ++ s.log ∧ u.rd = s.rd ∧
      u.status = Status.free.code ∧ UnchangedBut [.status, .pbuf, .crcHi, .crcLo] s u ∧
      (s.backend = .reference → d = s.flash.page a) := by
  obtain ⟨d, t, he, hl, hrd, ht, -, hpbuf, hd⟩ := getPage_spec a s hr
  have hst := getPage_status a s
  rw [he] at hst
  simp only [pageResult, pageEvents, statusAfter, hv, if_true] at he hl hst
  refine ⟨d, foldPbuf t, ?_, hl, hrd, hst, ?_, hd hv⟩
  · rw [getPageCrc16, he, andThen_done]
    simp only [crcAssemble_foldPbuf, hpbuf hv, ht.params]
  · exact (ht.mono (by simp)).trans ((foldPbuf_frame t).mono (by simp))

/-- Settles O36: past validation the page is read as by `get_page`, and its checksum is the response's. -/
theorem getPageCrc16AnswersTheChecksum : Obligations.GetPageCrc16AnswersTheChecksum := by
  intro addr s ⟨hp, hr⟩ hv
  obtain ⟨d, u, hproc, hl, hrd, hst, hu, hd⟩ := getPageCrc16_of_valid addr.toNat (loadBase addr (accept 0xB s))
    (by simpa using hr) (by simpa using hv)
  obtain ⟨he, ha, hus⟩ := exec_answers_addressed (i := .getPageCrc16 addr) [.status, .pbuf, .crcHi, .crcLo, .base] rfl
    hp hproc hl hu (by simp) (by simp)
  refine ⟨_, d, he, ha, by simp, hst, by simpa using hrd, hus, fun ⟨hb, hwf⟩ k hk => ?_⟩
  have hpage : d = s.flash.page addr.toNat := by simpa [hb] using hd
  rw [hpage, page_byte s.flash hwf _ k hk]

/-! ### What CRC_SWAP changes (R99) -/

/-- The state with CRC_SWAP the other way. -/
def flipSwap (s : State) : State := { s with params := { s.params with crcSwap := !s.params.crcSwap } }

/-- The second state is the first with CRC_SWAP the other way. -/
def SwapFlipped (s t : State) : Prop := t = flipSwap s

theorem SwapFlipped.exchange {s t : State} (h : SwapFlipped s t) (q : LeafReq) :
    Both (fun _ s _ t => SwapFlipped s t) SwapFlipped NeverApart (leafExchange q s) (leafExchange q t) :=
  leafExchange_both (by rintro s _ q rfl; rfl) (by rintro s _ rfl; rfl) (by rintro s _ n rfl; rfl) NeverApart q s t h

theorem loadBase_flipSwap (a : Addr) (s : State) : loadBase a (flipSwap s) = flipSwap (loadBase a s) := by
  rw [loadBase, loadBase, apply_ite flipSwap]
  rfl

/-- Each operation of a page procedure does the same whatever CRC_SWAP is, and leaves it. -/
theorem swapFlipped_kept : Kept SwapFlipped SwapFlipped NeverApart where
  goesOn := .never _
  valid := by rintro s _ a rfl; rfl
  draws := by rintro s _ rfl; rfl
  erase s t a h := both_andThen (h.exchange _) (by rintro _ s _ _ rfl; rfl) fun _ _ _ hd => hd.elim
  write s t a d h _ := both_andThen (h.exchange _) (by rintro _ s _ _ rfl; rfl) fun _ _ _ hd => hd.elim
  read s t a h := both_andThen (h.exchange _) (by rintro _ s _ _ rfl; exact ⟨rfl, rfl⟩) fun _ _ _ hd => hd.elim
  setStatus := by rintro s _ v rfl; rfl
  loadPbuf := by rintro s _ d rfl; rfl
  loadBase := by rintro s _ a rfl; exact loadBase_flipSwap a s
  foldPbuf := by rintro s _ rfl _; rfl
  emitBeats := by rintro s _ x ⟨⟨⟩, _, _⟩ rfl <;> rfl
  draw := by rintro s _ n rfl; rfl

/-- Nor does the aggregation of results read CRC_SWAP, so it is one relation for all of a command. -/
theorem swapFlipped_commandRel : CommandRel (fun _ _ => SwapFlipped) Eq SwapFlipped NeverApart where
  kept _ _ := swapFlipped_kept
  setCheckMode := by rintro s _ v rfl; rfl
  dropAgg _ _ _ _ h := h
  dropAgg2 _ _ _ _ h := h
  ret _ := rfl
  pages _ _ := congrArg Ret.pages
  clearAgg := by rintro _ s _ rfl; rfl
  clearAgg2 := by rintro _ s _ rfl; rfl
  setIdx := by rintro _ _ s _ l k rfl; cases l <;> rfl
  foldAgg := by rintro _ _ s _ l r _ rfl rfl; cases l <;> rfl
  report := by rintro _ s _ ps rfl; rfl
  report2 := by rintro _ s _ ps rfl; rfl

/-- What the command `i` returns with CRC_SWAP one way and the other: but for the two bytes of a checksum, the same. A
checksum that is not given is drawn at the response (U2), so `crc` is compared whatever value `x` is drawn for it. -/
structure SwappedRet (i : Instr) (r w : Ret) : Prop where
  result : w.result = r.result
  pages : w.pages = r.pages
  crc : ∀ x, w.crc.getD x = if i.opcode = 0xB ∧ r.result = .ok then swapBytes (r.crc.getD x) else r.crc.getD x

theorem SwappedRet.same {i : Instr} {r : Ret} (h : ¬(i.opcode = 0xB ∧ r.result = .ok)) : SwappedRet i r r :=
  ⟨rfl, rfl, fun _ => (if_neg h).symm⟩

theorem opcode_eq_getPageCrc16_iff (i : Instr) : i.opcode = 0xB ↔ ∃ a, i = .getPageCrc16 a := by
  cases i with
  | getPageCrc16 a => exact iff_of_true rfl ⟨a, rfl⟩
  | _ => exact iff_of_false (by simp [Instr.opcode]) nofun

/-- Two runs of a command's procedure with CRC_SWAP one way and the other. -/
theorem procOf_swapFlipped (i : Instr) (s : State) :
    Both (fun r s w t => SwappedRet i r w ∧ SwapFlipped s t) SwapFlipped NeverApart (procOf i s)
      (procOf i (flipSwap s)) := by
  by_cases hi : ∃ a, i = .getPageCrc16 a
  · obtain ⟨a, rfl⟩ := hi
    refine both_mono (getPageCrc16_both swapFlipped_commandRel a s _ rfl) ?_
    rintro r s w _ ⟨⟨rfl, hfail⟩ | ⟨c, rfl, rfl⟩, rfl⟩
    · exact ⟨.same (by simp [hfail]), rfl⟩
    · exact ⟨⟨rfl, rfl, fun _ => crcAssemble_not _ c⟩, rfl⟩
  · refine both_mono (procOf_both swapFlipped_commandRel i (fun a ha => hi ⟨a, ha⟩) s _ rfl rfl rfl rfl) ?_
    rintro r s _ t ⟨rfl, h⟩
    exact ⟨.same fun ⟨hop, _⟩ => hi ((opcode_eq_getPageCrc16_iff i).1 hop), h⟩

/-- The response `r` to the command `i` with CRC_SWAP the other way. -/
def swappedResponse (i : Instr) (r : Response) : Response :=
  { r with crc := if i.opcode = 0xB ∧ r.result = .ok then swapBytes r.crc else r.crc }

/-- Two runs that end together so: the same state but for the parameter and the response, and the responses as above.
A run that waits has no response. -/
theorem finish_swapFlipped {i : Instr} {f g : Flow Ret}
    (h : Both (fun r s w t => SwappedRet i r w ∧ SwapFlipped s t) SwapFlipped NeverApart f g)
    (hw : ∀ u, f = .waiting u → u.rsp = none) :
    finish g = { finish f with params := (finish g).params, rsp := (finish g).rsp } ∧
      (finish g).rsp = (finish f).rsp.map (swappedResponse i) := by
  cases f with
  | done r u =>
    cases g with
    | done w v =>
      obtain ⟨⟨hresult, hpages, hcrc⟩, rfl⟩ := h
      exact ⟨rfl, by simp [finish, flipSwap, swappedResponse, hresult, hpages, hcrc]⟩
    | waiting v => exact h.elim
  | waiting u =>
    cases g with
    | done w v => exact h.elim
    | waiting v =>
      obtain rfl : v = flipSwap u := h
      exact ⟨rfl, by simp [finish, flipSwap, hw u rfl]⟩

/-- Settles O52, from the two runs of the command's procedure. -/
theorem crcSwapExchangesTheBytesOnly : Obligations.CrcSwapExchangesTheBytesOnly := by
  intro i s t he
  obtain ⟨hi, hp, rfl⟩ := exec_next_inv i s t he
  exact ⟨_, exec_next i (flipSwap s) hi hp,
    finish_swapFlipped (procOf_swapFlipped i (accept i.opcode s)) fun _ => waiting_rsp⟩

end Sys2Proof.Machine
/-! PROOFS. Check mode and the reserved opcodes (45_check_mode_control.md). None of the five commands issues a leaf request,
so each comes to its end in one operation on the state in which it is accepted, whatever the backend does. -/

namespace Sys2Proof.Machine

open Sys2Proof

/-! ### The reserved opcodes (R104) -/

/-- A command whose procedure fails at once answers Fail and has no effect (R104, R113). -/
theorem exec_of_procOf_fails {i : Instr} {s : State} (hi : i.wf = true) (hp : s.params.wf = true)
    (hproc : procOf i (accept i.opcode s) = .done { result := .fail } (accept i.opcode s)) :
    ∃ t, exec i s = .next t ∧ Answered t .fail [] [] ∧ t.rd = [] ∧ UnchangedBut [] s t := by
  obtain ⟨he, ha, hu⟩ := exec_answers i s (accept i.opcode s) { result := .fail } [] [] hi hp hproc rfl (.refl _ _)
  exact ⟨_, he, ha, respond_rd _ _, hu⟩

theorem reservedOp_eq (s : State) : reservedOp s = .done { result := .fail } s := failWith_zero s

/-- Settles O24: the procedure of all three is `reservedOp`, which fails at once. -/
theorem reservedOpcodesFailWithoutEffect : Obligations.ReservedOpcodesFailWithoutEffect := by
  rintro x s i hp (rfl | rfl | rfl)
  · exact exec_of_procOf_fails rfl hp (reservedOp_eq _)
  · exact exec_of_procOf_fails rfl hp (reservedOp_eq _)
  · exact exec_of_procOf_fails rfl hp (reservedOp_eq _)

/-! ### The check-mode commands (R102, R103) -/

theorem setCheckMode_frame (b : Bool) (s : State) : UnchangedBut [.checkMode] s (setCheckMode b s) := by
  constructor <;> intros <;> simp_all

/-- A command whose procedure is `writeCheckMode b` answers Ok, and CHECK_MODE is `b` (R102, R103). -/
theorem exec_of_procOf_writesCheckMode {i : Instr} {s : State} (b : Bool) (hi : i.wf = true) (hp : s.params.wf = true)
    (hproc : procOf i (accept i.opcode s) = writeCheckMode b (accept i.opcode s)) :
    ∃ t, exec i s = .next t ∧ Answered t .ok [] [.checkModeWrite b] ∧ t.checkMode = b ∧ t.rd = [] ∧
      UnchangedBut [.checkMode] s t := by
  obtain ⟨he, ha, hu⟩ := exec_answers i s (setCheckMode b (accept i.opcode s)) { result := .ok } [.checkModeWrite b]
    [.checkMode] hi hp hproc rfl (setCheckMode_frame b _)
  exact ⟨_, he, ha, by simp, by simp, hu⟩

/-- Settles O42: the procedure is `writeCheckMode true`, at either value of the flag before. -/
theorem enableCheckModeSetsTheFlag : Obligations.EnableCheckModeSetsTheFlag := fun _ _ hp =>
  exec_of_procOf_writesCheckMode true rfl hp rfl

/-- Settles O43: the procedure is `writeCheckMode false`, at either value of the flag before. -/
theorem disableCheckModeClearsTheFlag : Obligations.DisableCheckModeClearsTheFlag := fun _ _ hp =>
  exec_of_procOf_writesCheckMode false rfl hp rfl

end Sys2Proof.Machine
/-! PROOFS. Exceptions (60_exceptions.md): a core to which no whole command is offered (R121). -/

namespace Sys2Proof

/-- `decode` waits exactly where the queue is shorter than what the opcode calls for (R58). -/
theorem decode_eq_error_iff (w : CmdWord) (wd : List Page) :
    decode w wd = .error .writeDataMissing ↔ wd.length < beatCount (cmdOp w) := by
  simp only [decode]
  split
  · next hn => exact iff_of_false nofun hn.not_gt
  · next hn => exact iff_of_true rfl (not_le.mp hn)

end Sys2Proof

namespace Sys2Proof.Machine

open Sys2Proof

/-- `fetch` takes nothing where CMD is empty. -/
theorem fetch_of_cmd_nil {s : State} (hc : s.cmd = []) : fetch s = none := by
  simp only [fetch, hc]

/-- `fetch` takes nothing where the first word on CMD waits for its write data (log 8). -/
theorem fetch_of_decode_error {s : State} {w : CmdWord} {rest : List CmdWord} (hc : s.cmd = w :: rest)
    (hd : decode w s.wd = .error .writeDataMissing) : fetch s = none := by
  simp only [fetch, hc, hd]

/-- Settles O18: in both cases `fetch` takes nothing, and the step is idle. -/
theorem idleCoreHoldsItsState : Obligations.IdleCoreHoldsItsState := by
  rintro s hr hb (hc | ⟨w, rest, hc, hlen⟩)
  · exact step_idle s hr hb (fetch_of_cmd_nil hc)
  · exact step_idle s hr hb (fetch_of_decode_error hc ((decode_eq_error_iff w s.wd).mpr hlen))

end Sys2Proof.Machine
/-! PROOFS. Reset and hazards (70_reset_and_hazards.md): reset in mid-command (R124), a command over a silent backend
(R136), and CHECK_MODE, which no command reads (R137). -/

namespace Sys2Proof.Machine

open Sys2Proof

/-! ### Reset in mid-command (R124) -/

/-- Reset at an outstanding read leaves the flash as it was, for a read changes nothing (R124). -/
theorem abandonedFlash_of_read {s : State} {a : Nat} (h : s.pending = some (.read a)) : abandonedFlash s = s.flash := by
  cases hb : s.backend <;> simp [abandonedFlash, h, hb]

/-- A scrambled page is the only place where the bytes can change. -/
theorem scramblePage_read_outside {m : Memory} (h : m.wf) {a x : Nat} (d : Page) (hx : x < a ∨ a + 256 ≤ x) :
    (m.scramblePage a d).read x = m.read x := by
  rw [scramblePage_read m h, if_neg (by omega)]

/-- Reset at an outstanding request touches no byte outside the page of the request (R124). -/
theorem abandonedFlash_read_outside {s : State} {q : LeafReq} (hq : s.pending = some q) (hs : OnReference s) {x : Nat}
    (hx : x < q.addr ∨ q.addr + 256 ≤ x) : (abandonedFlash s).read x = s.flash.read x := by
  obtain ⟨hb, hm⟩ := hs
  cases q with
  | erase a =>
    simp only [abandonedFlash, hb, hq]
    exact scramblePage_read_outside hm _ hx
  | write a d =>
    simp only [abandonedFlash, hb, hq]
    exact scramblePage_read_outside hm _ hx
  | read a => rw [abandonedFlash_of_read hq]

/-- Settles O2: the registers are at their reset values by the definition of `applyReset`, and the lemmas about
`abandonedFlash` say what becomes of the flash. -/
theorem resetInMidCommandAbandonsIt : Obligations.ResetInMidCommandAbandonsIt := by
  intro s q hr _ hq hs
  refine ⟨applyReset s, step_reset s hr, rfl, rfl, rfl, rfl, rfl, abandonedFlash_wf s hs.2,
    fun x hx => abandonedFlash_read_outside hq hs hx, ?_⟩
  rintro a rfl
  exact abandonedFlash_of_read hq

/-! ### A command over a silent backend (R136) -/

/-- From `s` to `t` no leaf request was issued, and nothing was done that needs one. -/
structure Quiet (s t : State) : Prop where
  params : t.params = s.params
  rst : t.rst = s.rst
  answersLeft : t.answersLeft = s.answersLeft
  flash : t.flash = s.flash
  requests : leafAddrs t.trace = leafAddrs s.trace

theorem Quiet.trans {s t u : State} (h : Quiet s t) (k : Quiet t u) : Quiet s u :=
  ⟨k.params.trans h.params, k.rst.trans h.rst, k.answersLeft.trans h.answersLeft, k.flash.trans h.flash,
    k.requests.trans h.requests⟩

theorem Quiet.of_frame {ws : List Reg} {s t : State} (h : UnchangedBut ws s t) (hf : Reg.flash ∉ ws)
    (hl : leafAddrs t.trace = leafAddrs s.trace) : Quiet s t :=
  ⟨h.params, h.rst, h.answersLeft, h.flash hf, hl⟩

theorem quiet_setStatus (v : Status) (s : State) : Quiet s (setStatus v s) :=
  .of_frame (setStatus_frame v s) (by simp) (leafAddrs_other _ _ _ rfl rfl)

theorem quiet_loadBase (a : Addr) (s : State) : Quiet s (loadBase a s) :=
  .of_frame (loadBase_frame a s) (by simp) (leafAddrs_same _ _ (by simp))

theorem quiet_clearAgg (l : Level) (s : State) : Quiet s (clearAgg l s) :=
  .of_frame (clearAgg_frame l s) (by cases l <;> simp) (leafAddrs_same _ _ (by simp))

theorem quiet_setIdx (l : Level) (n : Nat) (s : State) : Quiet s (setIdx l n s) :=
  .of_frame (setIdx_frame l n s) (by cases l <;> simp) (leafAddrs_same _ _ (by simp))

theorem quiet_loadPbuf (d : Page) (s : State) : Quiet s (loadPbuf d s) := ⟨rfl, rfl, rfl, rfl, rfl⟩

/-- The procedure, entered at `s`, waits for its first leaf request, which is at `a`. -/
def WaitsFirst {α : Type} (a : Nat) (s : State) (f : Flow α) : Prop :=
  ∃ q t, f = .waiting { t with pending := some q } ∧ q.addr = a ∧ Quiet s t

/-- Over a backend that answers nothing, the procedure waits for a request at `a` wherever `a` is valid. -/
def HangsAt {α : Type} (a : Nat) (proc : State → Flow α) : Prop :=
  ∀ s, s.answersLeft = some 0 → valid s.params a = true → WaitsFirst a s (proc s)

theorem WaitsFirst.from {α : Type} {a : Nat} {s t : State} {f : Flow α} (h : WaitsFirst a t f) (k : Quiet s t) :
    WaitsFirst a s f := by
  obtain ⟨q, u, hf, hq, hu⟩ := h
  exact ⟨q, u, hf, hq, k.trans hu⟩

/-- What comes after a procedure that hangs is not reached. -/
theorem WaitsFirst.andThen {α β : Type} {a : Nat} {s : State} {f : Flow α} (h : WaitsFirst a s f)
    (k : α → State → Flow β) : WaitsFirst a s (andThen f k) := by
  obtain ⟨q, t, rfl, hq, ht⟩ := h
  exact ⟨q, t, rfl, hq, ht⟩

/-- A procedure that hangs does so after quiet steps as well. -/
theorem HangsAt.after {α : Type} {a : Nat} {proc : State → Flow α} (h : HangsAt a proc) {s t : State}
    (hs : s.answersLeft = some 0) (hv : valid s.params a = true) (k : Quiet s t) : WaitsFirst a s (proc t) :=
  (h t (k.answersLeft.trans hs) (k.params ▸ hv)).from k

theorem leafExchange_hangsAt (q : LeafReq) : HangsAt q.addr (leafExchange q) := fun s hs _ =>
  ⟨q, s, leafExchange_silent q s hs, rfl, rfl, rfl, rfl, rfl, rfl⟩

theorem erasePage_hangsAt (a : Nat) : HangsAt a (erasePage a) := by
  intro s hs hv
  rw [erasePage, if_pos hv, leafErase]
  exact (((leafExchange_hangsAt (.erase a)).after hs hv (quiet_setStatus _ s)).andThen _).andThen _

theorem writePage_hangsAt (a : Nat) (d : Page) : HangsAt a (writePage a d) := by
  intro s hs hv
  rw [writePage, if_pos hv, leafWrite]
  have hq : Quiet s (loadPbuf d (setStatus .writingPage s)) := (quiet_setStatus _ s).trans (quiet_loadPbuf d _)
  exact (((leafExchange_hangsAt (.write a d)).after hs hv hq).andThen _).andThen _

theorem getPage_hangsAt (a : Nat) : HangsAt a (getPage a) := by
  intro s hs hv
  rw [getPage, if_pos hv, leafRead]
  exact (((leafExchange_hangsAt (.read a)).after hs hv (quiet_setStatus _ s)).andThen _).andThen _

theorem getPageBeat_hangsAt (j i a : Nat) : HangsAt a (getPageBeat j i a) := fun s hs hv =>
  (getPage_hangsAt a s hs hv).andThen _

/-- A compound procedure hangs in its first sub-operation, which is at the compound's own address. -/
theorem compound_hangsAt (l : Level) (v : Status) (lost a : Nat) {body : Nat → State → Flow Ret}
    (hbody : HangsAt a (body 0)) : HangsAt a (compound l v lost a body) := by
  intro s hs hv
  have hq : Quiet s (setIdx l 0 (clearAgg l (setStatus v s))) :=
    ((quiet_setStatus v s).trans (quiet_clearAgg l _)).trans (quiet_setIdx l 0 _)
  rw [compound, if_pos hv, subOps]
  exact ((hbody.after hs hv hq).andThen _).andThen _

theorem writeSector_hangsAt (a : Nat) (d : List Page) : HangsAt a (writeSector a d) :=
  compound_hangsAt _ _ _ _ (writePage_hangsAt a _)

theorem getSector_hangsAt (j a : Nat) : HangsAt a (getSector j a) :=
  compound_hangsAt _ _ _ _ (getPageBeat_hangsAt j 0 a)

theorem getPageCrc16_hangsAt (a : Nat) : HangsAt a (getPageCrc16 a) := fun s hs hv =>
  (getPage_hangsAt a s hs hv).andThen _

/-- Each of the ten commands with an address hangs at that address. -/
theorem procOf_hangsAt {i : Instr} (hi : (validatedPages i).isSome = true) :
    HangsAt i.addrField.toNat (procOf i) := by
  have hbase (a : Addr) {proc : State → Flow Ret} (h : HangsAt a.toNat proc) :
      HangsAt a.toNat fun s => proc (loadBase a s) := fun s hs hv => h.after hs hv (quiet_loadBase a s)
  cases i with
  | erasePage a => exact hbase a (erasePage_hangsAt _)
  | eraseSector a => exact hbase a (compound_hangsAt _ _ _ _ (erasePage_hangsAt _))
  | eraseBlock a => exact hbase a (compound_hangsAt _ _ _ _ (erasePage_hangsAt _))
  | writePage a d => exact hbase a (writePage_hangsAt _ d)
  | writeSector a d => exact hbase a (writeSector_hangsAt _ d)
  | writeBlock a d => exact hbase a (compound_hangsAt _ _ _ _ (writeSector_hangsAt _ _))
  | getPage a => exact hbase a (getPageBeat_hangsAt _ _ _)
  | getSector a => exact hbase a (getSector_hangsAt _ _)
  | getBlock a => exact hbase a (compound_hangsAt _ _ _ _ (getSector_hangsAt _ _))
  | getPageCrc16 a => exact hbase a (getPageCrc16_hangsAt _)
  | eraseFull _ => cases hi
  | enableCheckMode _ => cases hi
  | disableCheckMode _ => cases hi
  | reserved0 _ => cases hi
  | reservedE _ => cases hi
  | reservedF _ => cases hi


/-- Settles O55: the command hangs at its first request, and a waiting core has no step. -/
theorem silentBackendHangsTheCommand : Obligations.SilentBackendHangsTheCommand := by
  intro i s hi hp hs hr hpages hv
  obtain ⟨q, t, hf, hq, ht⟩ := procOf_hangsAt hpages (accept i.opcode s) hs hv
  have he := exec_next i s hi hp
  rw [hf] at he
  have hb := waiting_busy hf
  rcases exec_ends he with ⟨hop, -⟩ | ⟨hop, hrsp, q', hq', -, hst⟩
  · exact absurd hop (Option.isSome_iff_ne_none.1 hb)
  · obtain rfl : q = q' := Option.some.inj hq'
    exact ⟨_, q, he, hb, hop, hrsp, rfl, hq, hst, ht.flash, ht.requests, step_waiting _ (ht.rst.trans hr) hb⟩

/-! ### CHECK_MODE (R137) -/

/-- The state with CHECK_MODE at `b`. -/
def withCheckMode (b : Bool) (s : State) : State := { s with checkMode := b }

/-- The second state is the first but for CHECK_MODE. -/
def SameButCheckMode (s t : State) : Prop := ∃ b, t = withCheckMode b s

theorem SameButCheckMode.exchange {s t : State} (h : SameButCheckMode s t) (q : LeafReq) :
    Both (fun _ s _ t => SameButCheckMode s t) SameButCheckMode NeverApart (leafExchange q s) (leafExchange q t) :=
  leafExchange_both (by rintro s _ q ⟨b, rfl⟩; exact ⟨b, rfl⟩) (by rintro s _ ⟨b, rfl⟩; rfl)
    (by rintro s _ n ⟨b, rfl⟩; exact ⟨b, rfl⟩) NeverApart q s t h

theorem loadBase_withCheckMode (a : Addr) (b : Bool) (s : State) :
    loadBase a (withCheckMode b s) = withCheckMode b (loadBase a s) := by
  rw [loadBase, loadBase, apply_ite (withCheckMode b)]
  rfl

/-- No operation of a page procedure reads CHECK_MODE. -/
theorem sameButCheckMode_kept : Kept SameButCheckMode SameButCheckMode NeverApart where
  goesOn := .never _
  valid := by rintro s _ a ⟨b, rfl⟩; rfl
  draws := by rintro s _ ⟨b, rfl⟩; rfl
  erase s t a h := both_andThen (h.exchange _) (by rintro _ s _ _ ⟨b, rfl⟩; exact ⟨b, rfl⟩) fun _ _ _ hd => hd.elim
  write s t a d h _ := both_andThen (h.exchange _) (by rintro _ s _ _ ⟨b, rfl⟩; exact ⟨b, rfl⟩) fun _ _ _ hd => hd.elim
  read s t a h :=
    both_andThen (h.exchange _) (by rintro _ s _ _ ⟨b, rfl⟩; exact ⟨⟨b, rfl⟩, rfl⟩) fun _ _ _ hd => hd.elim
  setStatus := by rintro s _ v ⟨b, rfl⟩; exact ⟨b, rfl⟩
  loadPbuf := by rintro s _ d ⟨b, rfl⟩; exact ⟨b, rfl⟩
  loadBase := by rintro s _ a ⟨b, rfl⟩; exact ⟨b, loadBase_withCheckMode a b s⟩
  foldPbuf := by rintro s _ ⟨b, rfl⟩ _; exact ⟨b, rfl⟩
  emitBeats := by rintro s _ x ⟨⟨⟩, _, _⟩ ⟨b, rfl⟩ <;> exact ⟨b, rfl⟩
  draw := by rintro s _ n ⟨b, rfl⟩; exact ⟨b, rfl⟩

/-- Nor does any other operation of a command, and a write of CHECK_MODE makes it agree. -/
theorem sameButCheckMode_commandRel : CommandRel (fun _ _ => SameButCheckMode) Eq SameButCheckMode NeverApart where
  kept _ _ := sameButCheckMode_kept
  setCheckMode := by rintro s _ v ⟨b, rfl⟩; exact ⟨v, rfl⟩
  dropAgg _ _ _ _ h := h
  dropAgg2 _ _ _ _ h := h
  ret _ := rfl
  pages _ _ := congrArg Ret.pages
  clearAgg := by rintro _ s _ ⟨b, rfl⟩; exact ⟨b, rfl⟩
  clearAgg2 := by rintro _ s _ ⟨b, rfl⟩; exact ⟨b, rfl⟩
  setIdx := by rintro _ _ s _ l k ⟨b, rfl⟩; cases l <;> exact ⟨b, rfl⟩
  foldAgg := by rintro _ _ s _ l r _ rfl ⟨b, rfl⟩; cases l <;> exact ⟨b, rfl⟩
  report := by rintro _ s _ ps ⟨b, rfl⟩; rfl
  report2 := by rintro _ s _ ps ⟨b, rfl⟩; rfl

/-- Two runs of a command's procedure from states that differ in CHECK_MODE alone. -/
theorem procOf_sameButCheckMode (i : Instr) {s t : State} (h : SameButCheckMode s t) :
    Both (SameRet SameButCheckMode) SameButCheckMode NeverApart (procOf i s) (procOf i t) := by
  by_cases hi : ∃ a, i = .getPageCrc16 a
  · obtain ⟨a, rfl⟩ := hi
    refine both_mono (getPageCrc16_both sameButCheckMode_commandRel a s t h) ?_
    rintro r s w _ ⟨⟨rfl, -⟩ | ⟨c, rfl, rfl⟩, ⟨b, rfl⟩⟩
    · exact ⟨rfl, b, rfl⟩
    · exact ⟨rfl, b, rfl⟩
  · obtain ⟨b, rfl⟩ := h
    exact procOf_both sameButCheckMode_commandRel i (fun a ha => hi ⟨a, ha⟩) s _ ⟨b, rfl⟩ rfl rfl rfl

/-- Runs that end together so leave, answered or waiting, such states. -/
theorem finish_sameButCheckMode {f g : Flow Ret}
    (h : Both (SameRet SameButCheckMode) SameButCheckMode NeverApart f g) : SameButCheckMode (finish f) (finish g) := by
  cases f with
  | done r u =>
    cases g with
    | done w v =>
      obtain ⟨rfl, b, rfl⟩ := h
      exact ⟨b, rfl⟩
    | waiting v => exact h.elim
  | waiting u =>
    cases g with
    | done w v => exact h.elim
    | waiting v => exact h

/-- A check-mode command writes over what CHECK_MODE held (R102, R103). -/
theorem exec_withCheckMode_of_writes {i : Instr} (hi : writesCheckMode i = true) (b : Bool) (s : State) :
    exec i (withCheckMode b s) = exec i s := by
  cases i with
  | enableCheckMode _ => rfl
  | disableCheckMode _ => rfl
  | _ => cases hi

/-- A command that does not write CHECK_MODE ends as it does otherwise but for CHECK_MODE, which it keeps (R13). -/
theorem exec_withCheckMode_of_keeps {i : Instr} (hi : writesCheckMode i = false) (b : Bool) {s t : State}
    (he : exec i s = .next t) : exec i (withCheckMode b s) = .next (withCheckMode b t) := by
  obtain ⟨hwf, hp, rfl⟩ := exec_next_inv i s t he
  have hu := exec_next i (withCheckMode b s) hwf hp
  have hs : SameButCheckMode (accept i.opcode s) (accept i.opcode (withCheckMode b s)) := ⟨b, rfl⟩
  obtain ⟨c, hc⟩ := finish_sameButCheckMode (procOf_sameButCheckMode i hs)
  rw [hc] at hu
  obtain rfl : c = b := exec_checkMode hi hu
  exact hu

/-- What a refusal depends on is the command and the configuration, not CHECK_MODE (R4, R48). -/
theorem exec_withCheckMode_of_refused {i : Instr} (b : Bool) {s : State} {r : Refusal} (he : exec i s = .refused r) :
    exec i (withCheckMode b s) = .refused r := by
  cases hi : i.wf with
  | false => rw [exec_illFormed i _ hi, ← he, exec_illFormed i s hi]
  | true =>
    have hp : s.params.wf = false := by simpa [hi] using illFormed_of_exec_refused i s r he
    rw [exec_illFormedParams i (withCheckMode b s) hi hp, ← he, exec_illFormedParams i s hi hp]

/-- Settles O44, from the two ways a command can go: it is answered or waits with a next state, or it is refused. -/
theorem checkModeAltersNoCommand : Obligations.CheckModeAltersNoCommand := by
  intro i s b
  change exec i (withCheckMode b s) = _
  cases he : exec i s with
  | next t =>
    cases hi : writesCheckMode i with
    | true => rw [exec_withCheckMode_of_writes hi, he]; rfl
    | false => rw [exec_withCheckMode_of_keeps hi b he]; rfl
  | fault f => exact absurd he (exec_not_fault i s f)
  | refused r => exact exec_withCheckMode_of_refused b he

end Sys2Proof.Machine
